-- ==== Sys2Proof/Word.lean ====
section
/-! DEFINITION. The two word sizes of the block: a byte of memory and a 32-bit register (00_scope R19). -/

namespace Sys2Proof

/-- One byte of system memory, and a packed byte (00_scope R8). -/
abbrev Byte := BitVec 8

/-- A 32-bit register value, a command word, or a binary32 pattern (00_scope R9, R12, R19). -/
abbrev Word := BitVec 32

end Sys2Proof
end

