-- ==== Sys2Proof/Config.lean ====
section
/-! DEFINITION. What an implementation fixes, and the free values.

The two OPEN parameters a run depends on, `PQC_BASE` and `MemErr` (00_scope R9), are plain data of
State (`Machine.Platform`), so that every statement about all states holds for every platform. -/

namespace Sys2Proof

/-- The bytes of the register window (10_state R20). -/
abbrev Config.windowBytes : Nat := 256

/-- The bytes of system memory: addresses 0 to 2^32 - 1 (20_memory R50). -/
abbrev Config.memoryBytes : Nat := 4294967296

/-- FREE VALUE. `drawByte n a` is what the spec calls "any value" (a draw) for the byte at address
`a` in draw number `n` (60_exceptions R178, 70_reset R211, 20_memory R56 and R72). Nothing is known
of it: a claim holds whatever it is. The counter `n` is `Port.draws` of State. (Log 5.) -/
opaque Config.drawByte : Nat → Nat → BitVec 8

/-- FREE VALUE. `drawHidden n k` is the "any value" that hidden register number `k` of the engine holds
after draw number `n` (10_state R48; 93_implementation_defined U30), cut to the register's width.
Nothing is known of it. (Logs 5 and 15.) -/
opaque Config.drawHidden : Nat → Nat → BitVec 33

end Sys2Proof
end

