-- ==== Sys2Proof/Syntax.lean ====
section
/-! DEFINITION. The commands of the block, the fields of a command word, and the transactions the
outside puts to the block. -/

namespace Sys2Proof

/-- The four commands (00_scope R2), one per row of the opcode table (30_encoding R82). A command
word has no operand field: operands come from the parameter registers (30_encoding R85). -/
inductive Instr where
  | quantizeUint4
  | dequantizeUint4
  | quantizeUint2
  | dequantizeUint2
  deriving DecidableEq, Repr

/-- The fields of a command word, reserved ones included (30_encoding R81). -/
structure CmdFields where
  /-- bit 0: 0 quantize, 1 dequantize -/
  dir : BitVec 1
  /-- bits 3:1, reserved -/
  rsvLow : BitVec 3
  /-- bits 7:4, bits per code -/
  width : BitVec 4
  /-- bits 31:8, reserved -/
  rsvHigh : BitVec 24
  deriving DecidableEq, Repr

/-- The registers of the window (10_state R20); `reserved` stands for the offsets 0x2C to 0xFC. -/
inductive Register where
  | cmd | status | faultInfo | irqEn | srcAddr | dstAddr | len | scale | zeroPoint | srcCap | dstCap
  | reserved
  deriving DecidableEq, Repr

/-- The widths of a host access that 10_state R21 names: 1, 2, 4 and 8 bytes. -/
inductive Size where
  | byte | half | word | dword
  deriving DecidableEq, Repr

/-- The bytes of a host access. -/
def Size.bytes : Size → Nat
  | .byte => 1
  | .half => 2
  | .word => 4
  | .dword => 8

/-- What the outside does next (00_scope R6, R7): the model's own view of the block's surroundings.
A host access names an address of the host's address space: inside the register window it is a
register access, elsewhere it is an access to system memory (20_memory R50, 30_encoding R88). -/
inductive Input where
  /-- a host read of `size` bytes (`RD`, or a load) -/
  | load (addr : Word) (size : Size)
  /-- a host write (`WR`, `MEM32`, or another store); the low `size` bytes of `data` are written -/
  | store (addr : Word) (size : Size) (data : BitVec 64)
  /-- the poll loop `pqc.wait` (30_encoding R90) -/
  | poll
  /-- a turn of the engine (00_scope R7: host and engine are scheduled in any order) -/
  | engine
  /-- the reset input is asserted (70_reset R210) -/
  | reset
  deriving DecidableEq, Repr

end Sys2Proof
end

