-- ==== Sys2Proof/WellFormed.lean ====
section
/-! DEFINITION. Which command words are legal, which host accesses to the register window are legal,
and that a command, having no operand, is always well formed. -/

namespace Sys2Proof

/-- A command word is legal when its reserved bits are 0 and its width is 2 or 4
(30_encoding R81, R83). -/
abbrev CmdFields.wellFormed (f : CmdFields) : Prop :=
  f.rsvLow = 0 ∧ f.rsvHigh = 0 ∧ (f.width = 2 ∨ f.width = 4)

/-- A command carries no operand (30_encoding R85), so each of the four is well formed. -/
abbrev Instr.wellFormed : Instr → Prop
  | .quantizeUint4 => True
  | .dequantizeUint4 => True
  | .quantizeUint2 => True
  | .dequantizeUint2 => True

/-- A register access is a 32-bit access at a word-aligned address (10_state R21; the window is
256-byte aligned, R20, so an aligned address is an aligned offset). -/
abbrev Size.wellFormedAt (size : Size) (addr : Word) : Prop :=
  size = .word ∧ addr.toNat % 4 = 0

end Sys2Proof
end

