-- ==== Sys2Proof/Decode.lean ====
section
/-! DEFINITION. Decoding and encoding: the command word (30_encoding R80 to R84) and the register
offsets (10_state R20). -/

namespace Sys2Proof

/-- Why a command word is illegal (30_encoding R83). -/
inductive IllegalWord where
  /-- a reserved bit of bits 3:1 is set -/
  | reservedLow
  /-- a reserved bit of bits 31:8 is set -/
  | reservedHigh
  /-- bits 7:4 are neither 2 nor 4 -/
  | reservedWidth
  deriving DecidableEq, Repr

/-- What a command word decodes to: a command, or a rejection by name. -/
inductive Decoded where
  | command (i : Instr)
  | illegal (why : IllegalWord)
  deriving DecidableEq, Repr

/-- The fields of a command word (30_encoding R81). -/
def CmdFields.ofWord (c : Word) : CmdFields where
  dir := c.extractLsb' 0 1
  rsvLow := c.extractLsb' 1 3
  width := c.extractLsb' 4 4
  rsvHigh := c.extractLsb' 8 24

/-- The word of a command's fields (30_encoding R81). -/
def CmdFields.toWord (f : CmdFields) : Word :=
  f.rsvHigh ++ f.width ++ f.rsvLow ++ f.dir

/-- Decode the fields: exactly four combinations are commands (30_encoding R82, R84). -/
def CmdFields.decode (f : CmdFields) : Decoded :=
  if f.rsvLow ≠ 0 then .illegal .reservedLow
  else if f.rsvHigh ≠ 0 then .illegal .reservedHigh
  else if f.width = 4 then .command (if f.dir = 0 then .quantizeUint4 else .dequantizeUint4)
  else if f.width = 2 then .command (if f.dir = 0 then .quantizeUint2 else .dequantizeUint2)
  else .illegal .reservedWidth

/-- Decode a command word (30_encoding R80: every `CMD` write is one complete word). -/
def decodeWord (c : Word) : Decoded :=
  (CmdFields.ofWord c).decode

/-- The fields of a command (30_encoding R82). -/
def Instr.fields : Instr → CmdFields
  | .quantizeUint4 => ⟨0, 0, 4, 0⟩
  | .dequantizeUint4 => ⟨1, 0, 4, 0⟩
  | .quantizeUint2 => ⟨0, 0, 2, 0⟩
  | .dequantizeUint2 => ⟨1, 0, 2, 0⟩

/-- The command word of a command (30_encoding R82). -/
def encode (i : Instr) : Word :=
  i.fields.toWord

/-- The command of a decoded word, if it is one. -/
def Decoded.toInstr? : Decoded → Option Instr
  | .command i => some i
  | .illegal _ => none

/-- The instruction that a table word of `nbits` bits stands for. A command word is one 32-bit
register value (30_encoding R80), so the bits above `nbits` are 0 and a longer word is none. -/
def decodeTableWord (nbits w : Nat) : Option Instr :=
  if nbits ≤ 32 then (decodeWord (BitVec.ofNat 32 (w % 2 ^ nbits))).toInstr? else none

/-- The register at a word offset of the window (10_state R20, R22). -/
def Register.ofOffset (offset : Nat) : Register :=
  match offset / 4 with
  | 0 => .cmd
  | 1 => .status
  | 2 => .faultInfo
  | 3 => .irqEn
  | 4 => .srcAddr
  | 5 => .dstAddr
  | 6 => .len
  | 7 => .scale
  | 8 => .zeroPoint
  | 9 => .srcCap
  | 10 => .dstCap
  | _ => .reserved

/-- The offset of a register (10_state R20); `reserved` answers the first reserved offset. -/
def Register.offset : Register → Nat
  | .cmd => 0x00
  | .status => 0x04
  | .faultInfo => 0x08
  | .irqEn => 0x0C
  | .srcAddr => 0x10
  | .dstAddr => 0x14
  | .len => 0x18
  | .scale => 0x1C
  | .zeroPoint => 0x20
  | .srcCap => 0x24
  | .dstCap => 0x28
  | .reserved => 0x2C

end Sys2Proof
end

