-- ==== Sys2Proof/Machine/State.lean ====
section
/-! DEFINITION. The state of the machine, as plain data, and the machine right after reset. -/

namespace Sys2Proof.Machine

/-- The cause codes of 60_exceptions R176. -/
inductive Cause where
  | none | illegalCmd | nullPtr | badScale | misaligned | addrWrap | bufTooSmall | overlap
  | nanSample | busError
  deriving DecidableEq, Repr

/-- A fault to be recorded: its cause and its `FAULT_INFO` (60_exceptions R178). -/
structure Trap where
  cause : Cause
  info : Word
  deriving DecidableEq, Repr

/-- The registers a host sees (10_state R25, R33 to R42). `CMD` holds no state (R24); the `STATUS`
and `IRQ_EN` words are computed from these fields, so their reserved bits read 0 (R22). -/
structure Regs where
  /-- `STATUS.BUSY` -/
  busy : Bool
  /-- `STATUS.DONE` -/
  done : Bool
  /-- `STATUS.FAULT` -/
  fault : Bool
  /-- `STATUS.REJ` -/
  rej : Bool
  /-- `STATUS.CAUSE` -/
  cause : BitVec 4
  /-- `FAULT_INFO` -/
  faultInfo : Word
  /-- `IRQ_EN.DONE_IE` -/
  doneIe : Bool
  /-- `IRQ_EN.FAULT_IE` -/
  faultIe : Bool
  /-- `SRC_ADDR` -/
  srcAddr : Word
  /-- `DST_ADDR` -/
  dstAddr : Word
  /-- `LEN` -/
  len : Word
  /-- `SCALE`, a binary32 pattern -/
  scale : Word
  /-- `ZERO_POINT`, read as two's complement -/
  zeroPoint : Word
  /-- `SRC_CAP` -/
  srcCap : Word
  /-- `DST_CAP` -/
  dstCap : Word
  deriving DecidableEq, Repr

/-- The hidden state of the engine (10_state R35, R48). -/
structure Engine where
  /-- `L.DIR` -/
  dir : BitVec 1
  /-- `L.W` -/
  width : BitVec 3
  /-- `L.SRC` -/
  src : Word
  /-- `L.DST` -/
  dst : Word
  /-- `L.LEN` -/
  len : Word
  /-- `L.SCALE` -/
  scale : Word
  /-- `L.ZP` -/
  zp : Word
  /-- `L.NSRC` -/
  nsrc : BitVec 33
  /-- `L.NDST` -/
  ndst : BitVec 33
  /-- `IDX`, the index of the next unit -/
  idx : Word
  /-- `ACC`, the packed byte a quantize unit assembles; any value between unit steps (R48) -/
  acc : Byte
  /-- the packed byte a dequantize unit has read; any value between unit steps (R48) -/
  packed : Byte
  deriving DecidableEq, Repr

/-- System memory as (address, byte) pairs in one canonical form (`Memory.wf`): addresses strictly
rising and below 2^32, and no byte equal to what an unlisted address reads as, 0x00 (log 6). -/
abbrev Memory := List Host.Cell

/-- The canonical form of a memory. -/
abbrev Memory.wf (m : Memory) : Prop :=
  m.Pairwise (fun x y => x.1 < y.1) ∧ ∀ c ∈ m, c.2 ≠ 0 ∧ c.1 < Config.memoryBytes

/-- The two kinds of access `MemErr` distinguishes (00_scope R9). -/
inductive AccessKind where
  | read | write
  deriving DecidableEq, Repr

/-- A range of accesses that answer a bus error: those of `n` bytes and of this kind whose address
`a` has `lo ≤ a < hi`. -/
structure ErrRange where
  lo : Nat
  hi : Nat
  n : Nat
  kind : AccessKind
  deriving DecidableEq, Repr

/-- The OPEN parameters of the platform (00_scope R9). No step changes them. -/
structure Platform where
  /-- bits 31:8 of `PQC_BASE`, which is 256-byte aligned (10_state R20; log 7) -/
  page : BitVec 24
  /-- the predicate `MemErr`, as the union of these ranges (log 8) -/
  memErr : List ErrRange
  deriving DecidableEq, Repr

/-- The model's own: the ranges of a command that was accepted and whose end no host has observed
yet (20_memory R72; log 10). -/
structure Claim where
  src : Nat
  nsrc : Nat
  dst : Nat
  ndst : Nat
  /-- a host access has raced with the command while it ran -/
  raced : Bool
  /-- a host write to the source range has raced with the running command: the engine's reads of the
  source are draws of this number from then on -/
  srcDraw : Option Nat
  deriving DecidableEq, Repr

/-- The model's own view of the surroundings (log 1). -/
structure Port where
  /-- what the outside does next, oldest first -/
  inputs : List Input
  /-- the data answered to host reads, newest first -/
  replies : List (BitVec 64)
  /-- the command accepted last, while no host has observed its end -/
  current : Option Claim
  /-- the commands accepted before it whose end no host has observed, newest first -/
  unobserved : List Claim
  /-- the number of the next draw of a free value (log 5) -/
  draws : Nat
  deriving DecidableEq, Repr

/-- The whole machine. -/
structure State where
  regs : Regs
  engine : Engine
  mem : Memory
  platform : Platform
  port : Port
  deriving DecidableEq, Repr

/-- The faults of the MODEL (the block's own faults are next states, `raiseFault`). -/
inductive Fault where
  /-- Raised by a turn of the engine when `BUSY = 1` and no rule enables an engine step: the latched
  command is none of the four, or `IDX` is past its end. No reachable state is such a state
  (10_state R32, R44). Safe: the model stops. (Log 16.) -/
  | noEnabledStep
  /-- Raised by a host access to system memory that passes address 2^32 - 1: no such address exists
  (20_memory R50). Safe: the model stops. (Log 9.) -/
  | hostAccessOutsideMemory (addr : Word)
  deriving DecidableEq, Repr

/-- The refusals of the model. -/
inductive Refusal where
  /-- Raised by exec for an instruction that has no meaning yet; no arm does. Safe. -/
  | notModelled (mnemonic : String)
  /-- Raised by step for a host access to the register window that is not an aligned 32-bit access:
  the block changes no state, and "a model refuses such an access by name" (10_state R21). Safe:
  the model stops where the host platform goes on in a way the spec does not give. (Log 12.) -/
  | registerAccessForm (addr : Word) (size : Size)
  deriving DecidableEq, Repr

/-- Every register a host sees after reset (10_state R47). -/
def Regs.reset : Regs where
  busy := false
  done := false
  fault := false
  rej := false
  cause := 0
  faultInfo := 0
  doneIe := false
  faultIe := false
  srcAddr := 0
  dstAddr := 0
  len := 0
  scale := 0
  zeroPoint := 0
  srcCap := 0
  dstCap := 0

/-- The hidden state after reset (10_state R47; for `packed` DESIGN CHOICE, log 14). -/
def Engine.reset : Engine where
  dir := 0
  width := 0
  src := 0
  dst := 0
  len := 0
  scale := 0
  zp := 0
  nsrc := 0
  ndst := 0
  idx := 0
  acc := 0
  packed := 0

/-- The platform of `State.reset`: DESIGN CHOICE `PQC_BASE` = 0x40000000 and no access that answers
a bus error besides the block's own window (logs 7 and 8). -/
def Platform.default : Platform where
  page := 0x400000
  memErr := []

/-- Surroundings that do nothing (DESIGN CHOICE, logs 1 and 5). -/
def Port.idle : Port where
  inputs := []
  replies := []
  current := none
  unobserved := []
  draws := 0

/-- The machine right after reset (10_state R47, 70_reset R210, R212): memory lists nothing. -/
def State.reset : State where
  regs := .reset
  engine := .reset
  mem := []
  platform := .default
  port := .idle

end Sys2Proof.Machine
end

