-- ==== Sys2Proof/Machine/Flags.lean ====
section
/-! DEFINITION. The status word, the cause codes, the interrupt enables and the `irq` output. -/

namespace Sys2Proof.Machine

/-- The code of a cause (60_exceptions R176); 10 to 15 are never produced. -/
def causeCode : Cause → BitVec 4
  | .none => 0
  | .illegalCmd => 1
  | .nullPtr => 2
  | .badScale => 3
  | .misaligned => 4
  | .addrWrap => 5
  | .bufTooSmall => 6
  | .overlap => 7
  | .nanSample => 8
  | .busError => 9

/-- Causes 8 and 9 end a command that was running (60_exceptions R175, R178). -/
def causeIsExecution : Cause → Bool
  | .nanSample => true
  | .busError => true
  | .none | .illegalCmd | .nullPtr | .badScale | .misaligned | .addrWrap | .bufTooSmall
  | .overlap => false

/-- The `STATUS` word (10_state R25): reserved bits read 0. -/
def statusWord (r : Regs) : Word :=
  0#20 ++ r.cause ++ 0#4 ++ BitVec.ofBool r.rej ++ BitVec.ofBool r.fault ++ BitVec.ofBool r.done
    ++ BitVec.ofBool r.busy

/-- The `IRQ_EN` word (10_state R34): reserved bits read 0. -/
def irqEnWord (r : Regs) : Word :=
  0#30 ++ BitVec.ofBool r.faultIe ++ BitVec.ofBool r.doneIe

/-- The `irq` output, a function of state at every moment (60_exceptions R184). -/
def irqOutput (r : Regs) : Bool :=
  (r.done && r.doneIe) || (r.fault && r.faultIe)

end Sys2Proof.Machine
end

