-- ==== Sys2Proof/Machine/Operands.lean ====
section
/-! DEFINITION. The operands of a command: what the parameter registers mean (30_encoding R85, R86),
the byte lengths of the two ranges (20_memory R60), and validation (60_exceptions R172). -/

namespace Sys2Proof.Machine

/-- `W = CMD[7:4]` (30_encoding R86). -/
def commandWidth (c : Word) : Nat :=
  (CmdFields.ofWord c).width.toNat

/-- `DIR = CMD[0]` (30_encoding R81). -/
def commandDir (c : Word) : BitVec 1 :=
  (CmdFields.ofWord c).dir

/-- `ceil(len / G)`, the bytes of the packed buffer (20_memory R60). -/
def packedBytes (w len : Nat) : Nat :=
  (len + (8 / w) - 1) / (8 / w)

/-- `NSRC` (20_memory R60). -/
def srcBytes (dir : BitVec 1) (w len : Nat) : Nat :=
  if dir = 0 then 4 * len else packedBytes w len

/-- `NDST` (20_memory R60). -/
def dstBytes (dir : BitVec 1) (w len : Nat) : Nat :=
  if dir = 0 then packedBytes w len else 4 * len

/-- `zp = s32(ZERO_POINT)` (10_state R40). -/
def zeroPointOf (z : Word) : Int :=
  z.toInt

/-- A legal scale: positive, finite, not zero (10_state R39). -/
def scaleLegal (s : Word) : Bool :=
  decide (0x00000001 ≤ s.toNat ∧ s.toNat ≤ 0x7F7FFFFF)

/-- `fside`, the base of the binary32 buffer (30_encoding R86). -/
def floatSide (dir : BitVec 1) (r : Regs) : Nat :=
  if dir = 0 then r.srcAddr.toNat else r.dstAddr.toNat

/-- Two byte ranges `[a, a + n)` and `[b, b + m)` share a byte. -/
def rangesMeet (a n b m : Nat) : Bool :=
  decide (0 < n ∧ 0 < m ∧ a < b + m ∧ b < a + n)

/-- Checks 2 to 7 of `VALIDATE` for a legal word of direction `dir` and width `w`, in their order, on
the parameter registers as unsigned integers with exact sums (60_exceptions R172). -/
def validateOperands (dir : BitVec 1) (w : Nat) (r : Regs) : Option Trap :=
  let nsrc := srcBytes dir w r.len.toNat
  let ndst := dstBytes dir w r.len.toNat
  if r.srcAddr = 0 ∨ r.dstAddr = 0 then some ⟨.nullPtr, 0⟩
  else if ¬ scaleLegal r.scale then some ⟨.badScale, 0⟩
  else if floatSide dir r % 4 ≠ 0 then some ⟨.misaligned, 0⟩
  else if r.srcAddr.toNat + nsrc > Config.memoryBytes ∨ r.dstAddr.toNat + ndst > Config.memoryBytes then
    some ⟨.addrWrap, 0⟩
  else if nsrc > r.srcCap.toNat ∨ ndst > r.dstCap.toNat then some ⟨.bufTooSmall, 0⟩
  else if rangesMeet r.srcAddr.toNat nsrc r.dstAddr.toNat ndst then some ⟨.overlap, 0⟩
  else none

/-- `VALIDATE(c)` (60_exceptions R172): the first check that fails, or `none`. -/
def validate (c : Word) (r : Regs) : Option Trap :=
  match decodeWord c with
  | .illegal _ => some ⟨.illegalCmd, c⟩
  | .command _ => validateOperands (commandDir c) (commandWidth c) r

end Sys2Proof.Machine
end

