-- ==== Sys2Proof/Machine/Ops.lean ====
section
/-! DEFINITION. The named operations over memory and registers: bytes and words of memory, the
platform's bus errors, draws of free values, reading and writing a register, the entry of a fault and
its exit. -/

namespace Sys2Proof.Machine

/-! ### Bytes of memory -/

/-- The byte at an address; an unlisted address reads 0x00 (log 6). -/
def Memory.readByte : Memory → Nat → Byte
  | [], _ => 0
  | (a', b) :: m, a => if a = a' then b else Memory.readByte m a

/-- Put a byte at its place in the rising list; the byte 0x00 is not listed. -/
def Memory.insertByte (a : Nat) (b : Byte) : Memory → Memory
  | [] => if b = 0 then [] else [(a, b)]
  | (a', b') :: m =>
    if a < a' then (if b = 0 then (a', b') :: m else (a, b) :: (a', b') :: m)
    else if a = a' then (if b = 0 then m else (a, b) :: m)
    else (a', b') :: Memory.insertByte a b m

/-- Write one byte. System memory has the addresses 0 to 2^32 - 1 only (20_memory R50). -/
def Memory.writeByte (m : Memory) (a : Nat) (b : Byte) : Memory :=
  if a < Config.memoryBytes then m.insertByte a b else m

/-- Write bytes to rising addresses, the first at `a`. -/
def Memory.writeBytes (m : Memory) (a : Nat) : List Byte → Memory
  | [] => m
  | b :: bs => Memory.writeBytes (m.writeByte a b) (a + 1) bs

/-- The bytes of a value, low byte first (20_memory R54, R57). -/
def littleEndianBytes (n : Nat) (v : BitVec 64) : List Byte :=
  (List.range n).map (fun k => v.extractLsb' (8 * k) 8)

/-- The value of bytes, the first the lowest (20_memory R53, R57). -/
def littleEndianValue : List Byte → Nat
  | [] => 0
  | b :: bs => b.toNat + 256 * littleEndianValue bs

/-- `n` bytes of memory from address `a` on. -/
def Memory.readBytes (m : Memory) (a n : Nat) : List Byte :=
  (List.range n).map (fun k => m.readByte (a + k))

/-- Draw number `d` of every byte of `[base, base + n)`: each takes any value (log 5). -/
def Memory.drawRange (m : Memory) (d base : Nat) : Nat → Memory
  | 0 => m
  | n + 1 => (m.drawRange d base n).writeByte (base + n) (Config.drawByte d (base + n))

/-! ### The platform -/

/-- `PQC_BASE` (10_state R20). -/
def Platform.base (p : Platform) : Nat :=
  p.page.toNat * Config.windowBytes

/-- The bytes `[a, a + n)` touch the register window (20_memory R50, R51). -/
def touchesWindow (p : Platform) (a n : Nat) : Bool :=
  rangesMeet a n p.base Config.windowBytes

/-- The access is one of the range's (00_scope R9). -/
def ErrRange.covers (e : ErrRange) (a n : Nat) (kind : AccessKind) : Bool :=
  decide (e.lo ≤ a ∧ a < e.hi ∧ e.n = n ∧ e.kind = kind)

/-- An engine access answers `BusError`: the platform's predicate holds, the access touches the
block's own window (20_memory R51, R56), or it passes the last address (log 8). -/
def busError (p : Platform) (a n : Nat) (kind : AccessKind) : Bool :=
  touchesWindow p a n || decide (Config.memoryBytes < a + n) || p.memErr.any (·.covers a n kind)

/-! ### The engine's accesses (20_memory R52 to R56, R63) -/

/-- The commands whose end no host has observed yet, newest first (20_memory R72; log 10). -/
def Port.claims (p : Port) : List Claim :=
  p.current.toList ++ p.unobserved

/-- The draw that the running command's source bytes have become, if a host write raced with them
(20_memory R72). -/
def sourceDraw (s : State) : Option Nat :=
  s.port.current.bind (·.srcDraw)

/-- The byte the memory oracle gives the engine (20_memory R52): the last one written, or any value
after a race (R72). -/
def engineByte (s : State) (a : Nat) : Byte :=
  match sourceDraw s with
  | some d => Config.drawByte d a
  | none => s.mem.readByte a

/-- `MemRead(addr, 1)`; `none` is `BusError` (20_memory R55). -/
def memRead1 (s : State) (a : Nat) : Option Byte :=
  if busError s.platform a 1 .read then none else some (engineByte s a)

/-- `MemRead(addr, 4)`, little-endian; `none` is `BusError` (20_memory R53). -/
def memRead4 (s : State) (a : Nat) : Option Word :=
  if busError s.platform a 4 .read then none
  else some (engineByte s (a + 3) ++ engineByte s (a + 2) ++ engineByte s (a + 1) ++ engineByte s a)

/-- `MemWrite(addr, 1, v)`; `none` is `BusError` (20_memory R55). -/
def memWrite1 (p : Platform) (m : Memory) (a : Nat) (v : Byte) : Option Memory :=
  if busError p a 1 .write then none else some (m.writeByte a v)

/-- `MemWrite(addr, 4, v)`, little-endian; `none` is `BusError` (20_memory R54). -/
def memWrite4 (p : Platform) (m : Memory) (a : Nat) (v : Word) : Option Memory :=
  if busError p a 4 .write then none
  else some (m.writeBytes a (littleEndianBytes 4 (v.setWidth 64)))

/-! ### Draws -/

/-- Every byte of the latched destination range takes any value (60_exceptions R178, 70_reset R211). -/
def drawDestination (s : State) : State :=
  { s with
    mem := s.mem.drawRange s.port.draws s.engine.dst.toNat s.engine.ndst.toNat
    port.draws := s.port.draws + 1 }

/-- Hidden state of the engine of which nothing is known (93_implementation_defined U30; log 15). -/
def Engine.drawn (d : Nat) : Engine where
  dir := (Config.drawHidden d 0).setWidth 1
  width := (Config.drawHidden d 1).setWidth 3
  src := (Config.drawHidden d 2).setWidth 32
  dst := (Config.drawHidden d 3).setWidth 32
  len := (Config.drawHidden d 4).setWidth 32
  scale := (Config.drawHidden d 5).setWidth 32
  zp := (Config.drawHidden d 6).setWidth 32
  nsrc := Config.drawHidden d 7
  ndst := Config.drawHidden d 8
  idx := (Config.drawHidden d 9).setWidth 32
  acc := (Config.drawHidden d 10).setWidth 8
  packed := (Config.drawHidden d 11).setWidth 8

/-- The end of a command: its latched parameters, `IDX` and the held bytes take any value while the
block is idle (93_implementation_defined U30). -/
def forgetCommand (s : State) : State :=
  { s with
    engine := Engine.drawn s.port.draws
    port.draws := s.port.draws + 1 }

/-- The end of a quantize unit: `ACC` does not survive it, so it takes any value (10_state R48), and
the next unit is `IDX + 1` (R44). -/
def endQuantizeUnit (s : State) : State :=
  { s with
    engine.acc := (Engine.drawn s.port.draws).acc
    engine.idx := s.engine.idx + 1
    port.draws := s.port.draws + 1 }

/-- The end of a dequantize unit: the packed byte does not survive it, so it takes any value
(10_state R48), and the next unit is `IDX + 1` (R44). -/
def endDequantizeUnit (s : State) : State :=
  { s with
    engine.packed := (Engine.drawn s.port.draws).packed
    engine.idx := s.engine.idx + 1
    port.draws := s.port.draws + 1 }

/-! ### Fault entry and exit -/

/-- `raise Fault(cause, info)`, the one operation for every fault (60_exceptions R178): the five
register writes; after an execution fault (causes 8 and 9) every byte of the destination range and the
hidden state take any value, after a validation fault memory is unchanged. -/
def raiseFault (t : Trap) (s : State) : State :=
  let s := if causeIsExecution t.cause then forgetCommand (drawDestination s) else s
  { s with
    regs.busy := false
    regs.done := false
    regs.fault := true
    regs.cause := causeCode t.cause
    regs.faultInfo := t.info }

/-- A host write of `w` to `STATUS` (10_state R31): write 1 to clear. Bit 2 is the exit from a fault
(60_exceptions R182). -/
def writeStatus (w : Word) (r : Regs) : Regs :=
  let r := if w.getLsbD 1 then { r with done := false } else r
  let r := if w.getLsbD 2 then { r with fault := false, cause := 0, faultInfo := 0 } else r
  if w.getLsbD 3 then { r with rej := false } else r

/-! ### Registers -/

/-- What a register reads as (10_state R20, R22, R24); a read changes nothing (R23). -/
def readRegister (r : Regs) : Register → Word
  | .cmd => 0
  | .status => statusWord r
  | .faultInfo => r.faultInfo
  | .irqEn => irqEnWord r
  | .srcAddr => r.srcAddr
  | .dstAddr => r.dstAddr
  | .len => r.len
  | .scale => r.scale
  | .zeroPoint => r.zeroPoint
  | .srcCap => r.srcCap
  | .dstCap => r.dstCap
  | .reserved => 0

/-- A host write to a register other than `CMD` (10_state R22, R31, R33, R34, R43); a write to `CMD`
is a command (`commandWrite`), and here changes nothing. -/
def writeRegister (w : Word) (r : Regs) : Register → Regs
  | .cmd => r
  | .status => writeStatus w r
  | .faultInfo => r
  | .irqEn => { r with doneIe := w.getLsbD 0, faultIe := w.getLsbD 1 }
  | .srcAddr => { r with srcAddr := w }
  | .dstAddr => { r with dstAddr := w }
  | .len => { r with len := w }
  | .scale => { r with scale := w }
  | .zeroPoint => { r with zeroPoint := w }
  | .srcCap => { r with srcCap := w }
  | .dstCap => { r with dstCap := w }
  | .reserved => r

/-! ### The queue of inputs -/

/-- The input that was just handled leaves the queue (log 1). -/
def consumeInput (s : State) : State :=
  { s with port.inputs := s.port.inputs.tail }

/-- It is the engine's turn: the outside gives it one, or does nothing (log 2). -/
def engineTurn (s : State) : Bool :=
  match s.port.inputs with
  | [] => true
  | .engine :: _ => true
  | .load _ _ :: _ | .store _ _ _ :: _ | .poll :: _ | .reset :: _ => false

end Sys2Proof.Machine
end

