-- ==== Sys2Proof/Machine/Command.lean ====
section
/-! DEFINITION. What the four commands share: the `CMD` write (60_exceptions R170, R171), the completion
step (41_quantize R134), and the choice between a `CMD` write and a step of the running command. -/

namespace Sys2Proof.Machine

/-- The claim that the accepted command makes on its ranges (20_memory R72; log 10). -/
def acceptClaim (dir : BitVec 1) (w : Nat) (r : Regs) : Claim where
  src := r.srcAddr.toNat
  nsrc := srcBytes dir w r.len.toNat
  dst := r.dstAddr.toNat
  ndst := dstBytes dir w r.len.toNat
  raced := false
  srcDraw := none

/-- The accept of a validated command word (60_exceptions R171): the parameters are latched, `IDX` is
0, `DONE` is 0 and `BUSY` is 1. `ACC` and the held packed byte are not the accept's. -/
def acceptCommand (c : Word) (s : State) : State :=
  let dir := commandDir c
  let w := commandWidth c
  { s with
    regs.done := false
    regs.busy := true
    engine.dir := dir
    engine.width := BitVec.ofNat 3 w
    engine.src := s.regs.srcAddr
    engine.dst := s.regs.dstAddr
    engine.len := s.regs.len
    engine.scale := s.regs.scale
    engine.zp := s.regs.zeroPoint
    engine.nsrc := BitVec.ofNat 33 (srcBytes dir w s.regs.len.toNat)
    engine.ndst := BitVec.ofNat 33 (dstBytes dir w s.regs.len.toNat)
    engine.idx := 0
    port.current := some (acceptClaim dir w s.regs)
    port.unobserved := s.port.claims }

/-- A host write of any word to `CMD` (10_state R24): rejected while busy or faulted
(60_exceptions R170), else it faults at validation or is accepted (R171). -/
def commandWrite (c : Word) (s : State) : State :=
  if s.regs.busy || s.regs.fault then { s with regs.rej := true }
  else
    match validate c s.regs with
    | some t => raiseFault t { s with regs.done := false }
    | none => acceptCommand c s

/-- The word of the running command, from `L.DIR` and `L.W` (10_state R35). -/
def latchedWord (e : Engine) : Word :=
  CmdFields.toWord ⟨e.dir, 0, e.width.setWidth 4, 0⟩

/-- The number of units of the running command: `L.NDST` for quantize, `L.NSRC` for dequantize
(10_state R44). -/
def unitCount (e : Engine) : Nat :=
  if e.dir = 0 then e.ndst.toNat else e.nsrc.toNat

/-- A host access has raced with the running command (20_memory R72). -/
def commandRaced (s : State) : Bool :=
  match s.port.current with
  | some c => c.raced
  | none => false

/-- The completion step (41_quantize R134): `BUSY` is 0 and `DONE` is 1. If a host raced with the
command, every byte of the destination range takes any value (20_memory R72). The hidden state is idle
from then on. -/
def completeCommand (s : State) : State :=
  let s := if commandRaced s then drawDestination s else s
  let s := forgetCommand s
  { s with regs.busy := false, regs.done := true }

/-- A step of the engine (41_quantize R133, R134; 42_dequantize R153): the unit `IDX` while there is
one, then the completion step. No rule enables a step when `IDX` is past the end (log 16). -/
def engineStep (unit : State → State) (s : State) : Host.Outcome State Fault Refusal :=
  if s.engine.idx.toNat < unitCount s.engine then .next (unit s)
  else if s.engine.idx.toNat = unitCount s.engine then .next (completeCommand s)
  else .fault .noEnabledStep

/-- The meaning of a command over its unit step: in a turn of the engine while the command runs, its
next engine step; else the `CMD` write of its word (log 13). The handled input leaves the queue. -/
def runCommand (i : Instr) (unit : State → State) (s : State) : Host.Outcome State Fault Refusal :=
  if engineTurn s && s.regs.busy && latchedWord s.engine == encode i then engineStep unit (consumeInput s)
  else .next (commandWrite (encode i) (consumeInput s))

end Sys2Proof.Machine
end

