-- ==== Sys2Proof/Machine/Binary32.lean ====
section
/-! DEFINITION. Binary32 patterns and the arithmetic the converter uses (00_scope R12 to R14).

A finite pattern's magnitude is held exactly, as a number of units of 2^-149 (the smallest
subnormal), so that division, product and rounding are arithmetic of natural numbers. -/

namespace Sys2Proof.Machine

/-- The sign bit `b[31]`: true for a minus sign. -/
def f32Sign (b : Word) : Bool :=
  b.getLsbD 31

/-- The biased exponent `b[30:23]`. -/
def f32Exponent (b : Word) : Nat :=
  (b.extractLsb' 23 8).toNat

/-- The fraction `b[22:0]`. -/
def f32Fraction (b : Word) : Nat :=
  (b.extractLsb' 0 23).toNat

/-- `is_nan(b)` (00_scope R12). -/
def f32IsNan (b : Word) : Bool :=
  f32Exponent b == 255 && f32Fraction b != 0

/-- `b` is an infinity (00_scope R12). -/
def f32IsInf (b : Word) : Bool :=
  f32Exponent b == 255 && f32Fraction b == 0

/-- `b` is a finite number (00_scope R12). -/
def f32IsFinite (b : Word) : Bool :=
  f32Exponent b != 255

/-- The magnitude `|val(b)|` of a finite pattern in units of 2^-149 (00_scope R12): `fraction` for
exponent 0, and `(2^23 + fraction) * 2^(e-1)` for an exponent `e` of 1 to 254. -/
def f32Magnitude (b : Word) : Nat :=
  if f32Exponent b = 0 then f32Fraction b
  else (2 ^ 23 + f32Fraction b) * 2 ^ (f32Exponent b - 1)

/-- The exact value `val(b)` of a finite pattern (00_scope R12). The machine computes with
`f32Magnitude`; this is the number it stands for. -/
def f32Value (b : Word) : ℚ :=
  (if f32Sign b then -1 else 1) * (f32Magnitude b : ℚ) / 2 ^ 149

/-- The integer nearest `n / d`, the even one on a tie. -/
def divNearestEven (n d : Nat) : Nat :=
  let q := n / d
  let r := n % d
  if 2 * r < d then q
  else if d < 2 * r then q + 1
  else q + q % 2

/-- The pattern without sign of `rne32(n / d)`, `d > 0` (00_scope R13). With the value scaled to
units of 2^-149, `k` is the number of low bits a 24-bit significand leaves out, and the pattern of
`r * 2^k` units is `k * 2^23 + r`, which also carries into the next exponent when `r` is 2^24 and
gives the subnormals when `k` is 0. From the overflow threshold on it is the infinity. -/
def f32RoundMagnitude (n d : Nat) : Nat :=
  let u := n * 2 ^ 149
  let k := Nat.log2 (u / d) - 23
  min (k * 2 ^ 23 + divNearestEven u (d * 2 ^ k)) 0x7F800000

/-- A pattern from its sign and its other 31 bits. -/
def f32Pack (neg : Bool) (magnitude : Nat) : Word :=
  BitVec.ofBool neg ++ BitVec.ofNat 31 magnitude

/-- `rne32(t)` for `t = n / d` with a minus sign if `neg` (00_scope R13); a zero keeps the sign. -/
def rne32 (neg : Bool) (n d : Nat) : Word :=
  f32Pack neg (f32RoundMagnitude n d)

/-- `f32_div(a, b)` for finite `a` and finite `b` not 0 (00_scope R13). A zero quotient has the sign of the
operands (40_convert R114: the quotient of -0.0 is -0.0; log 20). -/
def f32Div (a b : Word) : Word :=
  rne32 (f32Sign a != f32Sign b) (f32Magnitude a) (f32Magnitude b)

/-- `f32_mul(a, b)` for finite operands (00_scope R13; the sign of a zero product, 40_convert R118). -/
def f32Mul (a b : Word) : Word :=
  rne32 (f32Sign a != f32Sign b) (f32Magnitude a * f32Magnitude b) (2 ^ 298)

/-- `i2f32(n)` (00_scope R13). -/
def i2f32 (n : Int) : Word :=
  rne32 (decide (n < 0)) n.natAbs 1

/-- `round_haz(val(q))` of a finite pattern: the nearest integer, a tie away from zero
(00_scope R14). -/
def roundHaz (q : Word) : Int :=
  let r : Nat := (2 * f32Magnitude q + 2 ^ 149) / 2 ^ 150
  if f32Sign q then -(r : Int) else r

end Sys2Proof.Machine
end

