-- ==== Sys2Proof/Machine/Convert.lean ====
section
/-! DEFINITION. The scalar datapath: `QCODE` and `DQVAL` (40_convert R100 to R120). Both are functions
of their operands alone: no state, no mode, no flag (R112, R113, R120). -/

namespace Sys2Proof.Machine

/-- `MAXC = 2^W - 1` (00_scope R8). -/
def maxCode (w : Nat) : Nat :=
  2 ^ w - 1

/-- `G = 8 / W`, the codes of one packed byte (00_scope R8). -/
def groupSize (w : Nat) : Nat :=
  8 / w

/-- `clamp(t, 0, MAXC)` (40_convert R107). -/
def clampCode (t : Int) (w : Nat) : Nat :=
  (min (max t 0) (maxCode w)).toNat

/-- The quotient of 40_convert R103: an infinite sample keeps its infinity, a finite one is divided
in binary32. -/
def quotient (x s : Word) : Word :=
  if f32IsInf x then x else f32Div x s

/-- The code of a quotient (40_convert R104 to R107): an infinite one saturates, a finite one is
rounded away from zero on a tie, offset exactly, then clamped. -/
def codeOfQuotient (q : Word) (zp : Int) (w : Nat) : Nat :=
  if f32IsInf q then (if f32Sign q then 0 else maxCode w)
  else clampCode (roundHaz q + zp) w

/-- `QCODE(x, s, zp, W)` (40_convert R101); `none` is the outcome `NaN` (R102). -/
def qcode (x s : Word) (zp : Int) (w : Nat) : Option Nat :=
  if f32IsNan x then none else some (codeOfQuotient (quotient x s) zp w)

/-- `DQVAL(c, s, zp)` (40_convert R115): an exact difference, one conversion, one product. -/
def dqval (c : Nat) (s : Word) (zp : Int) : Word :=
  f32Mul (i2f32 (c - zp)) s

/-- Write code `c` at slot `k` of a packed byte: `ACC[k*W + W - 1 : k*W] <- c`
(41_quantize R133, R135). -/
def packSlot (acc : Byte) (k w c : Nat) : Byte :=
  (acc &&& ~~~(BitVec.ofNat 8 (maxCode w) <<< (k * w))) ||| (BitVec.ofNat 8 c <<< (k * w))

/-- `UNPACK(b, k, W) = (b >> (k*W)) & MAXC` (42_dequantize R152). -/
def unpackSlot (b : Byte) (k w : Nat) : Nat :=
  ((b >>> (k * w)) &&& BitVec.ofNat 8 (maxCode w)).toNat

end Sys2Proof.Machine
end

