-- ==== Sys2Proof/Machine/Dequantize.lean ====
section
/-! DEFINITION. The dequantize commands (42_dequantize R150 to R162). -/

namespace Sys2Proof.Machine

/-- The loop of a dequantize unit over the slots `ks` of unit `j` whose packed byte is `b`
(42_dequantize R153): each code is unpacked, converted and written; the loop ends at value `L.LEN`,
so unused slots are neither read nor written (R155, R156). Answers the memory the writes made, and
the fault if a write answered a bus error. -/
def unpackSlots (w j : Nat) (b : Byte) (e : Engine) (p : Platform) :
    List Nat → Memory → Memory × Option Trap
  | [], m => (m, none)
  | k :: ks, m =>
    let i := j * groupSize w + k
    if e.len.toNat ≤ i then (m, none)
    else
      let a := e.dst.toNat + 4 * i
      match memWrite4 p m a (dqval (unpackSlot b k w) e.scale (zeroPointOf e.zp)) with
      | none => (m, some ⟨.busError, BitVec.ofNat 32 a⟩)
      | some m' => unpackSlots w j b e p ks m'

/-- The unit step of a dequantize command of width `w` (42_dequantize R153), as one transition; the
engine holds the packed byte `b` within it only (10_state R48). -/
def dequantizeUnit (w : Nat) (s : State) : State :=
  let j := s.engine.idx.toNat
  let a := s.engine.src.toNat + j
  match memRead1 s a with
  | none => raiseFault ⟨.busError, BitVec.ofNat 32 a⟩ s
  | some b =>
    match unpackSlots w j b s.engine s.platform (List.range (groupSize w)) s.mem with
    | (m, some t) => raiseFault t { s with mem := m }
    | (m, none) => endDequantizeUnit { s with mem := m }

/-- `dequantize_uint4` (42_dequantize R157): W = 4. -/
def execDequantizeUint4 (s : State) : Host.Outcome State Fault Refusal :=
  runCommand .dequantizeUint4 (dequantizeUnit 4) s

/-- `dequantize_uint2` (42_dequantize R158): W = 2. -/
def execDequantizeUint2 (s : State) : Host.Outcome State Fault Refusal :=
  runCommand .dequantizeUint2 (dequantizeUnit 2) s

end Sys2Proof.Machine
end

