-- ==== Sys2Proof/Machine/Quantize.lean ====
section
/-! DEFINITION. The quantize commands (41_quantize R130 to R143). -/

namespace Sys2Proof.Machine

/-- The loop of a quantize unit over the slots `ks` of unit `j` (41_quantize R133): each sample is
read, tested, converted and packed; the loop ends at sample `L.LEN`, and unused slots stay 0 (R136).
A fault is answered with its cause: the bus error of a read comes before the NaN test
(60_exceptions R180). -/
def packSlots (w j : Nat) (s : State) : List Nat → Byte → Except Trap Byte
  | [], acc => .ok acc
  | k :: ks, acc =>
    let i := j * groupSize w + k
    if s.engine.len.toNat ≤ i then .ok acc
    else
      let a := s.engine.src.toNat + 4 * i
      match memRead4 s a with
      | none => .error ⟨.busError, BitVec.ofNat 32 a⟩
      | some x =>
        match qcode x s.engine.scale (zeroPointOf s.engine.zp) w with
        | none => .error ⟨.nanSample, BitVec.ofNat 32 i⟩
        | some c => packSlots w j s ks (packSlot acc k w c)

/-- The unit step of a quantize command of width `w` (41_quantize R133), as one transition. `ACC` is 0
at its start and is the loop's byte (10_state R48), which is written whole (R143). -/
def quantizeUnit (w : Nat) (s : State) : State :=
  let j := s.engine.idx.toNat
  match packSlots w j s (List.range (groupSize w)) 0 with
  | .error t => raiseFault t s
  | .ok acc =>
    let a := s.engine.dst.toNat + j
    match memWrite1 s.platform s.mem a acc with
    | none => raiseFault ⟨.busError, BitVec.ofNat 32 a⟩ s
    | some m => endQuantizeUnit { s with mem := m }

/-- `quantize_uint4` (41_quantize R138): W = 4. -/
def execQuantizeUint4 (s : State) : Host.Outcome State Fault Refusal :=
  runCommand .quantizeUint4 (quantizeUnit 4) s

/-- `quantize_uint2` (41_quantize R139): W = 2. -/
def execQuantizeUint2 (s : State) : Host.Outcome State Fault Refusal :=
  runCommand .quantizeUint2 (quantizeUnit 2) s

end Sys2Proof.Machine
end

