-- ==== Sys2Proof/Machine/Dispatch.lean ====
section
/-! DEFINITION. One arm per command. -/

namespace Sys2Proof.Machine

/-- What a command does in a state: its `CMD` write, or its next engine step (`runCommand`). -/
def exec (i : Instr) (s : State) : Host.Outcome State Fault Refusal :=
  match i with
  | .quantizeUint4 => Sys2Proof.Machine.execQuantizeUint4 s
  | .dequantizeUint4 => Sys2Proof.Machine.execDequantizeUint4 s
  | .quantizeUint2 => Sys2Proof.Machine.execQuantizeUint2 s
  | .dequantizeUint2 => Sys2Proof.Machine.execDequantizeUint2 s

end Sys2Proof.Machine
end

