-- ==== Sys2Proof/Machine/HostPort.lean ====
section
/-! DEFINITION. What the outside does: host accesses to the register window and to system memory, races
with a command, the poll loop, reset, and the host notation's listings. -/

namespace Sys2Proof.Machine

/-! ### Races (20_memory R72; log 10) -/

/-- A host access to `[a, a + n)` races with the command of a claim: a write to its source range, or
any access to its destination range. -/
def Claim.races (c : Claim) (kind : AccessKind) (a n : Nat) : Bool :=
  (kind == .write && rangesMeet a n c.src c.nsrc) || rangesMeet a n c.dst c.ndst

/-- The claim after a host access: a race is noted, and a racing write to the source range makes the
engine's later reads of it draws of number `d`. -/
def Claim.noteAccess (d : Nat) (kind : AccessKind) (a n : Nat) (c : Claim) : Claim :=
  { c with
    raced := c.raced || c.races kind a n
    srcDraw := if kind == .write && rangesMeet a n c.src c.nsrc then some d else c.srcDraw }

/-- The claims whose command has ended: all but the current one while the engine is busy. -/
def endedClaims (s : State) : List Claim :=
  if s.regs.busy then s.port.unobserved else s.port.claims

/-- The destination ranges of the ended commands that the access races with take any value. -/
def drawEnded (d : Nat) (kind : AccessKind) (a n : Nat) : List Claim → Memory → Memory
  | [], m => m
  | c :: cs, m =>
    drawEnded d kind a n cs (if c.races kind a n then m.drawRange d c.dst c.ndst else m)

/-- Note a host access to system memory: the ended commands it races with lose their results at once,
the running one loses them when it ends (`completeCommand`, `raiseFault`). Two draw numbers are used:
one for memory, one for the engine's later reads. -/
def noteHostAccess (kind : AccessKind) (a n : Nat) (s : State) : State :=
  if s.port.claims.any (·.races kind a n) then
    { s with
      mem := drawEnded s.port.draws kind a n (endedClaims s) s.mem
      port.current := s.port.current.map (Claim.noteAccess (s.port.draws + 1) kind a n)
      port.unobserved := s.port.unobserved.map (Claim.noteAccess (s.port.draws + 1) kind a n)
      port.draws := s.port.draws + 2 }
  else s

/-! ### Host accesses to the register window (10_state R20 to R23) -/

/-- The register an address of the window names (10_state R20). -/
def registerAt (p : Platform) (addr : Word) : Register :=
  Register.ofOffset (addr.toNat - p.base)

/-- `STATUS` shows the end of the command accepted last by an execution fault: a fault of cause 8 or 9
(60_exceptions R175), not one of a later `CMD` write that failed validation. -/
def showsExecutionFault (r : Regs) : Bool :=
  r.fault && (r.cause == causeCode .nanSample || r.cause == causeCode .busError)

/-- What a host has observed when it has read `STATUS` (20_memory R71, R72; log 10). `DONE = 1` comes
after the completion of the command accepted last and of those before it (item 3; 95_test_vectors
PRG5), an execution fault shows the end of the command accepted last alone (item 4), and any other
value shows no end. -/
def observeStatus (s : State) : State :=
  { s with
    port.current := if s.regs.done || showsExecutionFault s.regs then none else s.port.current
    port.unobserved := if s.regs.done then [] else s.port.unobserved }

/-- A host read of a register: the value is answered and the block's state is unchanged
(10_state R23). A read of `STATUS` is how a host observes the end of its commands (20_memory R71). -/
def hostReadRegister (reg : Register) (s : State) : State :=
  let t := if reg = .status then observeStatus s else s
  { t with port.replies := (readRegister s.regs reg).setWidth 64 :: s.port.replies }

/-- A host write to a register: a write to `CMD` is a command (10_state R24), any other changes only
the state its rule names (R23). -/
def hostWriteRegister (reg : Register) (w : Word) (s : State) : State :=
  if reg = .cmd then commandWrite w s else { s with regs := writeRegister w s.regs reg }

/-! ### Host accesses to system memory (20_memory R50, R59)

DESIGN CHOICE (log 23): a host's load of 2, 4 or 8 bytes and its store of 2 or 8 bytes is little-endian;
the spec gives that order for the 4-byte store `MEM32` only (30_encoding R88). -/

/-- The value a host load answers: the bytes in memory, the byte at the lowest address as its low byte
(DESIGN CHOICE, log 23); any value when the load races (20_memory R72). -/
def hostLoadValue (a n : Nat) (s : State) : BitVec 64 :=
  if s.port.claims.any (·.races .read a n) then
    BitVec.ofNat 64 (littleEndianValue ((List.range n).map (fun k => Config.drawByte (s.port.draws + 2) (a + k))))
  else BitVec.ofNat 64 (littleEndianValue (s.mem.readBytes a n))

/-- A host load from system memory. -/
def hostLoadMemory (a n : Nat) (s : State) : State :=
  let t := noteHostAccess .read a n s
  { t with
    port.replies := hostLoadValue a n s :: t.port.replies
    port.draws := if s.port.claims.any (·.races .read a n) then t.port.draws + 1 else t.port.draws }

/-- A host store to system memory, low byte at the lowest address: a 4-byte store as 30_encoding R88
gives it for `MEM32`, the other sizes by DESIGN CHOICE (log 23). -/
def hostStoreMemory (a n : Nat) (v : BitVec 64) (s : State) : State :=
  noteHostAccess .write a n { s with mem := s.mem.writeBytes a (littleEndianBytes n v) }

/-! ### A host access, by its address -/

/-- The access is a legal register access (10_state R21). -/
def registerAccessLegal (addr : Word) (size : Size) : Bool :=
  decide (size.wellFormedAt addr)

/-- A host read of `size` bytes at `addr`: a register read inside the window (refused by name when it
is not an aligned 32-bit access, 10_state R21), a load elsewhere. -/
def hostLoad (addr : Word) (size : Size) (s : State) : Host.Outcome State Fault Refusal :=
  if touchesWindow s.platform addr.toNat size.bytes then
    if registerAccessLegal addr size then .next (hostReadRegister (registerAt s.platform addr) s)
    else .refused (.registerAccessForm addr size)
  else if addr.toNat + size.bytes ≤ Config.memoryBytes then .next (hostLoadMemory addr.toNat size.bytes s)
  else .fault (.hostAccessOutsideMemory addr)

/-- A host write of `size` bytes at `addr`, as `hostLoad`. -/
def hostStore (addr : Word) (size : Size) (data : BitVec 64) (s : State) :
    Host.Outcome State Fault Refusal :=
  if touchesWindow s.platform addr.toNat size.bytes then
    if registerAccessLegal addr size then
      .next (hostWriteRegister (registerAt s.platform addr) (data.setWidth 32) s)
    else .refused (.registerAccessForm addr size)
  else if addr.toNat + size.bytes ≤ Config.memoryBytes then
    .next (hostStoreMemory addr.toNat size.bytes data s)
  else .fault (.hostAccessOutsideMemory addr)

/-! ### Reset -/

/-- The reset input (70_reset R210, R211): every register and hidden state takes its reset value in
one step; of memory only the destination range of a command it abandons takes any value. The
platform and the surroundings stay. No host has observed the end of a command by it, so every claim
stays open (20_memory R72; log 11). -/
def resetBlock (s : State) : State :=
  let s := if s.regs.busy then drawDestination s else s
  { s with
    regs := .reset
    engine := .reset
    port.current := none
    port.unobserved := s.port.claims }

/-! ### The poll loop -/

/-- One turn of `pqc.wait` (30_encoding R90): read `STATUS`; while `BUSY` is 1 loop, and let the engine
have a turn first (70_reset R224: fairness; log 21). -/
def pollStatus (s : State) : State :=
  let t := consumeInput (hostReadRegister .status s)
  if s.regs.busy then { t with port.inputs := .engine :: .poll :: t.port.inputs } else t

/-! ### What happens next -/

/-- What the next step does: run a command (its `CMD` write, or a step of the engine), or something
that is settled without one. -/
inductive NextAction where
  | command (i : Instr)
  | settled (o : Host.Outcome State Fault Refusal)

/-- The input just handled leaves the queue, when the machine goes on. -/
def consumeAfter : Host.Outcome State Fault Refusal → Host.Outcome State Fault Refusal
  | .next s => .next (consumeInput s)
  | .fault r => .fault r
  | .refused r => .refused r

/-- A turn of the engine: a step of the running command; while `BUSY` is 0 the block takes no step
(60_exceptions R195, 70_reset R212). -/
def engineAction (s : State) : NextAction :=
  if s.regs.busy then
    match decodeWord (latchedWord s.engine) with
    | .command i => .command i
    | .illegal _ => .settled (.fault .noEnabledStep)
  else .settled (.next (consumeInput s))

/-- The host write is the write of a command word to `CMD` (10_state R24, 30_encoding R80). -/
def isCommandWrite (s : State) (addr : Word) (size : Size) : Bool :=
  decide (addr.toNat = s.platform.base) && registerAccessLegal addr size

/-- A host write: a legal command word to `CMD` runs its command, anything else is settled by the port
(an illegal command word by `commandWrite`: rejected, or `ILLEGAL_CMD`). -/
def storeAction (addr : Word) (size : Size) (data : BitVec 64) (s : State) : NextAction :=
  if isCommandWrite s addr size then
    match decodeWord (data.setWidth 32) with
    | .command i => .command i
    | .illegal _ => .settled (consumeAfter (hostStore addr size data s))
  else .settled (consumeAfter (hostStore addr size data s))

/-- What the next step does: the oldest input is handled; with none, the engine has the turn. -/
def nextAction (s : State) : NextAction :=
  match s.port.inputs with
  | [] => engineAction s
  | .engine :: _ => engineAction s
  | .load addr size :: _ => .settled (consumeAfter (hostLoad addr size s))
  | .store addr size data :: _ => storeAction addr size data s
  | .poll :: _ => .settled (.next (pollStatus s))
  | .reset :: _ => .settled (.next (consumeInput (resetBlock s)))

/-! ### Listings of the host notation (30_encoding R88 to R92) -/

/-- `WR REG, imm32`: a 4-byte write at `PQC_BASE + offset(REG)`. -/
def wr (p : Platform) (reg : Register) (w : Word) : Input :=
  .store (BitVec.ofNat 32 (p.base + reg.offset)) .word (w.setWidth 64)

/-- `RD tN, REG`: a 4-byte read at `PQC_BASE + offset(REG)`. -/
def rd (p : Platform) (reg : Register) : Input :=
  .load (BitVec.ofNat 32 (p.base + reg.offset)) .word

/-- `MEM32 addr, imm32`: a host store of a 32-bit little-endian word. -/
def mem32 (addr w : Word) : Input :=
  .store addr .word (w.setWidth 64)

/-- `<op> dst, dstcap, src, srccap, len, scale, zp` (30_encoding R89): eight register writes, `CMD`
last. -/
def commandListing (p : Platform) (i : Instr) (dst dstcap src srccap len scale zp : Word) : List Input :=
  [wr p .srcAddr src, wr p .dstAddr dst, wr p .len len, wr p .scale scale, wr p .zeroPoint zp,
    wr p .srcCap srccap, wr p .dstCap dstcap, wr p .cmd (encode i)]

/-- `pqc.clear` (30_encoding R91). -/
def clearListing (p : Platform) : List Input :=
  [wr p .status 0x0000000E]

/-- A command word of `nbits` bits, offered to the block as the next host write to `CMD`. -/
def offerCommand (s : State) (nbits w : Nat) : State :=
  { s with port.inputs := wr s.platform .cmd (BitVec.ofNat 32 (w % 2 ^ nbits)) :: s.port.inputs }

end Sys2Proof.Machine
end

