-- ==== Sys2Proof/Machine/Step.lean ====
section
/-! DEFINITION. One step of the machine: the oldest input is handled, or the engine has its turn
(log 2). -/

namespace Sys2Proof.Machine

/-- One step: `exec` of the command when the next action is a command's, else what is settled. -/
def step (s : State) : Host.Outcome State Fault Refusal :=
  match nextAction s with
  | .command i => exec i s
  | .settled o => o

/-- The host write of this command word to `CMD` is the very next input (log 17). -/
def State.withFetchWord (s : State) (nbits w : Nat) : State :=
  offerCommand s nbits w

end Sys2Proof.Machine
end

