-- ==== Sys2Proof/Safety.lean ====
section
/-! DEFINITION. The terms in which claims are stated: what a sound state is, what a command's parameters
must be, where its samples, codes and values lie, and what a correctly rounded binary32 result is. -/

namespace Sys2Proof.Machine

/-! ### The commands, as the table of 30_encoding R82 gives them -/

/-- Bits per code of a command (30_encoding R82, column WIDTH). -/
def instrWidth : Instr → Nat
  | .quantizeUint4 => 4
  | .dequantizeUint4 => 4
  | .quantizeUint2 => 2
  | .dequantizeUint2 => 2

/-- Direction of a command (30_encoding R82, column DIR): 0 quantize, 1 dequantize. -/
def instrDir : Instr → BitVec 1
  | .quantizeUint4 => 0
  | .dequantizeUint4 => 1
  | .quantizeUint2 => 0
  | .dequantizeUint2 => 1

/-- The engine is running command `i` and has the turn. -/
abbrev EngineRuns (i : Instr) (s : State) : Prop :=
  engineTurn s = true ∧ s.regs.busy = true ∧ s.engine.dir = instrDir i ∧
    s.engine.width.toNat = instrWidth i

/-- The oldest input is the host's write of the word `c` to `CMD`: a 4-byte write at `PQC_BASE`. -/
def CommandArrives (c : Word) (s : State) : Prop :=
  ∃ addr data rest, s.port.inputs = Input.store addr .word data :: rest ∧
    addr.toNat = s.platform.base ∧ data.setWidth 32 = c

/-- The parameters of command `i` pass checks 2 to 7 (60_exceptions R172). -/
abbrev ParametersPass (i : Instr) (r : Regs) : Prop :=
  let g := 8 / instrWidth i
  let packed := (r.len.toNat + g - 1) / g
  let nsrc := if instrDir i = 0 then 4 * r.len.toNat else packed
  let ndst := if instrDir i = 0 then packed else 4 * r.len.toNat
  r.srcAddr ≠ 0 ∧ r.dstAddr ≠ 0 ∧
  (1 ≤ r.scale.toNat ∧ r.scale.toNat ≤ 0x7F7FFFFF) ∧
  (if instrDir i = 0 then r.srcAddr.toNat else r.dstAddr.toNat) % 4 = 0 ∧
  (r.srcAddr.toNat + nsrc ≤ 2 ^ 32 ∧ r.dstAddr.toNat + ndst ≤ 2 ^ 32) ∧
  (nsrc ≤ r.srcCap.toNat ∧ ndst ≤ r.dstCap.toNat) ∧
  (nsrc = 0 ∨ ndst = 0 ∨ r.dstAddr.toNat + ndst ≤ r.srcAddr.toNat ∨
    r.srcAddr.toNat + nsrc ≤ r.dstAddr.toNat)

/-! ### The buffers of the running command -/

/-- Sample `i` of the source buffer as the engine reads it: the little-endian word at `L.SRC + 4*i`
(41_quantize R138). Without a race `engineByte` is the byte in memory. -/
def sampleAt (s : State) (i : Nat) : Word :=
  let a := s.engine.src.toNat + 4 * i
  engineByte s (a + 3) ++ engineByte s (a + 2) ++ engineByte s (a + 1) ++ engineByte s a

/-- The code of sample `i` (41_quantize R138), 0 for a NaN, which has none. -/
def codeAt (w : Nat) (s : State) (i : Nat) : Nat :=
  (qcode (sampleAt s i) s.engine.scale s.engine.zp.toInt w).getD 0

/-- The packed byte of unit `j` (41_quantize R135, R136): the sum over `k` of `code * 2^(w*k)`, over
the samples `j*G + k` below `len`. -/
def packedByteAt (w : Nat) (s : State) (j : Nat) : Byte :=
  BitVec.ofNat 8 (((List.range (8 / w)).map fun k =>
    if j * (8 / w) + k < s.engine.len.toNat then codeAt w s (j * (8 / w) + k) * 2 ^ (w * k) else 0).sum)

/-- The value the dequantize command of width `w` writes at index `i` (42_dequantize R157, R158): the
`DQVAL` of slot `i mod G` of the packed byte `i div G`. -/
def valueAt (w : Nat) (s : State) (i : Nat) : Word :=
  dqval ((engineByte s (s.engine.src.toNat + i / (8 / w))).toNat / 2 ^ (w * (i % (8 / w))) % 2 ^ w)
    s.engine.scale s.engine.zp.toInt

/-- The read of sample `i` answers no bus error. -/
abbrev SampleAnswers (s : State) (i : Nat) : Prop :=
  busError s.platform (s.engine.src.toNat + 4 * i) 4 .read = false

/-- Sample `i` can be read and is not a NaN. -/
abbrev SampleReadable (s : State) (i : Nat) : Prop :=
  SampleAnswers s i ∧ f32IsNan (sampleAt s i) = false

/-- No host access has raced with the running command (20_memory R72). -/
abbrev RaceFree (s : State) : Prop :=
  commandRaced s = false ∧ sourceDraw s = none

/-- The address lies in the destination range of the running command (20_memory R61). -/
abbrev InDestination (s : State) (a : Nat) : Prop :=
  s.engine.dst.toNat ≤ a ∧ a < s.engine.dst.toNat + s.engine.ndst.toNat

/-- The registers after a fault of this cause and information (60_exceptions R178). -/
def faultedRegs (r : Regs) (cause : BitVec 4) (info : Word) : Regs :=
  { r with busy := false, done := false, fault := true, cause := cause, faultInfo := info }

/-- `t` is `s` after an execution fault (60_exceptions R178, 20_memory R56): the registers record it,
every byte of the destination range takes any value (a draw), every other byte is unchanged, and the
hidden state takes any value (93_implementation_defined U30; log 15), so it records no progress. -/
def FaultedInExecution (s t : State) (cause : BitVec 4) (info : Word) : Prop :=
  t.regs = faultedRegs s.regs cause info ∧
  (∃ d, ∀ a, InDestination s a → a < 2 ^ 32 → t.mem.readByte a = Config.drawByte d a) ∧
  (∀ a, ¬ InDestination s a → t.mem.readByte a = s.mem.readByte a) ∧
  (∃ d, t.engine = Engine.drawn d) ∧ t.platform = s.platform ∧
  t.port.inputs = s.port.inputs.tail ∧ t.port.current = s.port.current ∧
  t.port.unobserved = s.port.unobserved

/-- The parameter registers of `q` beside the status and enables of `r`. -/
def withParameters (r q : Regs) : Regs :=
  { r with srcAddr := q.srcAddr, dstAddr := q.dstAddr, len := q.len, scale := q.scale,
           zeroPoint := q.zeroPoint, srcCap := q.srcCap, dstCap := q.dstCap }

/-! ### Sound states -/

/-- The relations among the status bits that hold in every reachable state (10_state R32). -/
abbrev Regs.Consistent (r : Regs) : Prop :=
  (r.busy = true → r.done = false ∧ r.fault = false) ∧
  ¬ (r.done = true ∧ r.fault = true) ∧
  (r.fault = false → r.cause = 0 ∧ r.faultInfo = 0) ∧
  (r.fault = true → 1 ≤ r.cause.toNat ∧ r.cause.toNat ≤ 9)

/-- What a latched command is while it runs: one of the four, its parameters validated, its progress
within its units (10_state R35, R44; 60_exceptions R172). -/
abbrev Engine.Running (e : Engine) : Prop :=
  (e.width = 2 ∨ e.width = 4) ∧
  e.nsrc.toNat = srcBytes e.dir e.width.toNat e.len.toNat ∧
  e.ndst.toNat = dstBytes e.dir e.width.toNat e.len.toNat ∧
  e.src ≠ 0 ∧ e.dst ≠ 0 ∧ scaleLegal e.scale = true ∧
  (if e.dir = 0 then e.src.toNat else e.dst.toNat) % 4 = 0 ∧
  e.src.toNat + e.nsrc.toNat ≤ 2 ^ 32 ∧ e.dst.toNat + e.ndst.toNat ≤ 2 ^ 32 ∧
  rangesMeet e.src.toNat e.nsrc.toNat e.dst.toNat e.ndst.toNat = false ∧
  e.idx.toNat ≤ unitCount e

/-- The current claim is the running command's. -/
def State.ClaimOfRunning (s : State) : Prop :=
  ∃ c, s.port.current = some c ∧ c.src = s.engine.src.toNat ∧ c.nsrc = s.engine.nsrc.toNat ∧
    c.dst = s.engine.dst.toNat ∧ c.ndst = s.engine.ndst.toNat

/-- A sound state: the status bits are consistent, memory is canonical, and a running command is a
validated one. -/
def State.Inv (s : State) : Prop :=
  s.regs.Consistent ∧ s.mem.wf ∧ (s.regs.busy = true → s.engine.Running ∧ s.ClaimOfRunning)

/-! ### Correct rounding (00_scope R13) -/

/-- From this magnitude on, `rne32` overflows to an infinity: `(2^24 - 1/2) * 2^104`. -/
def f32Overflow : ℚ :=
  (2 ^ 24 - 1 / 2) * 2 ^ 104

/-- The order of the non-NaN patterns by value, the infinities at the ends (00_scope R12). -/
def f32Le (x y : Word) : Prop :=
  x = 0xFF800000 ∨ y = 0x7F800000 ∨
    (f32IsFinite x = true ∧ f32IsFinite y = true ∧ f32Value x ≤ f32Value y)

/-- `b` is `rne32(t)` (00_scope R13): below the overflow threshold a finite pattern nearest `t`, one
with an even fraction when another value is as near; from the threshold on the infinity of `t`'s
sign. -/
def IsNearestEven (t : ℚ) (b : Word) : Prop :=
  if |t| < f32Overflow then
    f32IsFinite b = true ∧
    ∀ p, f32IsFinite p = true →
      |f32Value b - t| ≤ |f32Value p - t| ∧
      (|f32Value p - t| = |f32Value b - t| → f32Value p ≠ f32Value b → b.getLsbD 0 = false)
  else b = if 0 < t then 0x7F800000 else 0xFF800000

end Sys2Proof.Machine
end

