-- ==== Sys2Proof/Certificates/Slice0/Obligations.lean ====
section
/-! DEFINITION. The statements for the provers. Each docstring names the rule of spec/ it formalises, or
the log entry of the model's choice it rests on. -/

open Sys2Proof Sys2Proof.Machine

/-! ### Encoding -/

/-- The four command words of 30_encoding R82, written out, decode to their commands. -/
def Obligations.CommandWordsDecode : Prop :=
  decodeWord 0x00000040 = .command .quantizeUint4 ∧
  decodeWord 0x00000041 = .command .dequantizeUint4 ∧
  decodeWord 0x00000020 = .command .quantizeUint2 ∧
  decodeWord 0x00000021 = .command .dequantizeUint2

/-- Decoding what was encoded gives the command back (30_encoding R82). -/
def Obligations.DecodeOfEncode : Prop :=
  ∀ i : Instr, i.wellFormed →
    decodeWord (encode i) = .command i ∧ decodeTableWord 32 (encode i).toNat = some i

/-- Of all 2^32 words exactly the four of 30_encoding R82 decode to a command, each selected by the
full word. -/
def Obligations.DecodeAcceptsExactlyFourWords : Prop :=
  ∀ (c : Word) (i : Instr), decodeWord c = .command i ↔
    (c = 0x00000040 ∧ i = .quantizeUint4) ∨ (c = 0x00000041 ∧ i = .dequantizeUint4) ∨
    (c = 0x00000020 ∧ i = .quantizeUint2) ∨ (c = 0x00000021 ∧ i = .dequantizeUint2)

/-- A command word and its fields (30_encoding R81) determine each other: no bit is dropped. -/
def Obligations.CommandFieldsRoundTrip : Prop :=
  (∀ c : Word, (CmdFields.ofWord c).toWord = c) ∧ (∀ f : CmdFields, CmdFields.ofWord f.toWord = f)

/-- Codes packed low to high into a byte (41_quantize R135) unpack to the same codes, and the unused
slots unpack to 0 (R136): the code round trip of 42_dequantize R160 for one byte. -/
def Obligations.PackThenUnpackGivesCodes : Prop :=
  ∀ (w : Nat) (cs : List Nat), w = 2 ∨ w = 4 → cs.length ≤ 8 / w → (∀ c ∈ cs, c ≤ 2 ^ w - 1) →
    let b := (cs.zipIdx).foldl (fun acc ck => packSlot acc ck.2 w ck.1) 0
    ∀ k, k < 8 / w → unpackSlot b k w = cs.getD k 0

/-! ### A step runs the decoded command -/

/-- When the host's write of a legal word to `CMD` is the oldest input, step is exec of the command it
decodes to; when it is the engine's turn, step is exec of the running command. The host write of a
table word that `withFetchWord` places is such an input. -/
def Obligations.StepRunsDecodedCommand : Prop :=
  (∀ (s : State) (c : Word) (i : Instr), CommandArrives c s → decodeWord c = .command i →
    step s = exec i s) ∧
  (∀ (s : State) (i : Instr), EngineRuns i s → step s = exec i s) ∧
  (∀ (s : State) (i : Instr), CommandArrives (encode i) (s.withFetchWord 32 (encode i).toNat))

/-! ### The CMD write -/

/-- 60_exceptions R170: a write of any word to `CMD` while busy or faulted sets `REJ` and changes
nothing else. -/
def Obligations.CommandWriteRejectedWhileBusyOrFaulted : Prop :=
  ∀ (s : State) (c : Word), CommandArrives c s → s.regs.busy = true ∨ s.regs.fault = true →
    step s = .next { consumeInput s with regs.rej := true }

/-- 30_encoding R83: every word but the four faults `ILLEGAL_CMD` with the word as information, and
no memory is accessed. -/
def Obligations.IllegalWordFaults : Prop :=
  ∀ (s : State) (c : Word), CommandArrives c s → s.regs.busy = false → s.regs.fault = false →
    c ≠ 0x00000040 → c ≠ 0x00000041 → c ≠ 0x00000020 → c ≠ 0x00000021 →
    step s = .next { consumeInput s with regs := faultedRegs s.regs 1 c }

/-- 60_exceptions R172: the `CMD` write of a legal word reports the first check that fails, in the order
2 to 7, with information 0 and memory unchanged; if none fails, no fault is recorded. -/
def Obligations.ValidationReportsFirstFailure : Prop :=
  ∀ (s : State) (i : Instr), s.regs.busy = false → s.regs.fault = false →
    let r := s.regs
    let g := 8 / instrWidth i
    let packed := (r.len.toNat + g - 1) / g
    let nsrc := if instrDir i = 0 then 4 * r.len.toNat else packed
    let ndst := if instrDir i = 0 then packed else 4 * r.len.toNat
    let src := r.srcAddr.toNat
    let dst := r.dstAddr.toNat
    let null := src = 0 ∨ dst = 0
    let badScale := ¬ (0x00000001 ≤ r.scale.toNat ∧ r.scale.toNat ≤ 0x7F7FFFFF)
    let misaligned := (if instrDir i = 0 then src else dst) % 4 ≠ 0
    let wraps := src + nsrc > 2 ^ 32 ∨ dst + ndst > 2 ^ 32
    let small := nsrc > r.srcCap.toNat ∨ ndst > r.dstCap.toNat
    let overlap := nsrc > 0 ∧ ndst > 0 ∧ src < dst + ndst ∧ dst < src + nsrc
    let faults := fun n : BitVec 4 => exec i s = .next { consumeInput s with regs := faultedRegs r n 0 }
    (null → faults 2) ∧
    (¬ null → badScale → faults 3) ∧
    (¬ null → ¬ badScale → misaligned → faults 4) ∧
    (¬ null → ¬ badScale → ¬ misaligned → wraps → faults 5) ∧
    (¬ null → ¬ badScale → ¬ misaligned → ¬ wraps → small → faults 6) ∧
    (¬ null → ¬ badScale → ¬ misaligned → ¬ wraps → ¬ small → overlap → faults 7) ∧
    (¬ null → ¬ badScale → ¬ misaligned → ¬ wraps → ¬ small → ¬ overlap →
      ∃ t, exec i s = .next t ∧ t.regs.fault = false ∧ t.regs.busy = true)

/-- 60_exceptions R172: `VALIDATE(c)` on the registers as unsigned integers, with exact sums: the first of
the seven checks that fails, with its information, or none. -/
def Obligations.ValidateAppliesChecksInOrder : Prop :=
  ∀ (c : Word) (r : Regs),
    let src := r.srcAddr.toNat
    let dst := r.dstAddr.toNat
    let quantize := c.getLsbD 0 = false
    let w := c.toNat / 2 ^ 4 % 2 ^ 4
    let g := 8 / w
    let packed := (r.len.toNat + g - 1) / g
    let nsrc := if quantize then 4 * r.len.toNat else packed
    let ndst := if quantize then packed else 4 * r.len.toNat
    validate c r =
      if c ≠ 0x40 ∧ c ≠ 0x41 ∧ c ≠ 0x20 ∧ c ≠ 0x21 then some ⟨.illegalCmd, c⟩
      else if src = 0 ∨ dst = 0 then some ⟨.nullPtr, 0⟩
      else if ¬ (0x00000001 ≤ r.scale.toNat ∧ r.scale.toNat ≤ 0x7F7FFFFF) then some ⟨.badScale, 0⟩
      else if (if quantize then src else dst) % 4 ≠ 0 then some ⟨.misaligned, 0⟩
      else if src + nsrc > 2 ^ 32 ∨ dst + ndst > 2 ^ 32 then some ⟨.addrWrap, 0⟩
      else if nsrc > r.srcCap.toNat ∨ ndst > r.dstCap.toNat then some ⟨.bufTooSmall, 0⟩
      else if nsrc > 0 ∧ ndst > 0 ∧ src < dst + ndst ∧ dst < src + nsrc then some ⟨.overlap, 0⟩
      else none

/-- 60_exceptions R171, the accept: every one of the four commands whose parameters pass latches them,
sets `IDX` to 0 and `BUSY` to 1, clears `DONE`, and changes no memory and no other register. (The new
claim is the model's own, log 10.) -/
def Obligations.AcceptLatchesParameters : Prop :=
  ∀ (s : State) (i : Instr), s.regs.busy = false → s.regs.fault = false → ParametersPass i s.regs →
    let r := s.regs
    let g := 8 / instrWidth i
    let packed := (r.len.toNat + g - 1) / g
    ∃ claim, exec i s = .next
      { consumeInput s with
        regs := { r with done := false, busy := true }
        engine := { s.engine with
          dir := instrDir i
          width := BitVec.ofNat 3 (instrWidth i)
          src := r.srcAddr
          dst := r.dstAddr
          len := r.len
          scale := r.scale
          zp := r.zeroPoint
          nsrc := BitVec.ofNat 33 (if instrDir i = 0 then 4 * r.len.toNat else packed)
          ndst := BitVec.ofNat 33 (if instrDir i = 0 then packed else 4 * r.len.toNat)
          idx := 0 }
        port.current := some claim
        port.unobserved := s.port.claims }

/-- 70_reset R215: each of the four commands written to the block right after reset faults `NULL_PTR`,
so `STATUS` reads 0x00000204. -/
def Obligations.UnprogrammedCommandFaultsNull : Prop :=
  ∀ i : Instr, ∃ t, step (State.reset.withFetchWord 32 (encode i).toNat) = .next t ∧
    statusWord t.regs = 0x00000204 ∧ t.regs.faultInfo = 0 ∧ t.mem = State.reset.mem

/-! ### The quantize commands -/

/-- 41_quantize R133, R135, R136, R143: the unit step of both quantize commands. It writes the one
packed byte of unit `IDX` at `L.DST + IDX`, whole, advances `IDX`, and changes no other byte and no
register. `ACC` does not survive the unit step (10_state R48): that it takes any value, a draw that
advances the draw counter, is the model's form of it (logs 5 and 15). -/
def Obligations.QuantizeUnitWritesPackedByte : Prop :=
  ∀ (s : State) (i : Instr), i = .quantizeUint4 ∨ i = .quantizeUint2 → EngineRuns i s →
    s.mem.wf → s.engine.idx.toNat < s.engine.ndst.toNat →
    let w := instrWidth i
    let j := s.engine.idx.toNat
    let a := s.engine.dst.toNat + j
    (∀ k, k < 8 / w → j * (8 / w) + k < s.engine.len.toNat → SampleReadable s (j * (8 / w) + k)) →
    busError s.platform a 1 .write = false →
    ∃ t, exec i s = .next t ∧
      t.mem.readByte a = packedByteAt w s j ∧
      (∀ a', a' ≠ a → t.mem.readByte a' = s.mem.readByte a') ∧
      t.regs = s.regs ∧ t.platform = s.platform ∧
      t.port = { (consumeInput s).port with draws := s.port.draws + 1 } ∧
      t.engine = { s.engine with
        acc := (Engine.drawn s.port.draws).acc, idx := s.engine.idx + 1 }

/-- 41_quantize R138 and R139: the packed byte of unit `j` is `c[2j] + 16 c[2j+1]` for W = 4 and
`c[4j] + 4 c[4j+1] + 16 c[4j+2] + 64 c[4j+3]` for W = 2, where a sample at or past `len` counts 0. -/
def Obligations.PackedByteIsWeightedSumOfCodes : Prop :=
  ∀ (s : State) (j : Nat),
    (packedByteAt 4 s j).toNat =
      (if 2 * j < s.engine.len.toNat then codeAt 4 s (2 * j) else 0) +
      16 * (if 2 * j + 1 < s.engine.len.toNat then codeAt 4 s (2 * j + 1) else 0) ∧
    (packedByteAt 2 s j).toNat =
      (if 4 * j < s.engine.len.toNat then codeAt 2 s (4 * j) else 0) +
      4 * (if 4 * j + 1 < s.engine.len.toNat then codeAt 2 s (4 * j + 1) else 0) +
      16 * (if 4 * j + 2 < s.engine.len.toNat then codeAt 2 s (4 * j + 2) else 0) +
      64 * (if 4 * j + 3 < s.engine.len.toNat then codeAt 2 s (4 * j + 3) else 0)

/-- 40_convert R102, 41_quantize R133, 60_exceptions R178: a unit whose first bad sample, in access
order, is a NaN faults `NAN_SAMPLE` with the sample's index; the destination range takes any value and
no other byte changes. -/
def Obligations.QuantizeFaultsOnNanSample : Prop :=
  ∀ (s : State) (i : Instr) (k : Nat), i = .quantizeUint4 ∨ i = .quantizeUint2 → EngineRuns i s →
    s.mem.wf → s.engine.idx.toNat < s.engine.ndst.toNat →
    let g := 8 / instrWidth i
    let n := s.engine.idx.toNat * g + k
    k < g → n < s.engine.len.toNat →
    (∀ k', k' < k → SampleReadable s (s.engine.idx.toNat * g + k')) →
    SampleAnswers s n → f32IsNan (sampleAt s n) = true →
    ∃ t, exec i s = .next t ∧ FaultedInExecution s t 8 (BitVec.ofNat 32 n)

/-- 20_memory R56, 60_exceptions R178, R180: a sample read that answers a bus error, or the write of
the packed byte that does, faults `BUS_ERROR` with the access's address, whatever the sample holds. -/
def Obligations.QuantizeFaultsOnBusError : Prop :=
  ∀ (s : State) (i : Instr), i = .quantizeUint4 ∨ i = .quantizeUint2 → EngineRuns i s →
    s.mem.wf → s.engine.idx.toNat < s.engine.ndst.toNat →
    let g := 8 / instrWidth i
    let j := s.engine.idx.toNat
    (∀ k, k < g → j * g + k < s.engine.len.toNat →
      (∀ k', k' < k → SampleReadable s (j * g + k')) → ¬ SampleAnswers s (j * g + k) →
      ∃ t, exec i s = .next t ∧
        FaultedInExecution s t 9 (BitVec.ofNat 32 (s.engine.src.toNat + 4 * (j * g + k)))) ∧
    ((∀ k, k < g → j * g + k < s.engine.len.toNat → SampleReadable s (j * g + k)) →
      busError s.platform (s.engine.dst.toNat + j) 1 .write = true →
      ∃ t, exec i s = .next t ∧
        FaultedInExecution s t 9 (BitVec.ofNat 32 (s.engine.dst.toNat + j)))

/-- 41_quantize R137 to R139, R134: a quantize command that has just been accepted, whose samples are no
NaN and whose accesses answer no bus error, ends after `NDST` unit steps and the completion step with
`DONE` and exactly the packed bytes of its samples in the destination. No host transaction is handled
while it runs (the queue of inputs is empty, log 2), and none has raced with it before. -/
def Obligations.QuantizeCommandPacksAllSamples : Prop :=
  ∀ (s : State) (i : Instr), i = .quantizeUint4 ∨ i = .quantizeUint2 → EngineRuns i s → s.Inv →
    s.port.inputs = [] → s.engine.idx = 0 → RaceFree s →
    (∀ n, n < s.engine.len.toNat → SampleReadable s n) →
    (∀ j, j < s.engine.ndst.toNat → busError s.platform (s.engine.dst.toNat + j) 1 .write = false) →
    ∃ t, Host.Core.run Sys2Proof.core (s.engine.ndst.toNat + 1) s = .next t ∧
      t.regs = { s.regs with busy := false, done := true } ∧
      (∀ j, j < s.engine.ndst.toNat →
        t.mem.readByte (s.engine.dst.toNat + j) = packedByteAt (instrWidth i) s j) ∧
      (∀ a, ¬ InDestination s a → t.mem.readByte a = s.mem.readByte a)

/-! ### The dequantize commands -/

/-- 42_dequantize R153, R155, R156: the unit step of both dequantize commands. It writes the
little-endian value of each valid slot of packed byte `IDX`, advances `IDX`, and changes no other byte
and no register. The packed byte it holds does not survive the unit step (10_state R48): that it takes
any value, a draw that advances the draw counter, is the model's form of it (logs 5 and 15). -/
def Obligations.DequantizeUnitWritesValues : Prop :=
  ∀ (s : State) (i : Instr), i = .dequantizeUint4 ∨ i = .dequantizeUint2 → EngineRuns i s →
    s.mem.wf → s.engine.idx.toNat < s.engine.nsrc.toNat →
    let w := instrWidth i
    let j := s.engine.idx.toNat
    let slot := fun k => s.engine.dst.toNat + 4 * (j * (8 / w) + k)
    let valid := fun k => k < 8 / w ∧ j * (8 / w) + k < s.engine.len.toNat
    busError s.platform (s.engine.src.toNat + j) 1 .read = false →
    (∀ k, valid k → busError s.platform (slot k) 4 .write = false) →
    ∃ t, exec i s = .next t ∧
      (∀ k, valid k → ∀ b, b < 4 →
        t.mem.readByte (slot k + b) = (valueAt w s (j * (8 / w) + k)).extractLsb' (8 * b) 8) ∧
      (∀ a, (∀ k, valid k → a < slot k ∨ slot k + 4 ≤ a) → t.mem.readByte a = s.mem.readByte a) ∧
      t.regs = s.regs ∧ t.platform = s.platform ∧
      t.port = { (consumeInput s).port with draws := s.port.draws + 1 } ∧
      t.engine = { s.engine with
        packed := (Engine.drawn s.port.draws).packed, idx := s.engine.idx + 1 }

/-- 42_dequantize R153, R157, 60_exceptions R178: the read of the packed byte that answers a bus error,
or the first write of a value that does, faults `BUS_ERROR` with the access's address. -/
def Obligations.DequantizeFaultsOnBusError : Prop :=
  ∀ (s : State) (i : Instr), i = .dequantizeUint4 ∨ i = .dequantizeUint2 → EngineRuns i s →
    s.Inv → s.engine.idx.toNat < s.engine.nsrc.toNat →
    let g := 8 / instrWidth i
    let j := s.engine.idx.toNat
    (busError s.platform (s.engine.src.toNat + j) 1 .read = true →
      ∃ t, exec i s = .next t ∧
        FaultedInExecution s t 9 (BitVec.ofNat 32 (s.engine.src.toNat + j))) ∧
    (busError s.platform (s.engine.src.toNat + j) 1 .read = false →
      ∀ k, k < g → j * g + k < s.engine.len.toNat →
      (∀ k', k' < k → busError s.platform (s.engine.dst.toNat + 4 * (j * g + k')) 4 .write = false) →
      busError s.platform (s.engine.dst.toNat + 4 * (j * g + k)) 4 .write = true →
      ∃ t, exec i s = .next t ∧
        FaultedInExecution s t 9 (BitVec.ofNat 32 (s.engine.dst.toNat + 4 * (j * g + k))))

/-- 42_dequantize R155: the bits of a packed byte's unused slots never change what a unit writes. -/
def Obligations.UnusedSlotBitsAreIgnored : Prop :=
  ∀ (w j : Nat) (b b' : Byte) (e : Engine) (p : Platform) (m : Memory), w = 2 ∨ w = 4 →
    (∀ k, k < 8 / w → j * (8 / w) + k < e.len.toNat →
      b.toNat / 2 ^ (w * k) % 2 ^ w = b'.toNat / 2 ^ (w * k) % 2 ^ w) →
    unpackSlots w j b e p (List.range (8 / w)) m = unpackSlots w j b' e p (List.range (8 / w)) m

/-- 42_dequantize R154, R156 to R158, 41_quantize R134: a dequantize command that has just been
accepted and whose accesses answer no bus error ends after `NSRC` unit steps and the completion step
with `DONE` and exactly the values of its codes in the destination. No host transaction is handled while
it runs (the queue of inputs is empty, log 2), and none has raced with it before. -/
def Obligations.DequantizeCommandUnpacksAllCodes : Prop :=
  ∀ (s : State) (i : Instr), i = .dequantizeUint4 ∨ i = .dequantizeUint2 → EngineRuns i s → s.Inv →
    s.port.inputs = [] → s.engine.idx = 0 → RaceFree s →
    (∀ j, j < s.engine.nsrc.toNat → busError s.platform (s.engine.src.toNat + j) 1 .read = false) →
    (∀ n, n < s.engine.len.toNat →
      busError s.platform (s.engine.dst.toNat + 4 * n) 4 .write = false) →
    ∃ t, Host.Core.run Sys2Proof.core (s.engine.nsrc.toNat + 1) s = .next t ∧
      t.regs = { s.regs with busy := false, done := true } ∧
      (∀ n, n < s.engine.len.toNat → ∀ b, b < 4 →
        t.mem.readByte (s.engine.dst.toNat + 4 * n + b) =
          (valueAt (instrWidth i) s n).extractLsb' (8 * b) 8) ∧
      (∀ a, ¬ InDestination s a → t.mem.readByte a = s.mem.readByte a)

/-! ### What the four commands share -/

/-- 41_quantize R134: with every unit done, the next step of any of the four commands is the completion
step; it makes no memory access. The block is idle from then on, and its hidden state takes any value
(93_implementation_defined U30; logs 5 and 15). (No host raced with the command: 20_memory R72 is the
next three statements.) -/
def Obligations.CompletionStepSetsDone : Prop :=
  ∀ (s : State) (i : Instr), EngineRuns i s → commandRaced s = false →
    s.engine.idx.toNat =
      (if instrDir i = 0 then s.engine.ndst.toNat else s.engine.nsrc.toNat) →
    exec i s = .next { consumeInput s with
      regs.busy := false
      regs.done := true
      engine := Engine.drawn s.port.draws
      port.draws := s.port.draws + 1 }

/-- 20_memory R72: a command that a host access raced with ends with every byte of its destination
range any value (a draw), and no other byte changed. -/
def Obligations.RacedCommandLosesDestination : Prop :=
  ∀ (s : State) (i : Instr), EngineRuns i s → s.mem.wf → commandRaced s = true →
    s.engine.idx.toNat =
      (if instrDir i = 0 then s.engine.ndst.toNat else s.engine.nsrc.toNat) →
    ∃ t, exec i s = .next t ∧ t.regs = { s.regs with busy := false, done := true } ∧
      (∃ d, ∀ a, InDestination s a → a < 2 ^ 32 → t.mem.readByte a = Config.drawByte d a) ∧
      (∀ a, ¬ InDestination s a → t.mem.readByte a = s.mem.readByte a)

/-- 20_memory R72 (b), 70_reset R216, R217: a host access that meets the destination range of a command
whose end no host has observed races with it. A load answers any value (a draw). If the command is
running, it is marked as raced with, by a load and by a store; if it has ended, every byte of its
destination range takes any value (a draw) at once, and no byte outside such ranges changes that the
access does not store to. (Which claims are open is log 10.) -/
def Obligations.HostAccessToDestinationRaces : Prop :=
  ∀ (s : State) (addr : Word) (size : Size) (rest : List Input), s.mem.wf →
    touchesWindow s.platform addr.toNat size.bytes = false → addr.toNat + size.bytes ≤ 2 ^ 32 →
    let meets := fun base len => ∃ a, base ≤ a ∧ a < base + len ∧ addr.toNat ≤ a ∧
      a < addr.toNat + size.bytes
    let loads := s.port.inputs = .load addr size :: rest
    let stores := ∃ data, s.port.inputs = .store addr size data :: rest
    let answersDraw := fun t : State => ∃ d, t.port.replies = BitVec.ofNat 64 (littleEndianValue
      ((List.range size.bytes).map fun k => Config.drawByte d (addr.toNat + k))) :: s.port.replies
    (s.regs.busy = true → s.ClaimOfRunning → meets s.engine.dst.toNat s.engine.ndst.toNat →
      (loads ∨ stores) →
      ∃ t, step s = .next t ∧ commandRaced t = true ∧ t.regs = s.regs ∧ t.engine = s.engine ∧
        t.port.inputs = rest ∧ (loads → answersDraw t) ∧
        (stores → t.port.replies = s.port.replies)) ∧
    (∀ c ∈ endedClaims s, meets c.dst c.ndst → (loads ∨ stores) →
      ∃ t, step s = .next t ∧ t.regs = s.regs ∧ t.engine = s.engine ∧ t.port.inputs = rest ∧
        (∃ d, ∀ a, c.dst ≤ a → a < c.dst + c.ndst → a < 2 ^ 32 →
          t.mem.readByte a = Config.drawByte d a) ∧
        (∀ a, (∀ c' ∈ endedClaims s, ¬ (c'.dst ≤ a ∧ a < c'.dst + c'.ndst)) →
          (stores → a < addr.toNat ∨ addr.toNat + size.bytes ≤ a) →
          t.mem.readByte a = s.mem.readByte a) ∧
        (loads → answersDraw t) ∧ (stores → t.port.replies = s.port.replies))

/-- 20_memory R72 (a), 70_reset R217: a host store that meets the source range of a command whose end no
host has observed races with it. If the command is running, it is marked as raced with, and from then
on every byte the engine reads of the source is any value (a draw; log 10); if it has ended, every byte
of its destination range takes any value (a draw) at once. -/
def Obligations.HostWriteToSourceRaces : Prop :=
  ∀ (s : State) (addr : Word) (size : Size) (data : BitVec 64) (rest : List Input), s.mem.wf →
    s.port.inputs = .store addr size data :: rest →
    touchesWindow s.platform addr.toNat size.bytes = false → addr.toNat + size.bytes ≤ 2 ^ 32 →
    let meets := fun base len => ∃ a, base ≤ a ∧ a < base + len ∧ addr.toNat ≤ a ∧
      a < addr.toNat + size.bytes
    (s.regs.busy = true → s.ClaimOfRunning → meets s.engine.src.toNat s.engine.nsrc.toNat →
      ∃ t d, step s = .next t ∧ commandRaced t = true ∧
        (∀ a, engineByte t a = Config.drawByte d a) ∧ t.regs = s.regs ∧ t.engine = s.engine) ∧
    (∀ c ∈ endedClaims s, meets c.src c.nsrc →
      ∃ t d, step s = .next t ∧ t.regs = s.regs ∧ t.engine = s.engine ∧
        (∀ a, c.dst ≤ a → a < c.dst + c.ndst → a < 2 ^ 32 →
          t.mem.readByte a = Config.drawByte d a))

/-- 20_memory R71: a host load of system memory that races with no command answers the bytes in memory
and changes no byte and no state of the block. That a load of every size and alignment answers, in one
step, is the model's choice (log 4, DESIGN CHOICE), that it answers no bus error is log 9 (DEDUCED), and
that its lowest address gives the low byte is log 23 (DESIGN CHOICE). -/
def Obligations.HostLoadAnswersItsBytes : Prop :=
  ∀ (s : State) (addr : Word) (size : Size) (rest : List Input),
    s.port.inputs = .load addr size :: rest →
    touchesWindow s.platform addr.toNat size.bytes = false → addr.toNat + size.bytes ≤ 2 ^ 32 →
    s.port.claims.any (·.races .read addr.toNat size.bytes) = false →
    ∃ t v, step s = .next t ∧ t.port.replies = v :: s.port.replies ∧
      (∀ k, k < size.bytes → v.extractLsb' (8 * k) 8 = s.mem.readByte (addr.toNat + k)) ∧
      t.regs = s.regs ∧ t.engine = s.engine ∧ t.mem = s.mem ∧ t.port.claims = s.port.claims

/-- 20_memory R65 and R61: whatever a turn of the engine does, a fault included, it changes no byte
outside the destination range of the running command. -/
def Obligations.EngineWritesOnlyDestination : Prop :=
  ∀ s t : State, s.Inv → engineTurn s = true → s.regs.busy = true → step s = .next t →
    ∀ a, ¬ InDestination s a → t.mem.readByte a = s.mem.readByte a

/-- 70_reset R218, 10_state R35 and R43: the engine reads its latched copies only. Whatever values the
parameter registers hold, the running command takes the same step. -/
def Obligations.ParameterWritesDoNotDisturbCommand : Prop :=
  ∀ (s t : State) (i : Instr) (q : Regs), EngineRuns i s → exec i s = .next t →
    exec i { s with regs := withParameters s.regs q } = .next { t with regs := withParameters t.regs q }

/-- 41_quantize R141 and 42_dequantize R162: a command of length 0 that passes validation takes only the
completion step and changes no byte of memory. -/
def Obligations.ZeroLengthCompletesAtOnce : Prop :=
  ∀ (s : State) (i : Instr), s.regs.busy = false → s.regs.fault = false → ParametersPass i s.regs →
    s.regs.len = 0 → s.port.inputs = [] →
    ∃ t u, exec i s = .next t ∧ t.regs.busy = true ∧ t.mem = s.mem ∧
      step t = .next u ∧ u.regs = { s.regs with done := true } ∧ u.mem = s.mem

/-! ### Invariants -/

/-- The state right after reset is sound. -/
def Obligations.ResetStateIsSound : Prop :=
  State.reset.Inv

/-- Every step keeps the invariant: the relations of 10_state R32 among the status bits, the canonical
form of memory, and that a running command is a validated one (10_state R44, 60_exceptions R172). -/
def Obligations.EveryStepKeepsSoundness : Prop :=
  ∀ s t : State, s.Inv → step s = .next t → t.Inv

/-- In a sound state the engine is never without an enabled step (10_state R44, 70_reset R224): the
model's own fault `noEnabledStep` (log 16) is never raised. -/
def Obligations.EngineNeverStuck : Prop :=
  ∀ s : State, s.Inv → step s ≠ .fault .noEnabledStep

/-- 70_reset R224: an accepted command ends, by completion or fault. For every queue of inputs: a turn of
the engine in a sound busy state has a next state, in which either one more unit is done or the command
has ended, and a host transaction changes nothing of the running command (the reset input apart). When
the queue is empty, so that only the engine moves (log 2), the command ends within the steps of its
units and one more. A command has at most 2^29 units for W = 4 and 2^28 for W = 2. -/
def Obligations.AcceptedCommandEnds : Prop :=
  ∀ s : State, s.Inv → s.regs.busy = true →
    let ended := fun t : State => t.regs.busy = false ∧ (t.regs.done = true ∨ t.regs.fault = true)
    (s.engine.width = 4 → unitCount s.engine ≤ 2 ^ 29) ∧
    (s.engine.width = 2 → unitCount s.engine ≤ 2 ^ 28) ∧
    (engineTurn s = true → ∃ t, step s = .next t ∧
      (ended t ∨ (t.regs.busy = true ∧ unitCount t.engine = unitCount s.engine ∧
        t.engine.idx.toNat = s.engine.idx.toNat + 1))) ∧
    (∀ t, engineTurn s = false → s.port.inputs.head? ≠ some .reset → step s = .next t →
      t.regs.busy = true ∧ t.engine = s.engine) ∧
    (s.port.inputs = [] →
      ∃ n t, n ≤ unitCount s.engine + 1 ∧ Host.Core.run Sys2Proof.core n s = .next t ∧ ended t)

/-- 60_exceptions R195, 70_reset R212: while `BUSY` is 0 the block takes no step. -/
def Obligations.IdleBlockTakesNoStep : Prop :=
  ∀ s : State, s.regs.busy = false → engineTurn s = true → step s = .next (consumeInput s)

/-! ### Reset -/

/-- 10_state R47: the values right after reset. -/
def Obligations.ResetValues : Prop :=
  let s := State.reset
  statusWord s.regs = 0x00000000 ∧ s.regs.faultInfo = 0 ∧ irqEnWord s.regs = 0 ∧
  s.regs.srcAddr = 0 ∧ s.regs.dstAddr = 0 ∧ s.regs.len = 0 ∧ s.regs.scale = 0 ∧
  s.regs.zeroPoint = 0 ∧ s.regs.srcCap = 0 ∧ s.regs.dstCap = 0 ∧
  s.engine.dir = 0 ∧ s.engine.width = 0 ∧ s.engine.src = 0 ∧ s.engine.dst = 0 ∧ s.engine.len = 0 ∧
  s.engine.scale = 0 ∧ s.engine.zp = 0 ∧ s.engine.nsrc = 0 ∧ s.engine.ndst = 0 ∧ s.engine.idx = 0 ∧
  s.engine.acc = 0 ∧ irqOutput s.regs = false

/-- 70_reset R210, R211: the reset input puts every register and hidden state to its reset value in one
step; of memory it changes nothing, but that the destination range of a command it abandons takes any
value (a draw). That the byte a dequantize unit holds, which is part of the hidden state, is 0 after
reset is the model's choice (log 14, DESIGN CHOICE: 10_state R47 gives it no value), and that the open
claims stay open is log 11. -/
def Obligations.ResetInputResetsBlock : Prop :=
  ∀ (s : State) (rest : List Input), s.mem.wf → s.port.inputs = .reset :: rest →
    ∃ t, step s = .next t ∧ t.regs = State.reset.regs ∧ t.engine = State.reset.engine ∧
      t.platform = s.platform ∧ t.port.inputs = rest ∧
      t.port.current = none ∧ t.port.unobserved = s.port.claims ∧
      (s.regs.busy = false → t.mem = s.mem) ∧
      (s.regs.busy = true →
        (∃ d, ∀ a, InDestination s a → a < 2 ^ 32 → t.mem.readByte a = Config.drawByte d a) ∧
        (∀ a, ¬ InDestination s a → t.mem.readByte a = s.mem.readByte a))

/-! ### Registers -/

/-- 10_state R20, R22 to R25, R33, R34: a 32-bit read of each register answers its value, a reserved
offset answers 0, and no state of the block or of memory changes. 20_memory R71, R72 (log 10): a read of
`STATUS` that returns `DONE = 1` ends the claims of all commands, one that returns an execution fault
ends the claim of the command accepted last, and any other read leaves every claim open. -/
def Obligations.RegisterReadAnswersValue : Prop :=
  ∀ (s : State) (addr : Word) (rest : List Input) (off : Nat),
    s.port.inputs = .load addr .word :: rest → addr.toNat = s.platform.base + off →
    off < 256 → off % 4 = 0 →
    let executionFault := s.regs.fault = true ∧ (s.regs.cause = 8 ∨ s.regs.cause = 9)
    ∃ t v, step s = .next t ∧ t.port.replies = v.setWidth 64 :: s.port.replies ∧
      t.regs = s.regs ∧ t.engine = s.engine ∧ t.mem = s.mem ∧ t.platform = s.platform ∧
      t.port.inputs = rest ∧
      (off = 0x04 →
        (s.regs.done = true → t.port.current = none ∧ t.port.unobserved = []) ∧
        (s.regs.done = false → executionFault → t.port.current = none ∧
          t.port.unobserved = s.port.unobserved) ∧
        (s.regs.done = false → ¬ executionFault → t.port.current = s.port.current ∧
          t.port.unobserved = s.port.unobserved)) ∧
      (off ≠ 0x04 → t.port.current = s.port.current ∧ t.port.unobserved = s.port.unobserved) ∧
      (off = 0x00 → v = (0 : Word)) ∧ (off = 0x04 → v = statusWord s.regs) ∧
      (off = 0x08 → v = s.regs.faultInfo) ∧ (off = 0x0C → v = irqEnWord s.regs) ∧
      (off = 0x10 → v = s.regs.srcAddr) ∧ (off = 0x14 → v = s.regs.dstAddr) ∧
      (off = 0x18 → v = s.regs.len) ∧ (off = 0x1C → v = s.regs.scale) ∧
      (off = 0x20 → v = s.regs.zeroPoint) ∧ (off = 0x24 → v = s.regs.srcCap) ∧
      (off = 0x28 → v = s.regs.dstCap) ∧ (0x2C ≤ off → v = 0)

/-- 10_state R31: the write-1-to-clear write of `STATUS`, in one step, in every state. -/
def Obligations.StatusWriteClearsBits : Prop :=
  ∀ (s : State) (addr : Word) (data : BitVec 64) (rest : List Input),
    s.port.inputs = .store addr .word data :: rest → addr.toNat = s.platform.base + 0x04 →
    step s = .next { consumeInput s with
      regs := { s.regs with
        done := s.regs.done && !data.getLsbD 1
        fault := s.regs.fault && !data.getLsbD 2
        cause := if data.getLsbD 2 then 0 else s.regs.cause
        faultInfo := if data.getLsbD 2 then 0 else s.regs.faultInfo
        rej := s.regs.rej && !data.getLsbD 3 } }

/-- 10_state R36 to R43 and R34, R33, R22: a 32-bit write to a parameter register or to `IRQ_EN` changes
that register alone, at any time; a write to `FAULT_INFO` or to a reserved offset is ignored. -/
def Obligations.RegisterWriteChangesItsRegister : Prop :=
  ∀ (s : State) (addr : Word) (data : BitVec 64) (rest : List Input) (off : Nat),
    s.port.inputs = .store addr .word data :: rest → addr.toNat = s.platform.base + off →
    off < 256 → off % 4 = 0 →
    let v : Word := data.setWidth 32
    let becomes := fun r : Regs => step s = .next { consumeInput s with regs := r }
    (off = 0x08 → becomes s.regs) ∧
    (off = 0x0C → becomes { s.regs with doneIe := v.getLsbD 0, faultIe := v.getLsbD 1 }) ∧
    (off = 0x10 → becomes { s.regs with srcAddr := v }) ∧
    (off = 0x14 → becomes { s.regs with dstAddr := v }) ∧
    (off = 0x18 → becomes { s.regs with len := v }) ∧
    (off = 0x1C → becomes { s.regs with scale := v }) ∧
    (off = 0x20 → becomes { s.regs with zeroPoint := v }) ∧
    (off = 0x24 → becomes { s.regs with srcCap := v }) ∧
    (off = 0x28 → becomes { s.regs with dstCap := v }) ∧
    (0x2C ≤ off → becomes s.regs)

/-- 10_state R21: a host access that touches the window and is not an aligned 32-bit access is refused
by name. That an access which only straddles an edge of the window counts as a register access is the
model's choice (log 4, DESIGN CHOICE). -/
def Obligations.MisformedRegisterAccessRefused : Prop :=
  ∀ (s : State) (addr : Word) (size : Size) (data : BitVec 64) (rest : List Input),
    s.port.inputs = .load addr size :: rest ∨ s.port.inputs = .store addr size data :: rest →
    addr.toNat < s.platform.base + 256 → s.platform.base < addr.toNat + size.bytes →
    size ≠ .word ∨ addr.toNat % 4 ≠ 0 →
    step s = .refused (.registerAccessForm addr size)

/-- 10_state R25: where the fields stand in the `STATUS` word; every other bit reads 0. -/
def Obligations.StatusWordFields : Prop :=
  ∀ r : Regs, (statusWord r).toNat =
    r.busy.toNat + 2 * r.done.toNat + 4 * r.fault.toNat + 8 * r.rej.toNat + 256 * r.cause.toNat

/-- 60_exceptions R184: the interrupt output is `(DONE and DONE_IE) or (FAULT and FAULT_IE)`. -/
def Obligations.IrqFollowsStatusAndEnables : Prop :=
  ∀ r : Regs, irqOutput r = true ↔
    (r.done = true ∧ r.doneIe = true) ∨ (r.fault = true ∧ r.faultIe = true)

/-- 60_exceptions R182: writing `STATUS` with bit 2 set ends the fault state, and the next `CMD` write is
then not rejected: it is accepted when its parameters pass. -/
def Obligations.ClearedFaultAdmitsNextCommand : Prop :=
  ∀ (s : State) (addr : Word) (data : BitVec 64) (rest : List Input) (i : Instr),
    s.port.inputs = .store addr .word data :: rest → addr.toNat = s.platform.base + 0x04 →
    data.getLsbD 2 = true → s.regs.busy = false → ParametersPass i s.regs →
    ∃ t u, step s = .next t ∧ t.regs.fault = false ∧ t.regs.cause = 0 ∧ t.regs.faultInfo = 0 ∧
      exec i t = .next u ∧ u.regs.busy = true ∧ u.regs.rej = t.regs.rej

/-- 30_encoding R90: a turn of the poll loop answers `STATUS`, and loops exactly while `BUSY` is 1. Its read
ends the claims that any read of `STATUS` ends (20_memory R71, R72; log 10). (That the engine has a turn
before the next read is the model's schedule, log 21.) -/
def Obligations.PollLoopsWhileBusy : Prop :=
  ∀ (s : State) (rest : List Input), s.port.inputs = .poll :: rest →
    let executionFault := s.regs.fault = true ∧ (s.regs.cause = 8 ∨ s.regs.cause = 9)
    ∃ t, step s = .next t ∧
      t.port.replies = (statusWord s.regs).setWidth 64 :: s.port.replies ∧
      t.regs = s.regs ∧ t.engine = s.engine ∧ t.mem = s.mem ∧
      ((s.regs.done = true → t.port.current = none ∧ t.port.unobserved = []) ∧
        (s.regs.done = false → executionFault → t.port.current = none ∧
          t.port.unobserved = s.port.unobserved) ∧
        (s.regs.done = false → ¬ executionFault → t.port.current = s.port.current ∧
          t.port.unobserved = s.port.unobserved)) ∧
      (s.regs.busy = true → t.port.inputs = .engine :: .poll :: rest) ∧
      (s.regs.busy = false → t.port.inputs = rest)

/-! ### Memory -/

/-- 20_memory R54: a 4-byte engine write puts the low byte at the lowest address and changes no other
byte, unless it answers a bus error. -/
def Obligations.WordWriteIsLittleEndian : Prop :=
  ∀ (p : Platform) (m : Memory) (a : Nat) (v : Word), m.wf →
    (busError p a 4 .write = true → memWrite4 p m a v = none) ∧
    (busError p a 4 .write = false → ∃ m', memWrite4 p m a v = some m' ∧
      m'.readByte a = v.extractLsb' 0 8 ∧ m'.readByte (a + 1) = v.extractLsb' 8 8 ∧
      m'.readByte (a + 2) = v.extractLsb' 16 8 ∧ m'.readByte (a + 3) = v.extractLsb' 24 8 ∧
      ∀ a', a' < a ∨ a + 4 ≤ a' → m'.readByte a' = m.readByte a')

/-- 20_memory R53: a 4-byte engine read without a race is `b0 + 2^8 b1 + 2^16 b2 + 2^24 b3` of the bytes
in memory, unless it answers a bus error. -/
def Obligations.WordReadIsLittleEndian : Prop :=
  ∀ (s : State) (a : Nat), sourceDraw s = none → busError s.platform a 4 .read = false →
    ∃ v, memRead4 s a = some v ∧
      v.toNat = (s.mem.readByte a).toNat + 2 ^ 8 * (s.mem.readByte (a + 1)).toNat +
        2 ^ 16 * (s.mem.readByte (a + 2)).toNat + 2 ^ 24 * (s.mem.readByte (a + 3)).toNat

/-- 20_memory R51: an engine access with a byte in the block's own register window answers a bus
error, whatever the platform's predicate says. -/
def Obligations.OwnWindowAnswersBusError : Prop :=
  ∀ (p : Platform) (a n k : Nat) (kind : AccessKind), k < n → p.base ≤ a + k → a + k < p.base + 256 →
    busError p a n kind = true

/-- 20_memory R59, 30_encoding R88: a host store to system memory that races with no command puts the
bytes of its value at rising addresses, low byte first, and changes nothing else. For a 4-byte store the
order is that of R88, for the other sizes it is log 23 (DESIGN CHOICE). That a store of every size and
alignment lands whole, in one step, is log 4 (DESIGN CHOICE), and that none answers a bus error is log 9
(DEDUCED, unsafe). -/
def Obligations.HostStoreWritesItsBytes : Prop :=
  ∀ (s : State) (addr : Word) (size : Size) (data : BitVec 64) (rest : List Input), s.mem.wf →
    s.port.inputs = .store addr size data :: rest →
    touchesWindow s.platform addr.toNat size.bytes = false → addr.toNat + size.bytes ≤ 2 ^ 32 →
    s.port.claims.any (·.races .write addr.toNat size.bytes) = false →
    ∃ t, step s = .next t ∧
      (∀ k, k < size.bytes → t.mem.readByte (addr.toNat + k) = data.extractLsb' (8 * k) 8) ∧
      (∀ a, a < addr.toNat ∨ addr.toNat + size.bytes ≤ a → t.mem.readByte a = s.mem.readByte a) ∧
      t.regs = s.regs ∧ t.engine = s.engine ∧ t.platform = s.platform ∧
      t.port = (consumeInput s).port

/-! ### The scalar datapath -/

/-- 40_convert R103: the quotient of a finite sample and a legal scale is the exact quotient rounded to
nearest even, with gradual underflow and overflow to an infinity (00_scope R13); an infinite sample
is its own quotient. -/
def Obligations.QuotientIsCorrectlyRounded : Prop :=
  ∀ x s : Word, scaleLegal s = true →
    (f32IsFinite x = true → IsNearestEven (f32Value x / f32Value s) (quotient x s)) ∧
    (f32IsInf x = true → quotient x s = x)

/-- 00_scope R14: `round_haz(q)` is the sign of `q` times `floor(|q| + 1/2)`. -/
def Obligations.RoundHazIsTiesAway : Prop :=
  ∀ q : Word, f32IsFinite q = true →
    roundHaz q = (if 0 ≤ f32Value q then 1 else -1) * ⌊|f32Value q| + 1 / 2⌋

/-- 40_convert R104: an infinite quotient saturates by its sign, whatever the zero point. -/
def Obligations.InfiniteQuotientSaturates : Prop :=
  ∀ (x s : Word) (zp : Int) (w : Nat), f32IsNan x = false →
    (quotient x s = 0x7F800000 → qcode x s zp w = some (2 ^ w - 1)) ∧
    (quotient x s = 0xFF800000 → qcode x s zp w = some 0)

/-- 40_convert R105 to R107: the code of a finite quotient is its rounding plus the zero point, exactly,
clamped to `[0, MAXC]` after the sum. -/
def Obligations.CodeIsClampedExactSum : Prop :=
  ∀ (x s : Word) (zp : Int) (w : Nat), f32IsNan x = false → f32IsFinite (quotient x s) = true →
    ∃ c : Nat, qcode x s zp w = some c ∧
      (c : Int) = min (max (roundHaz (quotient x s) + zp) 0) (2 ^ w - 1)

/-- 40_convert R109: every sample that is not a NaN has a code, and it is at most `MAXC`; a NaN has
none (R102). -/
def Obligations.CodeIsInRange : Prop :=
  ∀ (x s : Word) (zp : Int) (w : Nat), scaleLegal s = true → w = 2 ∨ w = 4 →
    (f32IsNan x = false → ∃ c, qcode x s zp w = some c ∧ c ≤ 2 ^ w - 1) ∧
    (f32IsNan x = true → qcode x s zp w = none)

/-- 40_convert R111: for a fixed scale, zero point and width the code does not decrease with the
sample. -/
def Obligations.CodeIsMonotone : Prop :=
  ∀ (x y s : Word) (zp : Int) (w c d : Nat), scaleLegal s = true → f32Le x y →
    qcode x s zp w = some c → qcode y s zp w = some d → c ≤ d

/-- 40_convert R108: saturating the rounded quotient to `[-2^33, 2^33]` before the sum gives the same
code. -/
def Obligations.BoundedWidthGivesSameCode : Prop :=
  ∀ (r zp : Int) (w : Nat), w = 2 ∨ w = 4 → -2 ^ 31 ≤ zp → zp ≤ 2 ^ 31 - 1 →
    clampCode (min (max r (-2 ^ 33)) (2 ^ 33) + zp) w = clampCode (r + zp) w

/-- 40_convert R115, R116: `DQVAL` is the exact difference rounded once to binary32, times the scale
rounded once (00_scope R13). -/
def Obligations.ValueIsTwiceRoundedProduct : Prop :=
  ∀ (c : Nat) (s : Word) (zp : Int), c ≤ 15 → scaleLegal s = true → -2 ^ 31 ≤ zp → zp ≤ 2 ^ 31 - 1 →
    ∃ f : Word, f32IsFinite f = true ∧ IsNearestEven ((c : ℚ) - zp) f ∧
      IsNearestEven (f32Value f * f32Value s) (dqval c s zp)

/-- 40_convert R117: the conversion of an integer of magnitude at most 2^24 is exact. -/
def Obligations.SmallIntegerConversionIsExact : Prop :=
  ∀ n : Int, |n| ≤ 2 ^ 24 → f32IsFinite (i2f32 n) = true ∧ f32Value (i2f32 n) = n

/-- 40_convert R118, R119: the code of the zero point gives +0.0; any other code gives a value of the
difference's sign that is neither a zero nor a NaN. -/
def Obligations.ValueHasSignOfDifference : Prop :=
  ∀ (c : Nat) (s : Word) (zp : Int), c ≤ 15 → scaleLegal s = true → -2 ^ 31 ≤ zp → zp ≤ 2 ^ 31 - 1 →
    ((c : Int) = zp → dqval c s zp = 0x00000000) ∧
    ((c : Int) ≠ zp → f32IsNan (dqval c s zp) = false ∧ f32Magnitude (dqval c s zp) ≠ 0 ∧
      f32Sign (dqval c s zp) = decide ((c : Int) < zp))

/-- 40_convert R121: an unsaturated code, its rounded quotient of magnitude at most 2^24, dequantizes to
the rounded quotient times the scale, rounded once. -/
def Obligations.RoundTripReproducesQuotientTimesScale : Prop :=
  ∀ (x s : Word) (zp : Int) (w c : Nat), scaleLegal s = true → w = 2 ∨ w = 4 →
    f32IsFinite (quotient x s) = true → qcode x s zp w = some c →
    let r := roundHaz (quotient x s)
    0 ≤ r + zp → r + zp ≤ 2 ^ w - 1 → |r| ≤ 2 ^ 24 →
    dqval c s zp = f32Mul (i2f32 r) s ∧ IsNearestEven ((r : ℚ) * f32Value s) (dqval c s zp)

/-- 40_convert R122: under the conditions of R121, for a finite sample and a value that does not
overflow, the round trip is off by at most half a step and the two binary32 roundings. -/
def Obligations.RoundTripErrorIsBounded : Prop :=
  ∀ (x s : Word) (zp : Int) (w c : Nat), scaleLegal s = true → w = 2 ∨ w = 4 →
    f32IsFinite x = true → f32IsFinite (quotient x s) = true → qcode x s zp w = some c →
    let r := roundHaz (quotient x s)
    0 ≤ r + zp → r + zp ≤ 2 ^ w - 1 → |r| ≤ 2 ^ 24 → f32IsFinite (dqval c s zp) = true →
    |f32Value (dqval c s zp) - f32Value x| ≤
      f32Value s / 2 + (|f32Value x| + |(r : ℚ)| * f32Value s) / 2 ^ 24 + 1 / 2 ^ 150
end

