-- ==== Sys2Proof/Laws/Memory.lean ====
section
/-! SUPPORT. Memory: every operation keeps the canonical form, and a read after a write. -/

namespace Sys2Proof.Machine

@[simp] theorem Memory.readByte_nil (a : Nat) : Memory.readByte [] a = 0 := rfl

theorem Memory.readByte_cons (c : Host.Cell) (m : Memory) (a : Nat) :
    Memory.readByte (c :: m) a = if a = c.1 then c.2 else Memory.readByte m a := rfl

/-- An address below every listed one reads as unlisted. -/
theorem Memory.readByte_of_forall_lt (m : Memory) (a : Nat) (h : ∀ c ∈ m, a < c.1) :
    m.readByte a = 0 := by
  induction m with
  | nil => rfl
  | cons c m ih =>
    have := h c (by simp)
    rw [Memory.readByte_cons, if_neg (by omega)]
    exact ih fun c hc => h c (by simp [hc])

/-- What is listed after an insertion was listed before or is the new byte. -/
theorem Memory.mem_insertByte (m : Memory) (a : Nat) (b : Byte) (c : Host.Cell)
    (h : c ∈ m.insertByte a b) : c ∈ m ∨ (c = (a, b) ∧ b ≠ 0) := by
  induction m with
  | nil => simp only [Memory.insertByte] at h; split at h <;> simp_all
  | cons d m ih =>
    obtain ⟨a', b'⟩ := d
    simp only [Memory.insertByte] at h
    split at h
    · split at h <;> simp_all
      tauto
    · split at h
      · split at h <;> simp_all
        tauto
      · rcases List.mem_cons.1 h with h | h
        · exact .inl (by simp [h])
        · rcases ih h with h | h
          · exact .inl (by simp [h])
          · exact .inr h

theorem Memory.insertByte_wf (m : Memory) (a : Nat) (b : Byte) (h : m.wf)
    (ha : a < Config.memoryBytes) : (m.insertByte a b).wf := by
  induction m with
  | nil =>
    simp only [Memory.insertByte]
    split
    · exact h
    · exact ⟨List.pairwise_singleton _ _, by simp_all⟩
  | cons d m ih =>
    obtain ⟨a', b'⟩ := d
    obtain ⟨hp, hc⟩ := h
    rw [List.pairwise_cons] at hp
    have hm : Memory.wf m := ⟨hp.2, fun c hm => hc c (by simp [hm])⟩
    have hd := hc (a', b') (by simp)
    simp only [Memory.insertByte]
    split
    · next hlt =>
      split
      · exact ⟨List.pairwise_cons.2 hp, hc⟩
      · next hb =>
        refine ⟨List.pairwise_cons.2 ⟨fun c hcm => ?_, List.pairwise_cons.2 hp⟩, fun c hcm => ?_⟩
        · rcases List.mem_cons.1 hcm with h | h
          · rw [h]; exact hlt
          · exact lt_trans hlt (hp.1 c h)
        · rcases List.mem_cons.1 hcm with h | h
          · rw [h]; exact ⟨hb, ha⟩
          · exact hc c h
    · next hge =>
      split
      · next heq =>
        split
        · exact hm
        · next hb =>
          refine ⟨List.pairwise_cons.2 ⟨fun c hcm => ?_, hp.2⟩, fun c hcm => ?_⟩
          · show a < c.1
            rw [heq]; exact hp.1 c hcm
          · rcases List.mem_cons.1 hcm with h | h
            · rw [h]; exact ⟨hb, ha⟩
            · exact hm.2 c h
      · next hne =>
        have ih := ih hm
        refine ⟨List.pairwise_cons.2 ⟨fun c hcm => ?_, ih.1⟩, fun c hcm => ?_⟩
        · rcases Memory.mem_insertByte m a b c hcm with h | ⟨h, -⟩
          · exact hp.1 c h
          · rw [h]; show a' < a; omega
        · rcases List.mem_cons.1 hcm with h | h
          · rw [h]; exact hd
          · exact ih.2 c h

theorem Memory.writeByte_wf (m : Memory) (a : Nat) (b : Byte) (h : m.wf) : (m.writeByte a b).wf := by
  unfold Memory.writeByte
  split
  · exact Memory.insertByte_wf m a b h ‹_›
  · exact h

theorem Memory.writeBytes_wf (bs : List Byte) : ∀ (m : Memory) (a : Nat), m.wf → (m.writeBytes a bs).wf := by
  induction bs with
  | nil => exact fun m a h => h
  | cons b bs ih => exact fun m a h => ih _ _ (Memory.writeByte_wf m a b h)

theorem Memory.drawRange_wf (m : Memory) (d base n : Nat) (h : m.wf) : (m.drawRange d base n).wf := by
  induction n with
  | zero => exact h
  | succ n ih => exact Memory.writeByte_wf _ _ _ ih

/-- Reading back the byte just inserted. -/
theorem Memory.readByte_insertByte_same (m : Memory) (a : Nat) (b : Byte) (h : m.wf) :
    (m.insertByte a b).readByte a = b := by
  induction m with
  | nil => simp only [Memory.insertByte]; split <;> simp_all [Memory.readByte]
  | cons d m ih =>
    obtain ⟨a', b'⟩ := d
    obtain ⟨hp, hc⟩ := h
    have hp := List.pairwise_cons.1 hp
    have hm : Memory.wf m := ⟨hp.2, fun c hm => hc c (by simp [hm])⟩
    simp only [Memory.insertByte]
    split
    · next hlt =>
      split
      · next hb =>
        rw [hb]
        refine Memory.readByte_of_forall_lt _ _ fun c hcm => ?_
        rcases List.mem_cons.1 hcm with h | h
        · rw [h]; exact hlt
        · exact lt_trans hlt (hp.1 c h)
      · simp [Memory.readByte]
    · split
      · next heq =>
        split
        · next hb =>
          rw [hb]
          exact Memory.readByte_of_forall_lt _ _ fun c hcm => by rw [heq]; exact hp.1 c hcm
        · simp [Memory.readByte]
      · next hne =>
        rw [Memory.readByte_cons, if_neg hne]
        exact ih hm

/-- An insertion leaves every other address alone. -/
theorem Memory.readByte_insertByte_other (m : Memory) (a a2 : Nat) (b : Byte) (h : a2 ≠ a) :
    (m.insertByte a b).readByte a2 = m.readByte a2 := by
  induction m with
  | nil => simp only [Memory.insertByte]; split <;> simp_all [Memory.readByte]
  | cons d m ih =>
    obtain ⟨a', b'⟩ := d
    simp only [Memory.insertByte]
    split
    · split
      · rfl
      · rw [Memory.readByte_cons, if_neg h]
    · split
      · next heq =>
        have h2 : a2 ≠ a' := heq ▸ h
        split
        · rw [Memory.readByte_cons, if_neg h2]
        · rw [Memory.readByte_cons, if_neg h, Memory.readByte_cons, if_neg h2]
      · rw [Memory.readByte_cons, Memory.readByte_cons, ih]

/-- A byte write: the address written reads the byte, every other address reads as before. -/
theorem Memory.readByte_writeByte (m : Memory) (a a2 : Nat) (b : Byte) (h : m.wf)
    (ha : a < Config.memoryBytes) :
    (m.writeByte a b).readByte a2 = if a2 = a then b else m.readByte a2 := by
  unfold Memory.writeByte
  rw [if_pos ha]
  split
  · next he => rw [he]; exact Memory.readByte_insertByte_same m a b h
  · next he => exact Memory.readByte_insertByte_other m a a2 b he

theorem Memory.readByte_writeByte_other (m : Memory) (a a2 : Nat) (b : Byte) (h : a2 ≠ a) :
    (m.writeByte a b).readByte a2 = m.readByte a2 := by
  unfold Memory.writeByte
  split
  · exact Memory.readByte_insertByte_other m a a2 b h
  · rfl

/-- A write of several bytes leaves every address outside them alone. -/
theorem Memory.readByte_writeBytes_other (bs : List Byte) : ∀ (m : Memory) (a a2 : Nat),
    a2 < a ∨ a + bs.length ≤ a2 → (m.writeBytes a bs).readByte a2 = m.readByte a2 := by
  induction bs with
  | nil => exact fun m a a2 _ => rfl
  | cons b bs ih =>
    intro m a a2 h
    simp only [List.length_cons] at h
    rw [Memory.writeBytes, ih _ _ _ (by omega)]
    exact Memory.readByte_writeByte_other m a a2 b (by omega)

/-- A write of several bytes: each address of them reads its byte. -/
theorem Memory.readByte_writeBytes_same (bs : List Byte) : ∀ (m : Memory) (a k : Nat), m.wf →
    a + bs.length ≤ Config.memoryBytes → (hk : k < bs.length) →
    (m.writeBytes a bs).readByte (a + k) = bs[k] := by
  induction bs with
  | nil => exact fun m a k _ _ hk => absurd hk (by simp)
  | cons b bs ih =>
    intro m a k h ha hk
    simp only [List.length_cons] at ha hk
    rw [Memory.writeBytes]
    cases k with
    | zero =>
      rw [Memory.readByte_writeBytes_other _ _ _ _ (by omega),
        Memory.readByte_writeByte _ _ _ _ h (by omega)]
      simp
    | succ k =>
      have := ih (m.writeByte a b) (a + 1) k (Memory.writeByte_wf _ _ _ h) (by omega) (by omega)
      rw [show a + (k + 1) = a + 1 + k by omega, this]
      rfl

/-- A draw leaves every address outside its range alone. -/
theorem Memory.readByte_drawRange_other (m : Memory) (d base n a : Nat)
    (h : ¬ (base ≤ a ∧ a < base + n)) : (m.drawRange d base n).readByte a = m.readByte a := by
  induction n with
  | zero => rfl
  | succ n ih =>
    rw [Memory.drawRange, Memory.readByte_writeByte_other _ _ _ _ (by omega)]
    exact ih (by omega)

/-- A draw: each address of its range reads a free value. -/
theorem Memory.readByte_drawRange_same (m : Memory) (d base n a : Nat) (hm : m.wf)
    (ha : a < Config.memoryBytes) (h : base ≤ a ∧ a < base + n) :
    (m.drawRange d base n).readByte a = Config.drawByte d a := by
  induction n with
  | zero => omega
  | succ n ih =>
    rw [Memory.drawRange]
    by_cases he : a = base + n
    · subst he
      rw [Memory.readByte_writeByte _ _ _ _ (Memory.drawRange_wf _ _ _ _ hm) ha, if_pos rfl]
    · rw [Memory.readByte_writeByte_other _ _ _ _ he]
      exact ih (by omega)

end Sys2Proof.Machine
end

