-- ==== Sys2Proof/Laws/State.lean ====
section
/-! SUPPORT. One lemma per field and update of the state, so that no later proof unfolds a record
update. -/

namespace Sys2Proof.Machine

/-! ### consumeInput -/

@[simp] theorem consumeInput_regs (s : State) : (consumeInput s).regs = s.regs := rfl
@[simp] theorem consumeInput_engine (s : State) : (consumeInput s).engine = s.engine := rfl
@[simp] theorem consumeInput_mem (s : State) : (consumeInput s).mem = s.mem := rfl
@[simp] theorem consumeInput_platform (s : State) : (consumeInput s).platform = s.platform := rfl
@[simp] theorem consumeInput_inputs (s : State) :
    (consumeInput s).port.inputs = s.port.inputs.tail := rfl
@[simp] theorem consumeInput_replies (s : State) :
    (consumeInput s).port.replies = s.port.replies := rfl
@[simp] theorem consumeInput_current (s : State) :
    (consumeInput s).port.current = s.port.current := rfl
@[simp] theorem consumeInput_unobserved (s : State) :
    (consumeInput s).port.unobserved = s.port.unobserved := rfl
@[simp] theorem consumeInput_draws (s : State) : (consumeInput s).port.draws = s.port.draws := rfl

/-! ### drawDestination -/

@[simp] theorem drawDestination_regs (s : State) : (drawDestination s).regs = s.regs := rfl
@[simp] theorem drawDestination_engine (s : State) : (drawDestination s).engine = s.engine := rfl
@[simp] theorem drawDestination_mem (s : State) :
    (drawDestination s).mem =
      s.mem.drawRange s.port.draws s.engine.dst.toNat s.engine.ndst.toNat := rfl
@[simp] theorem drawDestination_platform (s : State) :
    (drawDestination s).platform = s.platform := rfl
@[simp] theorem drawDestination_inputs (s : State) :
    (drawDestination s).port.inputs = s.port.inputs := rfl
@[simp] theorem drawDestination_replies (s : State) :
    (drawDestination s).port.replies = s.port.replies := rfl
@[simp] theorem drawDestination_current (s : State) :
    (drawDestination s).port.current = s.port.current := rfl
@[simp] theorem drawDestination_unobserved (s : State) :
    (drawDestination s).port.unobserved = s.port.unobserved := rfl
@[simp] theorem drawDestination_draws (s : State) :
    (drawDestination s).port.draws = s.port.draws + 1 := rfl

/-! ### forgetCommand, endQuantizeUnit, endDequantizeUnit -/

@[simp] theorem forgetCommand_regs (s : State) :
    (forgetCommand s).regs = s.regs := rfl
@[simp] theorem forgetCommand_engine (s : State) :
    (forgetCommand s).engine = Engine.drawn s.port.draws := rfl
@[simp] theorem forgetCommand_mem (s : State) :
    (forgetCommand s).mem = s.mem := rfl
@[simp] theorem forgetCommand_platform (s : State) :
    (forgetCommand s).platform = s.platform := rfl
@[simp] theorem forgetCommand_port (s : State) :
    (forgetCommand s).port = { s.port with draws := s.port.draws + 1 } := rfl

@[simp] theorem endQuantizeUnit_regs (s : State) :
    (endQuantizeUnit s).regs = s.regs := rfl
@[simp] theorem endQuantizeUnit_engine (s : State) :
    (endQuantizeUnit s).engine = { s.engine with acc := (Engine.drawn s.port.draws).acc, idx := s.engine.idx + 1 } := rfl
@[simp] theorem endQuantizeUnit_mem (s : State) :
    (endQuantizeUnit s).mem = s.mem := rfl
@[simp] theorem endQuantizeUnit_platform (s : State) :
    (endQuantizeUnit s).platform = s.platform := rfl
@[simp] theorem endQuantizeUnit_port (s : State) :
    (endQuantizeUnit s).port = { s.port with draws := s.port.draws + 1 } := rfl

@[simp] theorem endDequantizeUnit_regs (s : State) :
    (endDequantizeUnit s).regs = s.regs := rfl
@[simp] theorem endDequantizeUnit_engine (s : State) :
    (endDequantizeUnit s).engine = { s.engine with packed := (Engine.drawn s.port.draws).packed, idx := s.engine.idx + 1 } := rfl
@[simp] theorem endDequantizeUnit_mem (s : State) :
    (endDequantizeUnit s).mem = s.mem := rfl
@[simp] theorem endDequantizeUnit_platform (s : State) :
    (endDequantizeUnit s).platform = s.platform := rfl
@[simp] theorem endDequantizeUnit_port (s : State) :
    (endDequantizeUnit s).port = { s.port with draws := s.port.draws + 1 } := rfl

/-! ### acceptCommand -/

@[simp] theorem acceptCommand_regs (c : Word) (s : State) :
    (acceptCommand c s).regs = { s.regs with done := false, busy := true } := rfl
@[simp] theorem acceptCommand_dir (c : Word) (s : State) :
    (acceptCommand c s).engine.dir = commandDir c := rfl
@[simp] theorem acceptCommand_width (c : Word) (s : State) :
    (acceptCommand c s).engine.width = BitVec.ofNat 3 (commandWidth c) := rfl
@[simp] theorem acceptCommand_src (c : Word) (s : State) :
    (acceptCommand c s).engine.src = s.regs.srcAddr := rfl
@[simp] theorem acceptCommand_dst (c : Word) (s : State) :
    (acceptCommand c s).engine.dst = s.regs.dstAddr := rfl
@[simp] theorem acceptCommand_len (c : Word) (s : State) :
    (acceptCommand c s).engine.len = s.regs.len := rfl
@[simp] theorem acceptCommand_scale (c : Word) (s : State) :
    (acceptCommand c s).engine.scale = s.regs.scale := rfl
@[simp] theorem acceptCommand_zp (c : Word) (s : State) :
    (acceptCommand c s).engine.zp = s.regs.zeroPoint := rfl
@[simp] theorem acceptCommand_nsrc (c : Word) (s : State) :
    (acceptCommand c s).engine.nsrc =
      BitVec.ofNat 33 (srcBytes (commandDir c) (commandWidth c) s.regs.len.toNat) := rfl
@[simp] theorem acceptCommand_ndst (c : Word) (s : State) :
    (acceptCommand c s).engine.ndst =
      BitVec.ofNat 33 (dstBytes (commandDir c) (commandWidth c) s.regs.len.toNat) := rfl
@[simp] theorem acceptCommand_idx (c : Word) (s : State) : (acceptCommand c s).engine.idx = 0 := rfl
@[simp] theorem acceptCommand_mem (c : Word) (s : State) : (acceptCommand c s).mem = s.mem := rfl
@[simp] theorem acceptCommand_platform (c : Word) (s : State) :
    (acceptCommand c s).platform = s.platform := rfl
@[simp] theorem acceptCommand_inputs (c : Word) (s : State) :
    (acceptCommand c s).port.inputs = s.port.inputs := rfl
@[simp] theorem acceptCommand_current (c : Word) (s : State) :
    (acceptCommand c s).port.current =
      some (acceptClaim (commandDir c) (commandWidth c) s.regs) := rfl
@[simp] theorem acceptCommand_unobserved (c : Word) (s : State) :
    (acceptCommand c s).port.unobserved = s.port.claims := rfl

/-! ### raiseFault -/

@[simp] theorem raiseFault_regs (t : Trap) (s : State) :
    (raiseFault t s).regs = faultedRegs s.regs (causeCode t.cause) t.info := by
  unfold raiseFault; split <;> rfl
@[simp] theorem raiseFault_engine (t : Trap) (s : State) :
    (raiseFault t s).engine =
      if causeIsExecution t.cause then Engine.drawn (s.port.draws + 1) else s.engine := by
  unfold raiseFault; split <;> rfl
@[simp] theorem raiseFault_platform (t : Trap) (s : State) :
    (raiseFault t s).platform = s.platform := by
  unfold raiseFault; split <;> rfl
@[simp] theorem raiseFault_inputs (t : Trap) (s : State) :
    (raiseFault t s).port.inputs = s.port.inputs := by
  unfold raiseFault; split <;> rfl
@[simp] theorem raiseFault_current (t : Trap) (s : State) :
    (raiseFault t s).port.current = s.port.current := by
  unfold raiseFault; split <;> rfl
@[simp] theorem raiseFault_unobserved (t : Trap) (s : State) :
    (raiseFault t s).port.unobserved = s.port.unobserved := by
  unfold raiseFault; split <;> rfl
@[simp] theorem raiseFault_mem (t : Trap) (s : State) :
    (raiseFault t s).mem = if causeIsExecution t.cause then (drawDestination s).mem else s.mem := by
  unfold raiseFault; split <;> rfl

/-! ### completeCommand -/

@[simp] theorem completeCommand_regs (s : State) :
    (completeCommand s).regs = { s.regs with busy := false, done := true } := by
  unfold completeCommand; split <;> rfl
@[simp] theorem completeCommand_engine (s : State) :
    (completeCommand s).engine =
      if commandRaced s then Engine.drawn (s.port.draws + 1) else Engine.drawn s.port.draws := by
  unfold completeCommand; split <;> rfl
@[simp] theorem completeCommand_platform (s : State) :
    (completeCommand s).platform = s.platform := by
  unfold completeCommand; split <;> rfl
@[simp] theorem completeCommand_inputs (s : State) :
    (completeCommand s).port.inputs = s.port.inputs := by
  unfold completeCommand; split <;> rfl
@[simp] theorem completeCommand_current (s : State) :
    (completeCommand s).port.current = s.port.current := by
  unfold completeCommand; split <;> rfl
@[simp] theorem completeCommand_unobserved (s : State) :
    (completeCommand s).port.unobserved = s.port.unobserved := by
  unfold completeCommand; split <;> rfl
@[simp] theorem completeCommand_mem (s : State) :
    (completeCommand s).mem = if commandRaced s then (drawDestination s).mem else s.mem := by
  unfold completeCommand; split <;> rfl

/-! ### noteHostAccess, hostReadRegister, hostWriteRegister -/

@[simp] theorem noteHostAccess_regs (k : AccessKind) (a n : Nat) (s : State) :
    (noteHostAccess k a n s).regs = s.regs := by
  unfold noteHostAccess; split <;> rfl
@[simp] theorem noteHostAccess_engine (k : AccessKind) (a n : Nat) (s : State) :
    (noteHostAccess k a n s).engine = s.engine := by
  unfold noteHostAccess; split <;> rfl
@[simp] theorem noteHostAccess_platform (k : AccessKind) (a n : Nat) (s : State) :
    (noteHostAccess k a n s).platform = s.platform := by
  unfold noteHostAccess; split <;> rfl
@[simp] theorem noteHostAccess_inputs (k : AccessKind) (a n : Nat) (s : State) :
    (noteHostAccess k a n s).port.inputs = s.port.inputs := by
  unfold noteHostAccess; split <;> rfl
@[simp] theorem noteHostAccess_replies (k : AccessKind) (a n : Nat) (s : State) :
    (noteHostAccess k a n s).port.replies = s.port.replies := by
  unfold noteHostAccess; split <;> rfl

@[simp] theorem hostReadRegister_regs (r : Register) (s : State) :
    (hostReadRegister r s).regs = s.regs := by
  unfold hostReadRegister; split <;> rfl
@[simp] theorem hostReadRegister_engine (r : Register) (s : State) :
    (hostReadRegister r s).engine = s.engine := by
  unfold hostReadRegister; split <;> rfl
@[simp] theorem hostReadRegister_mem (r : Register) (s : State) :
    (hostReadRegister r s).mem = s.mem := by
  unfold hostReadRegister; split <;> rfl
@[simp] theorem hostReadRegister_platform (r : Register) (s : State) :
    (hostReadRegister r s).platform = s.platform := by
  unfold hostReadRegister; split <;> rfl
@[simp] theorem hostReadRegister_inputs (r : Register) (s : State) :
    (hostReadRegister r s).port.inputs = s.port.inputs := by
  unfold hostReadRegister; split <;> rfl
@[simp] theorem hostReadRegister_draws (r : Register) (s : State) :
    (hostReadRegister r s).port.draws = s.port.draws := by
  unfold hostReadRegister; split <;> rfl
@[simp] theorem hostReadRegister_replies (r : Register) (s : State) :
    (hostReadRegister r s).port.replies = (readRegister s.regs r).setWidth 64 :: s.port.replies := by
  unfold hostReadRegister; split <;> rfl
@[simp] theorem hostReadRegister_current (r : Register) (s : State) :
    (hostReadRegister r s).port.current =
      if r = .status then (observeStatus s).port.current else s.port.current := by
  unfold hostReadRegister; split <;> rfl
@[simp] theorem hostReadRegister_unobserved (r : Register) (s : State) :
    (hostReadRegister r s).port.unobserved =
      if r = .status then (observeStatus s).port.unobserved else s.port.unobserved := by
  unfold hostReadRegister; split <;> rfl
@[simp] theorem observeStatus_current (s : State) :
    (observeStatus s).port.current =
      if s.regs.done || showsExecutionFault s.regs then none else s.port.current := rfl
@[simp] theorem observeStatus_unobserved (s : State) :
    (observeStatus s).port.unobserved = if s.regs.done then [] else s.port.unobserved := rfl

/-! ### resetBlock -/

@[simp] theorem resetBlock_regs (s : State) : (resetBlock s).regs = .reset := by
  unfold resetBlock; split <;> rfl
@[simp] theorem resetBlock_engine (s : State) : (resetBlock s).engine = .reset := by
  unfold resetBlock; split <;> rfl
@[simp] theorem resetBlock_platform (s : State) : (resetBlock s).platform = s.platform := by
  unfold resetBlock; split <;> rfl
@[simp] theorem resetBlock_inputs (s : State) : (resetBlock s).port.inputs = s.port.inputs := by
  unfold resetBlock; split <;> rfl
@[simp] theorem resetBlock_current (s : State) : (resetBlock s).port.current = none := by
  unfold resetBlock; split <;> rfl
@[simp] theorem resetBlock_unobserved (s : State) :
    (resetBlock s).port.unobserved = s.port.claims := by
  unfold resetBlock; split <;> rfl
@[simp] theorem resetBlock_mem (s : State) :
    (resetBlock s).mem = if s.regs.busy then (drawDestination s).mem else s.mem := by
  unfold resetBlock; split <;> rfl

end Sys2Proof.Machine
end

