-- ==== Sys2Proof/Laws/Ops.lean ====
section
/-! SUPPORT. For each shared operation, one lemma that says everything it can do. The provers cite these
and unfold no operation. -/

namespace Sys2Proof.Machine

/-! ### Ranges, the window and `CMD` writes -/

theorem rangesMeet_iff (a n b m : Nat) :
    rangesMeet a n b m = true ↔ 0 < n ∧ 0 < m ∧ a < b + m ∧ b < a + n := by
  simp [rangesMeet]

theorem rangesMeet_eq_false_iff (a n b m : Nat) :
    rangesMeet a n b m = false ↔ n = 0 ∨ m = 0 ∨ b + m ≤ a ∨ a + n ≤ b := by
  simp only [rangesMeet, decide_eq_false_iff_not]
  omega

/-- `PQC_BASE` is 256-byte aligned and the whole window lies in the 32-bit address space. -/
theorem Platform.base_spec (p : Platform) : p.base % 256 = 0 ∧ p.base + 256 ≤ Config.memoryBytes := by
  have := p.page.isLt
  simp only [Platform.base, Config.windowBytes, Config.memoryBytes]
  omega

/-- An aligned 32-bit access inside the window is a legal register access. -/
theorem registerAccess_spec (p : Platform) (addr : Word) (off : Nat) (h : addr.toNat = p.base + off)
    (ho : off < 256) (ha : off % 4 = 0) :
    touchesWindow p addr.toNat Size.word.bytes = true ∧ registerAccessLegal addr .word = true ∧
      registerAt p addr = Register.ofOffset off := by
  have hb := (Platform.base_spec p).1
  refine ⟨?_, ?_, ?_⟩
  · simp only [touchesWindow, rangesMeet_iff, Size.bytes, Config.windowBytes]
    omega
  · simp only [registerAccessLegal, decide_eq_true_eq]
    exact ⟨rfl, by omega⟩
  · simp [registerAt, h]

/-- What the arrival of a command word at `CMD` is, for the port and for the engine. -/
theorem commandArrives_spec (s : State) (c : Word) (h : CommandArrives c s) :
    engineTurn s = false ∧ ∃ addr data rest, s.port.inputs = .store addr .word data :: rest ∧
      isCommandWrite s addr .word = true ∧ data.setWidth 32 = c ∧
      hostStore addr .word data s = .next (commandWrite c s) := by
  obtain ⟨addr, data, rest, hi, ha, hc⟩ := h
  obtain ⟨ht, hl, hr⟩ := registerAccess_spec s.platform addr 0 (by omega) (by omega) rfl
  refine ⟨by simp [engineTurn, hi], addr, data, rest, hi, ?_, hc, ?_⟩
  · rw [isCommandWrite, hl, Bool.and_true, decide_eq_true_eq]
    exact ha
  unfold hostStore
  rw [if_pos ht, if_pos hl]
  simp [hostWriteRegister, hr, Register.ofOffset, hc]

/-- Validation of a command's own word is validation of its operands. -/
theorem validate_encode (i : Instr) (r : Regs) :
    validate (encode i) r = validateOperands (instrDir i) (instrWidth i) r := by
  cases i <;> rfl

/-! ### The engine's accesses -/

/-- An access that answers lies inside the address space and outside the register window. -/
theorem busError_false (p : Platform) (a n : Nat) (k : AccessKind) (h : busError p a n k = false) :
    a + n ≤ Config.memoryBytes ∧ touchesWindow p a n = false := by
  simp only [busError, Bool.or_eq_false_iff, decide_eq_false_iff_not] at h
  exact ⟨by omega, h.1.1⟩

theorem memRead1_eq (s : State) (a : Nat) (b : Byte) :
    memRead1 s a = some b ↔ busError s.platform a 1 .read = false ∧ b = engineByte s a := by
  unfold memRead1
  cases busError s.platform a 1 .read <;> simp [eq_comm]

theorem memRead1_none (s : State) (a : Nat) :
    memRead1 s a = none ↔ busError s.platform a 1 .read = true := by
  unfold memRead1
  cases busError s.platform a 1 .read <;> simp

theorem memRead4_sample (s : State) (i : Nat) :
    memRead4 s (s.engine.src.toNat + 4 * i) =
      if busError s.platform (s.engine.src.toNat + 4 * i) 4 .read then none else some (sampleAt s i) := rfl

theorem memWrite1_eq (p : Platform) (m m' : Memory) (a : Nat) (v : Byte) :
    memWrite1 p m a v = some m' ↔ busError p a 1 .write = false ∧ m' = m.writeByte a v := by
  unfold memWrite1
  cases busError p a 1 .write <;> simp [eq_comm]

theorem memWrite1_none (p : Platform) (m : Memory) (a : Nat) (v : Byte) :
    memWrite1 p m a v = none ↔ busError p a 1 .write = true := by
  unfold memWrite1
  cases busError p a 1 .write <;> simp

theorem memWrite4_eq (p : Platform) (m m' : Memory) (a : Nat) (v : Word) :
    memWrite4 p m a v = some m' ↔
      busError p a 4 .write = false ∧ m' = m.writeBytes a (littleEndianBytes 4 (v.setWidth 64)) := by
  unfold memWrite4
  cases busError p a 4 .write <;> simp [eq_comm]

theorem memWrite4_none (p : Platform) (m : Memory) (a : Nat) (v : Word) :
    memWrite4 p m a v = none ↔ busError p a 4 .write = true := by
  unfold memWrite4
  cases busError p a 4 .write <;> simp

@[simp] theorem littleEndianBytes_length (n : Nat) (v : BitVec 64) :
    (littleEndianBytes n v).length = n := by
  simp [littleEndianBytes]

theorem littleEndianBytes_getElem (n : Nat) (v : BitVec 64) (k : Nat)
    (h : k < (littleEndianBytes n v).length) :
    (littleEndianBytes n v)[k] = v.extractLsb' (8 * k) 8 := by
  simp [littleEndianBytes]

/-- What a draw of the destination range does to memory. -/
theorem drawDestination_mem_spec (s : State) (h : s.mem.wf) :
    (∃ d, ∀ a, InDestination s a → a < 2 ^ 32 →
      (drawDestination s).mem.readByte a = Config.drawByte d a) ∧
    (∀ a, ¬ InDestination s a → (drawDestination s).mem.readByte a = s.mem.readByte a) :=
  ⟨⟨s.port.draws, fun _ ha hb => Memory.readByte_drawRange_same _ _ _ _ _ h hb ha⟩,
    fun _ ha => Memory.readByte_drawRange_other _ _ _ _ _ ha⟩

/-! ### Claims (20_memory R72; log 10) -/

/-- The open claims are the current one and the older ones. -/
theorem Port.mem_claims (p : Port) (c : Claim) :
    c ∈ p.claims ↔ p.current = some c ∨ c ∈ p.unobserved := by
  cases h : p.current <;> simp [Port.claims, h, eq_comm]

/-- What `drawEnded` does: a byte in the destination range of a claim that the access races with is the
draw, any other byte is unchanged. -/
theorem drawEnded_readByte (d : Nat) (kind : AccessKind) (a n b : Nat) (cs : List Claim) :
    ∀ m : Memory, m.wf → (drawEnded d kind a n cs m).wf ∧
      ((∃ c ∈ cs, c.races kind a n = true ∧ c.dst ≤ b ∧ b < c.dst + c.ndst) → b < Config.memoryBytes →
        (drawEnded d kind a n cs m).readByte b = Config.drawByte d b) ∧
      ((∀ c ∈ cs, c.races kind a n = true → ¬ (c.dst ≤ b ∧ b < c.dst + c.ndst)) →
        (drawEnded d kind a n cs m).readByte b = m.readByte b) ∧
      (m.readByte b = Config.drawByte d b → b < Config.memoryBytes →
        (drawEnded d kind a n cs m).readByte b = Config.drawByte d b) := by
  induction cs with
  | nil => exact fun m hm => ⟨hm, fun ⟨c, hc, _⟩ => by simp at hc, fun _ => rfl, fun h _ => h⟩
  | cons c cs ih =>
    intro m hm
    simp only [drawEnded]
    by_cases hr : c.races kind a n = true
    · rw [if_pos hr]
      have hw : (m.drawRange d c.dst c.ndst).wf := Memory.drawRange_wf _ _ _ _ hm
      obtain ⟨i1, i2, i3, i4⟩ := ih _ hw
      have keep : m.readByte b = Config.drawByte d b → b < Config.memoryBytes →
          (m.drawRange d c.dst c.ndst).readByte b = Config.drawByte d b := by
        intro h hb
        by_cases hin : c.dst ≤ b ∧ b < c.dst + c.ndst
        · exact Memory.readByte_drawRange_same _ _ _ _ _ hm hb hin
        · rw [Memory.readByte_drawRange_other _ _ _ _ _ hin, h]
      refine ⟨i1, ?_, ?_, fun h hb => i4 (keep h hb) hb⟩
      · rintro ⟨c', hc', hr', hin⟩ hb
        rcases List.mem_cons.1 hc' with rfl | hc'
        · exact i4 (Memory.readByte_drawRange_same _ _ _ _ _ hm hb hin) hb
        · exact i2 ⟨c', hc', hr', hin⟩ hb
      · intro h
        rw [i3 fun c' hc' => h c' (List.mem_cons_of_mem _ hc'),
          Memory.readByte_drawRange_other _ _ _ _ _ (h c (List.mem_cons_self ..) hr)]
    · rw [if_neg hr]
      obtain ⟨i1, i2, i3, i4⟩ := ih m hm
      refine ⟨i1, ?_, fun h => i3 fun c' hc' => h c' (List.mem_cons_of_mem _ hc'), i4⟩
      rintro ⟨c', hc', hr', hin⟩ hb
      rcases List.mem_cons.1 hc' with rfl | hc'
      · exact absurd hr' hr
      · exact i2 ⟨c', hc', hr', hin⟩ hb

/-- Everything a host access to system memory does besides the access itself: nothing when it races with
no open claim, else two draw numbers are used up, the ended claims it races with are drawn, and every
claim notes the access. -/
theorem noteHostAccess_cases (kind : AccessKind) (a n : Nat) (s : State) :
    (s.port.claims.any (·.races kind a n) = false ∧ noteHostAccess kind a n s = s) ∨
    (s.port.claims.any (·.races kind a n) = true ∧ noteHostAccess kind a n s =
      { s with
        mem := drawEnded s.port.draws kind a n (endedClaims s) s.mem
        port := { s.port with
          current := s.port.current.map (Claim.noteAccess (s.port.draws + 1) kind a n)
          unobserved := s.port.unobserved.map (Claim.noteAccess (s.port.draws + 1) kind a n)
          draws := s.port.draws + 2 } }) := by
  unfold noteHostAccess
  cases s.port.claims.any (·.races kind a n) with
  | false => exact .inl ⟨rfl, rfl⟩
  | true => exact .inr ⟨rfl, rfl⟩

/-- The claim of an ended command is an open one. -/
theorem mem_claims_of_mem_endedClaims (s : State) (c : Claim) (h : c ∈ endedClaims s) :
    c ∈ s.port.claims := by
  unfold endedClaims at h
  split at h
  · exact (Port.mem_claims _ _).2 (.inr h)
  · exact h

/-- An access that shares a byte with the destination range of a claim races with it. -/
theorem Claim.races_of_meets_dst (c : Claim) (kind : AccessKind) (a n b : Nat)
    (h1 : c.dst ≤ b) (h2 : b < c.dst + c.ndst) (h3 : a ≤ b) (h4 : b < a + n) :
    c.races kind a n = true := by
  have h : rangesMeet a n c.dst c.ndst = true := by rw [rangesMeet_iff]; omega
  rw [Claim.races, h, Bool.or_true]

/-- A write that shares a byte with the source range of a claim races with it. -/
theorem Claim.races_of_meets_src (c : Claim) (a n b : Nat)
    (h1 : c.src ≤ b) (h2 : b < c.src + c.nsrc) (h3 : a ≤ b) (h4 : b < a + n) :
    rangesMeet a n c.src c.nsrc = true ∧ c.races .write a n = true := by
  have h : rangesMeet a n c.src c.nsrc = true := by rw [rangesMeet_iff]; omega
  exact ⟨h, by simp [Claim.races, h]⟩

theorem showsExecutionFault_iff (r : Regs) :
    showsExecutionFault r = true ↔ r.fault = true ∧ (r.cause = 8 ∨ r.cause = 9) := by
  simp [showsExecutionFault, causeCode]

/-! ### The running command -/

/-- The latched word is a command's exactly when `L.DIR` and `L.W` are that command's. -/
theorem latchedWord_eq_encode (e : Engine) (i : Instr) :
    latchedWord e = encode i ↔ e.dir = instrDir i ∧ e.width.toNat = instrWidth i := by
  have h : ∀ (d : BitVec 1) (w : BitVec 3) (i : Instr),
      CmdFields.toWord ⟨d, 0, w.setWidth 4, 0⟩ = encode i ↔ d = instrDir i ∧ w.toNat = instrWidth i := by
    intro d w i
    cases i <;> revert d w <;> decide
  exact h e.dir e.width i

theorem decode_latchedWord (e : Engine) (i : Instr) :
    decodeWord (latchedWord e) = .command i ↔ e.dir = instrDir i ∧ e.width.toNat = instrWidth i := by
  have h : ∀ (d : BitVec 1) (w : BitVec 3) (i : Instr),
      decodeWord (CmdFields.toWord ⟨d, 0, w.setWidth 4, 0⟩) = .command i ↔
        d = instrDir i ∧ w.toNat = instrWidth i := by
    intro d w i
    cases i <;> revert d w <;> decide
  exact h e.dir e.width i

/-- `runCommand` in a turn of the engine that runs this command. -/
theorem runCommand_of_engineRuns (i : Instr) (u : State → State) (s : State) (h : EngineRuns i s) :
    runCommand i u s = engineStep u (consumeInput s) := by
  obtain ⟨ht, hb, hd, hw⟩ := h
  have hl := (latchedWord_eq_encode s.engine i).2 ⟨hd, hw⟩
  simp [runCommand, ht, hb, hl]

/-- `runCommand` otherwise: the `CMD` write. -/
theorem runCommand_of_not_engineRuns (i : Instr) (u : State → State) (s : State)
    (h : ¬ EngineRuns i s) :
    runCommand i u s = .next (commandWrite (encode i) (consumeInput s)) := by
  unfold runCommand
  rw [if_neg]
  intro hc
  simp only [Bool.and_eq_true, beq_iff_eq] at hc
  exact h ⟨hc.1.1, hc.1.2, (latchedWord_eq_encode s.engine i).1 hc.2⟩

/-- Everything an engine step can do. -/
theorem engineStep_cases (u : State → State) (s t : State) (h : engineStep u s = .next t) :
    (s.engine.idx.toNat < unitCount s.engine ∧ t = u s) ∨
    (s.engine.idx.toNat = unitCount s.engine ∧ t = completeCommand s) := by
  unfold engineStep at h
  split at h
  · exact .inl ⟨‹_›, by injection h with h; exact h.symm⟩
  · split at h
    · exact .inr ⟨‹_›, by injection h with h; exact h.symm⟩
    · cases h

theorem engineStep_fault (u : State → State) (s : State) (r : Fault) (h : engineStep u s = .fault r) :
    unitCount s.engine < s.engine.idx.toNat := by
  unfold engineStep at h
  split at h
  · cases h
  · split at h
    · cases h
    · omega

/-- Everything a `CMD` write can do (60_exceptions R170, R171). -/
theorem commandWrite_cases (c : Word) (s : State) :
    ((s.regs.busy = true ∨ s.regs.fault = true) ∧ commandWrite c s = { s with regs.rej := true }) ∨
    (s.regs.busy = false ∧ s.regs.fault = false ∧ ∃ t, validate c s.regs = some t ∧
      commandWrite c s = raiseFault t { s with regs.done := false }) ∨
    (s.regs.busy = false ∧ s.regs.fault = false ∧ validate c s.regs = none ∧
      commandWrite c s = acceptCommand c s) := by
  unfold commandWrite
  cases hb : s.regs.busy <;> cases hf : s.regs.fault <;> simp
  cases hv : validate c s.regs <;> simp

/-- The cause of a validation fault is no execution cause, so memory is not drawn. -/
theorem validate_cause (c : Word) (r : Regs) (t : Trap) (h : validate c r = some t) :
    causeIsExecution t.cause = false ∧ 1 ≤ (causeCode t.cause).toNat ∧
      (causeCode t.cause).toNat ≤ 9 := by
  unfold validate at h
  split at h
  · injection h with h; subst h; simp [causeIsExecution, causeCode]
  · unfold validateOperands at h
    simp only at h
    repeat' split at h
    all_goals cases h <;> simp [causeIsExecution, causeCode]

/-! ### The unit steps -/

/-- Everything a quantize unit can do (41_quantize R133). -/
theorem quantizeUnit_cases (w : Nat) (s : State) :
    (∃ t, causeIsExecution t.cause = true ∧ quantizeUnit w s = raiseFault t s) ∨
    (∃ acc, packSlots w s.engine.idx.toNat s (List.range (groupSize w)) 0 = .ok acc ∧
      busError s.platform (s.engine.dst.toNat + s.engine.idx.toNat) 1 .write = false ∧
      quantizeUnit w s = endQuantizeUnit
        { s with mem := s.mem.writeByte (s.engine.dst.toNat + s.engine.idx.toNat) acc }) := by
  have hp : ∀ ks acc t, packSlots w s.engine.idx.toNat s ks acc = .error t →
      causeIsExecution t.cause = true := by
    intro ks
    induction ks with
    | nil => intro acc t h; cases h
    | cons k ks ih =>
      intro acc t h
      simp only [packSlots] at h
      split at h
      · cases h
      · split at h
        · injection h with h; subst h; rfl
        · split at h
          · injection h with h; subst h; rfl
          · exact ih _ _ h
  simp only [quantizeUnit]
  cases h : packSlots w s.engine.idx.toNat s (List.range (groupSize w)) 0 with
  | error t => exact .inl ⟨t, hp _ _ _ h, rfl⟩
  | ok acc =>
    cases hw : memWrite1 s.platform s.mem (s.engine.dst.toNat + s.engine.idx.toNat) acc with
    | none =>
      exact .inl ⟨⟨.busError, BitVec.ofNat 32 (s.engine.dst.toNat + s.engine.idx.toNat)⟩, rfl,
        by simp only [hw]⟩
    | some m =>
      obtain ⟨hb, rfl⟩ := (memWrite1_eq _ _ _ _ _).1 hw
      exact .inr ⟨acc, rfl, hb, by simp only [hw]⟩

/-- Everything the loop of a dequantize unit can do: it keeps memory canonical, it writes only the values
of the slots below `len`, and its fault is an execution fault. -/
theorem unpackSlots_spec (w j : Nat) (b : Byte) (e : Engine) (p : Platform) (ks : List Nat) :
    ∀ m : Memory,
      (m.wf → (unpackSlots w j b e p ks m).1.wf) ∧
      (∀ a, (∀ k ∈ ks, j * groupSize w + k < e.len.toNat →
          a < e.dst.toNat + 4 * (j * groupSize w + k) ∨
          e.dst.toNat + 4 * (j * groupSize w + k) + 4 ≤ a) →
        (unpackSlots w j b e p ks m).1.readByte a = m.readByte a) ∧
      (∀ t, (unpackSlots w j b e p ks m).2 = some t → causeIsExecution t.cause = true) := by
  induction ks with
  | nil => exact fun m => ⟨id, fun _ _ => rfl, fun _ h => by cases h⟩
  | cons k ks ih =>
    intro m
    simp only [unpackSlots]
    split
    · exact ⟨id, fun _ _ => rfl, fun _ h => by cases h⟩
    · next hk =>
      cases hw : memWrite4 p m (e.dst.toNat + 4 * (j * groupSize w + k))
          (dqval (unpackSlot b k w) e.scale (zeroPointOf e.zp)) with
      | none => exact ⟨id, fun _ _ => rfl, fun t h => by injection h with h; subst h; rfl⟩
      | some m' =>
        obtain ⟨hb, rfl⟩ := (memWrite4_eq _ _ _ _ _).1 hw
        obtain ⟨h1, h2, h3⟩ := ih (m.writeBytes (e.dst.toNat + 4 * (j * groupSize w + k))
          (littleEndianBytes 4 ((dqval (unpackSlot b k w) e.scale (zeroPointOf e.zp)).setWidth 64)))
        refine ⟨fun h => h1 (Memory.writeBytes_wf _ _ _ h), fun a ha => ?_, h3⟩
        rw [h2 a fun k' hk' => ha k' (by simp [hk'])]
        refine Memory.readByte_writeBytes_other _ _ _ _ ?_
        rw [littleEndianBytes_length]
        exact ha k (by simp) (by omega)

/-- Everything a dequantize unit can do (42_dequantize R153). -/
theorem dequantizeUnit_cases (w : Nat) (s : State) :
    (∃ t, causeIsExecution t.cause = true ∧ busError s.platform
        (s.engine.src.toNat + s.engine.idx.toNat) 1 .read = true ∧ dequantizeUnit w s = raiseFault t s) ∨
    (∃ t m b, causeIsExecution t.cause = true ∧
      unpackSlots w s.engine.idx.toNat b s.engine s.platform (List.range (groupSize w)) s.mem = (m, some t) ∧
      dequantizeUnit w s = raiseFault t { s with mem := m }) ∨
    (∃ m b, b = engineByte s (s.engine.src.toNat + s.engine.idx.toNat) ∧
      unpackSlots w s.engine.idx.toNat b s.engine s.platform (List.range (groupSize w)) s.mem = (m, none) ∧
      dequantizeUnit w s = endDequantizeUnit { s with mem := m }) := by
  simp only [dequantizeUnit]
  cases hr : memRead1 s (s.engine.src.toNat + s.engine.idx.toNat) with
  | none =>
    exact .inl ⟨⟨.busError, BitVec.ofNat 32 (s.engine.src.toNat + s.engine.idx.toNat)⟩, rfl,
      (memRead1_none _ _).1 hr, rfl⟩
  | some b =>
    obtain ⟨-, hb⟩ := (memRead1_eq _ _ _).1 hr
    have h3 := (unpackSlots_spec w s.engine.idx.toNat b s.engine s.platform
      (List.range (groupSize w)) s.mem).2.2
    cases hu : unpackSlots w s.engine.idx.toNat b s.engine s.platform (List.range (groupSize w)) s.mem with
    | mk m o =>
      cases o with
      | none => exact .inr (.inr ⟨m, b, hb, by rw [← hu], by simp only [hu]⟩)
      | some t => exact .inr (.inl ⟨t, m, b, h3 t (by rw [hu]), by rw [← hu], by simp only [hu]⟩)

/-! ### The step -/

/-- The unit step of each command. -/
def unitOf : Instr → State → State
  | .quantizeUint4 => quantizeUnit 4
  | .dequantizeUint4 => dequantizeUnit 4
  | .quantizeUint2 => quantizeUnit 2
  | .dequantizeUint2 => dequantizeUnit 2

/-- The meaning of each command is the shared one over its unit step. -/
theorem exec_eq (i : Instr) (s : State) : exec i s = runCommand i (unitOf i) s := by
  cases i <;> rfl

/-- In a state that runs no command, a command is the `CMD` write of its word. -/
theorem exec_of_not_busy (i : Instr) (s : State) (hb : s.regs.busy = false) :
    exec i s = .next (commandWrite (encode i) (consumeInput s)) := by
  rw [exec_eq, runCommand_of_not_engineRuns _ _ _ fun h => by rw [h.2.1] at hb; cases hb]

/-- In a turn of the engine that runs it, a command is its next engine step. -/
theorem exec_of_engineRuns (i : Instr) (s : State) (h : EngineRuns i s) :
    exec i s = engineStep (unitOf i) (consumeInput s) := by
  rw [exec_eq, runCommand_of_engineRuns _ _ _ h]

/-- Everything a step can do, by the oldest input. -/
theorem step_cases (s : State) :
    (engineTurn s = true ∧ s.regs.busy = false ∧ step s = .next (consumeInput s)) ∨
    (engineTurn s = true ∧ s.regs.busy = true ∧ ∃ i, EngineRuns i s ∧
      step s = engineStep (unitOf i) (consumeInput s)) ∨
    (engineTurn s = true ∧ s.regs.busy = true ∧ (∀ i, ¬ EngineRuns i s) ∧
      step s = .fault .noEnabledStep) ∨
    (∃ addr size rest, s.port.inputs = .load addr size :: rest ∧
      step s = consumeAfter (hostLoad addr size s)) ∨
    (∃ addr size data rest, s.port.inputs = .store addr size data :: rest ∧
      ((∃ i, isCommandWrite s addr size = true ∧ decodeWord (data.setWidth 32) = .command i ∧
          step s = .next (commandWrite (encode i) (consumeInput s))) ∨
        step s = consumeAfter (hostStore addr size data s))) ∨
    (∃ rest, s.port.inputs = .poll :: rest ∧ step s = .next (pollStatus s)) ∨
    (∃ rest, s.port.inputs = .reset :: rest ∧ step s = .next (consumeInput (resetBlock s))) := by
  have eng : engineTurn s = true → nextAction s = engineAction s →
      (engineTurn s = true ∧ s.regs.busy = false ∧ step s = .next (consumeInput s)) ∨
      (engineTurn s = true ∧ s.regs.busy = true ∧ ∃ i, EngineRuns i s ∧
        step s = engineStep (unitOf i) (consumeInput s)) ∨
      (engineTurn s = true ∧ s.regs.busy = true ∧ (∀ i, ¬ EngineRuns i s) ∧
        step s = .fault .noEnabledStep) := by
    intro ht hn
    cases hb : s.regs.busy with
    | false => exact .inl ⟨ht, rfl, by simp [step, hn, engineAction, hb]⟩
    | true =>
      cases hd : decodeWord (latchedWord s.engine) with
      | command i =>
        have hr : EngineRuns i s := ⟨ht, hb, (decode_latchedWord s.engine i).1 hd⟩
        refine .inr (.inl ⟨ht, rfl, i, hr, ?_⟩)
        simp only [step, hn, engineAction, hb, hd, if_true]
        rw [exec_eq, runCommand_of_engineRuns _ _ _ hr]
      | illegal why =>
        refine .inr (.inr ⟨ht, rfl, fun i hr => ?_, by simp [step, hn, engineAction, hb, hd]⟩)
        have := (decode_latchedWord s.engine i).2 ⟨hr.2.2.1, hr.2.2.2⟩
        rw [hd] at this
        cases this
  cases hi : s.port.inputs with
  | nil =>
    rcases eng (by simp [engineTurn, hi]) (by simp [nextAction, hi]) with h | h | h
    · exact .inl h
    · exact .inr (.inl h)
    · exact .inr (.inr (.inl h))
  | cons x rest =>
    cases x with
    | engine =>
      rcases eng (by simp [engineTurn, hi]) (by simp [nextAction, hi]) with h | h | h
      · exact .inl h
      · exact .inr (.inl h)
      · exact .inr (.inr (.inl h))
    | load addr size =>
      exact .inr (.inr (.inr (.inl ⟨addr, size, rest, rfl, by simp [step, nextAction, hi]⟩)))
    | store addr size data =>
      refine .inr (.inr (.inr (.inr (.inl ⟨addr, size, data, rest, rfl, ?_⟩))))
      have hn : nextAction s = storeAction addr size data s := by simp [nextAction, hi]
      cases hc : isCommandWrite s addr size with
      | false => exact .inr (by simp [step, hn, storeAction, hc])
      | true =>
        cases hd : decodeWord (data.setWidth 32) with
        | illegal why => exact .inr (by simp [step, hn, storeAction, hc, hd])
        | command i =>
          refine .inl ⟨i, rfl, rfl, ?_⟩
          simp only [step, hn, storeAction, hc, hd, if_true]
          rw [exec_eq, runCommand_of_not_engineRuns _ _ _ fun h => by
            have := h.1; simp [engineTurn, hi] at this]
    | poll =>
      exact .inr (.inr (.inr (.inr (.inr (.inl ⟨rest, rfl, by simp [step, nextAction, hi]⟩)))))
    | reset =>
      exact .inr (.inr (.inr (.inr (.inr (.inr ⟨rest, rfl, by simp [step, nextAction, hi]⟩)))))

/-- A step that handles a host load of system memory. -/
theorem step_of_load_memory (s : State) (addr : Word) (size : Size) (rest : List Input)
    (hi : s.port.inputs = .load addr size :: rest)
    (hw : touchesWindow s.platform addr.toNat size.bytes = false)
    (hl : addr.toNat + size.bytes ≤ Config.memoryBytes) :
    step s = .next (consumeInput (hostLoadMemory addr.toNat size.bytes s)) := by
  simp only [step, nextAction, hi]
  unfold hostLoad
  rw [if_neg (by simp [hw]), if_pos hl]
  rfl

/-- A step that handles a host store to system memory. -/
theorem step_of_store_memory (s : State) (addr : Word) (size : Size) (data : BitVec 64)
    (rest : List Input) (hi : s.port.inputs = .store addr size data :: rest)
    (hw : touchesWindow s.platform addr.toNat size.bytes = false)
    (hl : addr.toNat + size.bytes ≤ Config.memoryBytes) :
    step s = .next (consumeInput (hostStoreMemory addr.toNat size.bytes data s)) := by
  have hc : isCommandWrite s addr size = false := by
    rw [isCommandWrite, Bool.and_eq_false_iff, decide_eq_false_iff_not]
    left
    rw [touchesWindow, rangesMeet_eq_false_iff, Config.windowBytes] at hw
    have : 0 < size.bytes := by cases size <;> decide
    omega
  have he : hostStore addr size data s = .next (hostStoreMemory addr.toNat size.bytes data s) := by
    unfold hostStore
    rw [if_neg (by simp [hw]), if_pos hl]
  simp [step, nextAction, hi, storeAction, hc, he, consumeAfter]

end Sys2Proof.Machine
end

