-- ==== Sys2Proof/Laws/PerInstr.lean ====
section
/-! SUPPORT. Statements about every command as syntax, one lemma per constructor. -/

namespace Sys2Proof.Laws

/-- The fields of a command are legal ones (30_encoding R81, R83). -/
def EncodedFieldsLegal.Statement (i : Instr) : Prop :=
  i.wellFormed → (CmdFields.ofWord (encode i)).wellFormed

theorem EncodedFieldsLegal.quantizeUint4 : EncodedFieldsLegal.Statement .quantizeUint4 :=
  fun _ => by decide
theorem EncodedFieldsLegal.dequantizeUint4 : EncodedFieldsLegal.Statement .dequantizeUint4 :=
  fun _ => by decide
theorem EncodedFieldsLegal.quantizeUint2 : EncodedFieldsLegal.Statement .quantizeUint2 :=
  fun _ => by decide
theorem EncodedFieldsLegal.dequantizeUint2 : EncodedFieldsLegal.Statement .dequantizeUint2 :=
  fun _ => by decide

end Sys2Proof.Laws
end

