-- ==== Sys2Proof/Laws/Quantize.lean ====
section
/-! SUPPORT. The loop of a quantize unit: one step of it, and what it packs when every sample below the
length can be read. -/

namespace Sys2Proof.Machine

theorem qcode_le_maxCode (x s : Word) (zp : Int) (w c : Nat) (h : qcode x s zp w = some c) :
    c ≤ maxCode w := by
  unfold qcode at h
  split at h
  · cases h
  · injection h with h
    subst h
    unfold codeOfQuotient
    split
    · split <;> simp
    · simp [clampCode]

theorem codeAt_le_maxCode (w : Nat) (s : State) (i : Nat) : codeAt w s i ≤ maxCode w := by
  unfold codeAt
  cases h : qcode (sampleAt s i) s.engine.scale s.engine.zp.toInt w with
  | none => simp
  | some c => simpa using qcode_le_maxCode _ _ _ _ _ h

/-- A slot whose sample can be read and is no NaN takes the sample's code. -/
theorem packSlots_of_readable (w j : Nat) (s : State) (k : Nat) (ks : List Nat) (acc : Byte)
    (h : SampleReadable s (j * groupSize w + k)) (hl : j * groupSize w + k < s.engine.len.toNat) :
    packSlots w j s (k :: ks) acc =
      packSlots w j s ks (packSlot acc k w (codeAt w s (j * groupSize w + k))) := by
  have hr : memRead4 s (s.engine.src.toNat + 4 * (j * groupSize w + k)) =
      some (sampleAt s (j * groupSize w + k)) := by
    rw [memRead4_sample, h.1]
    rfl
  simp only [packSlots, if_neg (Nat.not_le.2 hl), hr, codeAt, zeroPointOf]
  cases hq : qcode (sampleAt s (j * groupSize w + k)) s.engine.scale s.engine.zp.toInt w with
  | none => simp [qcode, h.2] at hq
  | some c => rfl

/-- The loop ends at the length. -/
theorem packSlots_at_length (w j : Nat) (s : State) (k : Nat) (ks : List Nat) (acc : Byte)
    (h : s.engine.len.toNat ≤ j * groupSize w + k) : packSlots w j s (k :: ks) acc = .ok acc := by
  simp only [packSlots, if_pos h]

/-- The loop over the slots `m` to `m + n - 1`, all readable: the codes of those below the length. -/
theorem packSlots_range (w j n : Nat) (s : State) : ∀ (m : Nat) (acc : Byte),
    (∀ k, m ≤ k → k < m + n → j * groupSize w + k < s.engine.len.toNat →
      SampleReadable s (j * groupSize w + k)) →
    packSlots w j s (List.range' m n) acc =
      .ok ((List.range' m (min n (s.engine.len.toNat - (j * groupSize w + m)))).foldl
        (fun acc k => packSlot acc k w (codeAt w s (j * groupSize w + k))) acc) := by
  induction n with
  | zero => intro m acc _; simp [packSlots]
  | succ n ih =>
    intro m acc h
    rw [List.range'_succ]
    by_cases hl : j * groupSize w + m < s.engine.len.toNat
    · rw [packSlots_of_readable _ _ _ _ _ _ (h m (by omega) (by omega) hl) hl,
        ih (m + 1) _ fun k h1 h2 => h k (by omega) (by omega)]
      rw [show min (n + 1) (s.engine.len.toNat - (j * groupSize w + m)) =
        min n (s.engine.len.toNat - (j * groupSize w + (m + 1))) + 1 by omega, List.range'_succ]
      rfl
    · rw [packSlots_at_length _ _ _ _ _ _ (by omega)]
      rw [show min (n + 1) (s.engine.len.toNat - (j * groupSize w + m)) = 0 by omega]
      rfl

end Sys2Proof.Machine
end

