-- ==== Sys2Proof/Tests/Slice0.lean ====
section
/-! SUPPORT. Tests: ill-formed terms refused, command words written out from the encoding rules, vectors
of 95_test_vectors, and for every obligation with hypotheses a concrete state and operands that meet
them all (`witness_<obligation>`). -/

namespace Sys2Proof.Tests

open Sys2Proof Sys2Proof.Machine

/-! ### Ill-formed terms are refused (30_encoding R81, R83; 10_state R21) -/

theorem test_reserved_low_bits_refused : ¬ (CmdFields.mk 0 4 4 0).wellFormed := by decide
theorem test_reserved_high_bits_refused : ¬ (CmdFields.mk 0 0 4 1).wellFormed := by decide
theorem test_width_zero_refused : ¬ (CmdFields.mk 0 0 0 0).wellFormed := by decide
theorem test_width_eight_refused : ¬ (CmdFields.mk 1 0 8 0).wellFormed := by decide
theorem test_byte_access_refused : ¬ Size.byte.wellFormedAt 0x40000004 := by decide
theorem test_dword_access_refused : ¬ Size.dword.wellFormedAt 0x40000000 := by decide
theorem test_unaligned_access_refused : ¬ Size.word.wellFormedAt 0x40000006 := by decide
theorem test_legal_fields_accepted : (CmdFields.mk 1 0 2 0).wellFormed := by decide

/-! ### Decoding (30_encoding R81, R82): bits 31:8, WIDTH, bits 3:1, DIR, written out -/

theorem test_decode_quantize_uint4 :
    decodeWord (0#24 ++ 0b0100#4 ++ 0b000#3 ++ 0b0#1) = .command .quantizeUint4 := by decide
theorem test_decode_dequantize_uint4 :
    decodeWord (0#24 ++ 0b0100#4 ++ 0b000#3 ++ 0b1#1) = .command .dequantizeUint4 := by decide
theorem test_decode_quantize_uint2 :
    decodeWord (0#24 ++ 0b0010#4 ++ 0b000#3 ++ 0b0#1) = .command .quantizeUint2 := by decide
theorem test_decode_dequantize_uint2 :
    decodeWord (0#24 ++ 0b0010#4 ++ 0b000#3 ++ 0b1#1) = .command .dequantizeUint2 := by decide

/-- 95_test_vectors X2 to X7. -/
theorem test_decode_illegal_words :
    decodeWord 0x00000030 = .illegal .reservedWidth ∧ decodeWord 0x00000042 = .illegal .reservedLow ∧
    decodeWord 0x00000080 = .illegal .reservedWidth ∧ decodeWord 0x00000000 = .illegal .reservedWidth ∧
    decodeWord 0x00000140 = .illegal .reservedHigh ∧ decodeWord 0x00000010 = .illegal .reservedWidth := by
  decide

/-- A table word longer than a command word is none. -/
theorem test_table_word :
    decodeTableWord 32 0x41 = some .dequantizeUint4 ∧ decodeTableWord 8 0x20 = some .quantizeUint2 ∧
    decodeTableWord 40 0x40 = none := by decide

/-! ### The scalar datapath: vectors of 95_test_vectors, sections 2 and 3 -/

theorem test_qcode_tie_rounds_away : qcode 0xBF000000 0x3F800000 8 4 = some 7 := by decide
theorem test_qcode_below_half : qcode 0x3EFFFFFF 0x3F800000 0 4 = some 0 := by decide
theorem test_qcode_rounds_quotient_first : qcode 0x3F7FFA20 0x3ECCC81A 8 4 = some 11 := by
  decide
theorem test_qcode_sum_is_exact : qcode 0x4F000001 0x3F800000 (-2147483648) 4 = some 15 := by
  decide
theorem test_qcode_overflow_saturates : qcode 0xF149F2CA 0x0DA24260 20 4 = some 0 := by decide +kernel
theorem test_qcode_subnormals : qcode 0x00000003 0x00000002 0 4 = some 2 := by decide
theorem test_qcode_signalling_nan : qcode 0x7F800001 0x3F800000 8 4 = none := by decide
theorem test_dqval_difference_exact : dqval 15 0x3F800000 (-2147483648) = 0x4F000000 := by
  decide +kernel
theorem test_dqval_conversion_ties_even : dqval 3 0x3F800000 (-16777216) = 0x4B800002 := by
  decide +kernel
theorem test_dqval_overflow : dqval 0 0x7F7FFFFF 15 = 0xFF800000 := by decide +kernel
theorem test_dqval_smallest : dqval 0 0x00000001 1 = 0x80000001 := by decide +kernel
theorem test_dqval_rounds_product : dqval 3 0x3EAAAAAB 0 = 0x3F800000 := by decide +kernel

/-! ### Small states -/

/-- Registers of an idle block: `len` samples, scale 1.0, zero point 0, large capacities. -/
def readyRegs (len : Word) : Regs :=
  { Regs.reset with
    srcAddr := 0x1000, dstAddr := 0x2000, len := len, scale := 0x3F800000, srcCap := 0x100,
    dstCap := 0x100 }

/-- At 0x1000 the samples 1.0, 2.0, 3.0 of vectors P4-3 and P2-3; as packed bytes the first is 0x00. -/
def sampleMemory : Memory :=
  [(0x1002, 0x80), (0x1003, 0x3F), (0x1007, 0x40), (0x100A, 0x40), (0x100B, 0x40)]

/-- An idle block with these registers, memory and inputs. -/
def ready (r : Regs) (m : Memory) (inputs : List Input) : State :=
  { State.reset with regs := r, mem := m, port := { Port.idle with inputs := inputs } }

/-- The state after the accept of command `i`. -/
def running (i : Instr) (r : Regs) (m : Memory) : State :=
  acceptCommand (encode i) (ready r m [])

/-- The running command at unit `j`. -/
def runningAt (i : Instr) (r : Regs) (m : Memory) (j : Word) : State :=
  let s := running i r m
  { s with engine.idx := j }

/-- The platform answers a bus error to accesses of `n` bytes and this kind at `[lo, hi)`. -/
def withError (e : ErrRange) (s : State) : State :=
  { s with platform.memErr := [e] }

/-- The running command, a host access having raced with it. -/
def raced (s : State) : State :=
  { s with port.current := s.port.current.map fun c => { c with raced := true } }

/-- These inputs are offered next. -/
def offered (inputs : List Input) (s : State) : State :=
  { s with port.inputs := inputs }

/-- What a check asks of an outcome, if it is a next state. -/
def afterNext {α : Type} (f : State → α) : Host.Outcome State Fault Refusal → Option α
  | .next s => some (f s)
  | .fault _ => none
  | .refused _ => none

/-! ### One step of each command -/

/-- Vector P4-3: unit 0 packs codes 1 and 2 as 0x21. -/
theorem test_quantize_uint4_unit :
    afterNext (fun t => (t.mem.readByte 0x2000, t.engine.idx))
      (step (running .quantizeUint4 (readyRegs 3) sampleMemory)) = some (0x21, 1) := by decide

/-- Vector P4-3: the tail byte of unit 1 is 0x03. -/
theorem test_quantize_uint4_tail :
    afterNext (fun t => t.mem.readByte 0x2001)
      (step (runningAt .quantizeUint4 (readyRegs 3) sampleMemory 1)) = some 0x03 := by decide

/-- Vector P2-3: codes 1, 2, 3 pack as 0x39. -/
theorem test_quantize_uint2_unit :
    afterNext (fun t => t.mem.readByte 0x2000)
      (step (running .quantizeUint2 (readyRegs 3) sampleMemory)) = some 0x39 := by decide

/-- Vector E1, for W = 2: a NaN sample of index 1 faults with its index (60_exceptions R177, R178). -/
theorem test_quantize_uint2_nan :
    afterNext (fun t => (statusWord t.regs, t.regs.faultInfo))
      (step (running .quantizeUint2 (readyRegs 3) [(0x1006, 0xC0), (0x1007, 0x7F)]))
      = some (0x00000804, 1) := by decide

/-- Vector D4-3: unit 0 of byte 0x21 writes 1.0 at 0x2000 and 2.0 at 0x2004. -/
theorem test_dequantize_uint4_unit :
    afterNext (fun t => t.mem) (step (running .dequantizeUint4 (readyRegs 3) [(0x1000, 0x21)]))
      = some [(0x1000, 0x21), (0x2002, 0x80), (0x2003, 0x3F), (0x2007, 0x40)] := by decide +kernel

/-- Vector E8, for value 1: the write at 0x2004 answers a bus error. -/
theorem test_dequantize_uint4_bus_error :
    afterNext (fun t => (statusWord t.regs, t.regs.faultInfo))
      (step (withError ⟨0x2004, 0x2005, 4, .write⟩
        (running .dequantizeUint4 (readyRegs 3) [(0x1000, 0x21)])))
      = some (0x00000904, 0x2004) := by decide

/-- Vector D2-3: byte 0xE4, zero point 1: -1.0, +0.0, 1.0, the fourth slot unused. -/
theorem test_dequantize_uint2_unit :
    afterNext (fun t => t.mem)
      (step (running .dequantizeUint2 { readyRegs 3 with zeroPoint := 1 } [(0x1000, 0xE4)]))
      = some [(0x1000, 0xE4), (0x2002, 0x80), (0x2003, 0xBF), (0x200A, 0x80), (0x200B, 0x3F)] := by
  decide +kernel

/-- 41_quantize R134, with the one packed byte done. -/
theorem test_dequantize_uint2_completes :
    afterNext (fun t => statusWord t.regs) (step (runningAt .dequantizeUint2 (readyRegs 3) [] 1))
      = some 0x00000002 := by decide

/-! ### Host accesses and the CMD write -/

/-- Vector G10: rejected while busy. -/
theorem test_cmd_write_while_busy :
    afterNext (fun t => statusWord t.regs)
      (step (offered [wr .default .cmd 0x40] (running .quantizeUint4 (readyRegs 3) [])))
      = some 0x00000009 := by decide

/-- Vector G7. -/
theorem test_status_write_clears_fault :
    afterNext (fun t => (statusWord t.regs, t.regs.faultInfo))
      (step (ready (faultedRegs .reset 3 0) [] [wr .default .status 4])) = some (0, 0) := by
  decide

/-- Vector G5: refused by name (10_state R21). -/
theorem test_unaligned_register_read_refused :
    (match step (ready .reset [] [.load 0x40000006 .word]) with
      | .refused (.registerAccessForm a size) => decide (a = 0x40000006 ∧ size = .word)
      | _ => false) = true := by decide

/-- The end of PRG1's accept: the eight writes of 30_encoding R89 accept the command. -/
theorem test_listing_ends_with_cmd :
    commandListing .default .quantizeUint4 0x2000 4 0x1000 28 7 0x3E190C44 8 =
      [.store 0x40000010 .word 0x1000, .store 0x40000014 .word 0x2000, .store 0x40000018 .word 7,
        .store 0x4000001C .word 0x3E190C44, .store 0x40000020 .word 8, .store 0x40000024 .word 28,
        .store 0x40000028 .word 4, .store 0x40000000 .word 0x40] := by decide

/-- `pqc.clear` and `MEM32` (30_encoding R91, R88). -/
theorem test_other_listings :
    clearListing .default = [.store 0x40000004 .word 0x0E] ∧
    mem32 0x1000 0x3F5A0B38 = .store 0x1000 .word 0x3F5A0B38 ∧
    rd .default .faultInfo = .load 0x40000008 .word := by decide

/-! ### Witnesses: encoding and the CMD write -/

/-- The input of a host's write of `c` to `CMD`, at the platform of `State.reset`. -/
def cmdInput (c : Word) : List Input :=
  [wr .default .cmd c]

theorem witness_DecodeOfEncode : Instr.wellFormed .dequantizeUint2 := by decide

theorem witness_PackThenUnpackGivesCodes :
    (2 = 2 ∨ 2 = 4) ∧ [3, 0, 2].length ≤ 8 / 2 ∧ (∀ c ∈ [3, 0, 2], c ≤ 2 ^ 2 - 1) ∧ 3 < 8 / 2 := by decide

theorem witness_StepRunsDecodedCommand_host :
    CommandArrives 0x21 (ready .reset [] (cmdInput 0x21)) ∧ decodeWord 0x21 = .command .dequantizeUint2 :=
  ⟨⟨_, _, _, rfl, by decide, by decide⟩, by decide⟩

theorem witness_StepRunsDecodedCommand_engine :
    EngineRuns .dequantizeUint2 (running .dequantizeUint2 (readyRegs 3) []) := by decide

theorem witness_CommandWriteRejected_busy :
    let s := offered (cmdInput 0xFFFFFFFF) (running .quantizeUint4 (readyRegs 3) [])
    CommandArrives 0xFFFFFFFF s ∧ s.regs.busy = true :=
  ⟨⟨_, _, _, rfl, by decide, by decide⟩, by decide⟩

theorem witness_CommandWriteRejected_faulted :
    let s := ready (faultedRegs .reset 8 1) [] (cmdInput 0x40)
    CommandArrives 0x40 s ∧ s.regs.fault = true :=
  ⟨⟨_, _, _, rfl, by decide, by decide⟩, by decide⟩

theorem witness_IllegalWordFaults :
    let s := ready .reset [] (cmdInput 0x42)
    CommandArrives 0x42 s ∧ s.regs.busy = false ∧ s.regs.fault = false ∧ (0x42 : Word) ≠ 0x40 ∧
      (0x42 : Word) ≠ 0x41 ∧ (0x42 : Word) ≠ 0x20 ∧ (0x42 : Word) ≠ 0x21 :=
  ⟨⟨_, _, _, rfl, by decide, by decide⟩, by decide⟩

/-- The registers of the base vector X1 of 95_test_vectors. -/
def baseRegs : Regs :=
  { readyRegs 7 with scale := 0x3E190C44, zeroPoint := 8, srcCap := 28, dstCap := 4 }

/-- The cause a `CMD` write of the word of `i` with these registers ends in, 0 for an accept. -/
def causeAfter (i : Instr) (r : Regs) : Option (BitVec 4 × Bool) :=
  afterNext (fun t => (t.regs.cause, t.regs.busy)) (exec i (ready r [] []))

/-- One witness for each clause of ValidationReportsFirstFailure, at the boundaries of the vectors X9,
X14, X19, X23, X29, X35 and X24, with the outcome the vector gives. -/
theorem witness_ValidationReportsFirstFailure :
    causeAfter .quantizeUint4 { baseRegs with dstAddr := 0, scale := 0 } = some (2, false) ∧
    causeAfter .quantizeUint4 { baseRegs with scale := 0x7F800000 } = some (3, false) ∧
    causeAfter .quantizeUint4 { baseRegs with srcAddr := 0x1002 } = some (4, false) ∧
    causeAfter .quantizeUint4 { baseRegs with srcAddr := 0xFFFFFFE8 } = some (5, false) ∧
    causeAfter .quantizeUint4 { baseRegs with dstCap := 3 } = some (6, false) ∧
    causeAfter .quantizeUint4 { baseRegs with dstAddr := 0x101B } = some (7, false) ∧
    causeAfter .quantizeUint4 { baseRegs with srcAddr := 0xFFFFFFE4 } = some (0, true) := by
  decide

/-- The hypotheses of the seven clauses, for the registers above (0x101B lies in the source range). -/
theorem witness_ValidationReportsFirstFailure_premises :
    let s := ready { baseRegs with dstAddr := 0x101B } [] []
    s.regs.busy = false ∧ s.regs.fault = false ∧ s.regs.srcAddr.toNat ≠ 0 ∧
      s.regs.srcAddr.toNat % 4 = 0 ∧ s.regs.srcAddr.toNat + 28 ≤ 2 ^ 32 ∧ 28 ≤ s.regs.srcCap.toNat ∧
      4 ≤ s.regs.dstCap.toNat ∧ s.regs.srcAddr.toNat < s.regs.dstAddr.toNat + 4 ∧
      s.regs.dstAddr.toNat < s.regs.srcAddr.toNat + 28 := by decide

theorem witness_AcceptLatchesParameters :
    let s := ready baseRegs [] (cmdInput 0x40)
    s.regs.busy = false ∧ s.regs.fault = false ∧ ParametersPass .quantizeUint4 s.regs := by decide

theorem witness_AcceptLatchesParameters_dequantize :
    let s := ready (readyRegs 3) [] (cmdInput 0x21)
    s.regs.busy = false ∧ s.regs.fault = false ∧ ParametersPass .dequantizeUint2 s.regs ∧
      ParametersPass .dequantizeUint4 s.regs ∧ ParametersPass .quantizeUint2 s.regs := by decide

/-! ### Witnesses: sound states -/

/-- A command that has just been accepted from `ready` is in a sound state. -/
theorem running_inv (i : Instr) (r : Regs) (m : Memory) (hr : r.fault = false ∧ r.cause = 0 ∧ r.faultInfo = 0)
    (hm : m.wf) (he : (running i r m).engine.Running)
    (hs : (running i r m).engine.nsrc.toNat = srcBytes (commandDir (encode i)) (commandWidth (encode i)) r.len.toNat)
    (hd : (running i r m).engine.ndst.toNat = dstBytes (commandDir (encode i)) (commandWidth (encode i)) r.len.toNat) :
    (running i r m).Inv :=
  ⟨⟨fun _ => ⟨rfl, hr.1⟩, fun h => (Bool.noConfusion h.1), fun _ => hr.2, fun h => by
      rw [show (running i r m).regs.fault = r.fault from rfl, hr.1] at h; exact Bool.noConfusion h⟩,
    hm, fun _ => ⟨he, _, rfl, rfl, hs.symm, rfl, hd.symm⟩⟩

theorem quantize_running_inv : (running .quantizeUint4 (readyRegs 3) sampleMemory).Inv :=
  running_inv _ _ _ (by decide) (by decide) (by decide) (by decide) (by decide)

theorem dequantize_running_inv : (running .dequantizeUint2 (readyRegs 3) [(0x1000, 0xE4)]).Inv :=
  running_inv _ _ _ (by decide) (by decide) (by decide) (by decide) (by decide)

/-- A busy and an idle sound state that have a next state. -/
theorem witness_EveryStepKeepsSoundness :
    (running .quantizeUint4 (readyRegs 3) sampleMemory).Inv ∧
      afterNext (fun t => t.regs.busy) (step (running .quantizeUint4 (readyRegs 3) sampleMemory))
        = some true :=
  ⟨quantize_running_inv, by decide⟩

theorem witness_EngineNeverStuck : (running .dequantizeUint2 (readyRegs 3) [(0x1000, 0xE4)]).Inv :=
  dequantize_running_inv

theorem witness_AcceptedCommandEnds :
    let s := running .quantizeUint4 (readyRegs 3) sampleMemory
    s.Inv ∧ s.regs.busy = true ∧ s.port.inputs = [] ∧ s.engine.width = 4 :=
  ⟨quantize_running_inv, by decide⟩

/-- A host transaction while the command runs: its `CMD` write is rejected. -/
theorem witness_AcceptedCommandEnds_host :
    let s := offered [wr .default .cmd 0x20] (running .quantizeUint4 (readyRegs 3) sampleMemory)
    s.Inv ∧ s.regs.busy = true ∧ engineTurn s = false ∧ s.port.inputs.head? ≠ some .reset ∧
      afterNext (fun t => t.engine.idx) (step s) = some 0 :=
  ⟨quantize_running_inv, by decide⟩

theorem witness_AcceptedCommandEnds_two_bits :
    let s := running .dequantizeUint2 (readyRegs 3) [(0x1000, 0xE4)]
    s.Inv ∧ s.regs.busy = true ∧ s.port.inputs = [] ∧ s.engine.width = 2 :=
  ⟨dequantize_running_inv, by decide⟩

theorem witness_EngineWritesOnlyDestination :
    let s := running .quantizeUint4 (readyRegs 3) sampleMemory
    s.Inv ∧ engineTurn s = true ∧ s.regs.busy = true ∧ ¬ InDestination s 0x2002 ∧
      afterNext (fun t => t.regs.busy) (step s) = some true :=
  ⟨quantize_running_inv, by decide⟩

theorem witness_IdleBlockTakesNoStep :
    let s := ready (readyRegs 3) sampleMemory [.engine]
    s.regs.busy = false ∧ engineTurn s = true := by decide

/-! ### Witnesses: the quantize commands -/

theorem witness_QuantizeUnitWritesPackedByte :
    let s := runningAt .quantizeUint4 (readyRegs 3) sampleMemory 1
    EngineRuns .quantizeUint4 s ∧ s.mem.wf ∧ s.engine.idx.toNat < s.engine.ndst.toNat ∧
      (∀ k, k < 8 / 4 → 1 * (8 / 4) + k < s.engine.len.toNat → SampleReadable s (1 * (8 / 4) + k)) ∧
      busError s.platform (s.engine.dst.toNat + 1) 1 .write = false := by decide

/-- The second sample of unit 0 is a NaN, the first is not. -/
theorem witness_QuantizeFaultsOnNanSample :
    let s := running .quantizeUint2 (readyRegs 3) [(0x1006, 0xC0), (0x1007, 0x7F)]
    EngineRuns .quantizeUint2 s ∧ s.mem.wf ∧ s.engine.idx.toNat < s.engine.ndst.toNat ∧ 1 < 8 / 2 ∧
      0 * 4 + 1 < s.engine.len.toNat ∧ (∀ k', k' < 1 → SampleReadable s (0 * 4 + k')) ∧
      SampleAnswers s 1 ∧ f32IsNan (sampleAt s 1) = true := by decide

/-- The read of the last sample, the first of unit 1, answers a bus error. -/
theorem witness_QuantizeFaultsOnBusError_read :
    let s := withError ⟨0x1008, 0x1009, 4, .read⟩ (runningAt .quantizeUint4 (readyRegs 3) sampleMemory 1)
    EngineRuns .quantizeUint4 s ∧ s.mem.wf ∧ s.engine.idx.toNat < s.engine.ndst.toNat ∧ 0 < 8 / 4 ∧
      1 * 2 + 0 < s.engine.len.toNat ∧ (∀ k', k' < 0 → SampleReadable s (1 * 2 + k')) ∧
      ¬ SampleAnswers s (1 * 2 + 0) := by decide

theorem witness_QuantizeFaultsOnBusError_write :
    let s := withError ⟨0x2000, 0x2001, 1, .write⟩ (running .quantizeUint4 (readyRegs 3) sampleMemory)
    EngineRuns .quantizeUint4 s ∧ s.mem.wf ∧ s.engine.idx.toNat < s.engine.ndst.toNat ∧
      (∀ k, k < 8 / 4 → 0 * 2 + k < s.engine.len.toNat → SampleReadable s (0 * 2 + k)) ∧
      busError s.platform (s.engine.dst.toNat + 0) 1 .write = true := by decide

theorem witness_QuantizeCommandPacksAllSamples :
    let s := running .quantizeUint4 (readyRegs 3) sampleMemory
    s.Inv ∧ EngineRuns .quantizeUint4 s ∧ s.port.inputs = [] ∧ s.engine.idx = 0 ∧ RaceFree s ∧
      (∀ n, n < s.engine.len.toNat → SampleReadable s n) ∧
      (∀ j, j < s.engine.ndst.toNat → busError s.platform (s.engine.dst.toNat + j) 1 .write = false) :=
  ⟨quantize_running_inv, by decide⟩

/-! ### Witnesses: the dequantize commands -/

theorem witness_DequantizeUnitWritesValues :
    let s := running .dequantizeUint2 (readyRegs 3) [(0x1000, 0xE4)]
    EngineRuns .dequantizeUint2 s ∧ s.mem.wf ∧ s.engine.idx.toNat < s.engine.nsrc.toNat ∧
      busError s.platform (s.engine.src.toNat + 0) 1 .read = false ∧
      (∀ k, k < 8 / 2 ∧ 0 * (8 / 2) + k < s.engine.len.toNat →
        busError s.platform (s.engine.dst.toNat + 4 * (0 * (8 / 2) + k)) 4 .write = false) := by
  refine ⟨by decide, by decide, by decide, by decide, fun k hk => ?_⟩
  have : k = 0 ∨ k = 1 ∨ k = 2 ∨ k = 3 := by omega
  rcases this with rfl | rfl | rfl | rfl <;> decide

/-- A running command keeps its soundness whatever the platform answers. -/
theorem inv_withError (e : ErrRange) (s : State) (h : s.Inv) : (withError e s).Inv := h

theorem witness_DequantizeFaultsOnBusError_read :
    let s := withError ⟨0x1000, 0x1001, 1, .read⟩ (running .dequantizeUint2 (readyRegs 3) [(0x1000, 0xE4)])
    s.Inv ∧ EngineRuns .dequantizeUint2 s ∧ s.engine.idx.toNat < s.engine.nsrc.toNat ∧
      busError s.platform (s.engine.src.toNat + 0) 1 .read = true :=
  ⟨inv_withError _ _ dequantize_running_inv, by decide⟩

theorem witness_DequantizeFaultsOnBusError_write :
    let s := withError ⟨0x2008, 0x2009, 4, .write⟩ (running .dequantizeUint2 (readyRegs 3) [(0x1000, 0xE4)])
    s.Inv ∧ EngineRuns .dequantizeUint2 s ∧ s.engine.idx.toNat < s.engine.nsrc.toNat ∧
      busError s.platform (s.engine.src.toNat + 0) 1 .read = false ∧ 2 < 8 / 2 ∧
      0 * 4 + 2 < s.engine.len.toNat ∧
      (∀ k', k' < 2 → busError s.platform (s.engine.dst.toNat + 4 * (0 * 4 + k')) 4 .write = false) ∧
      busError s.platform (s.engine.dst.toNat + 4 * (0 * 4 + 2)) 4 .write = true :=
  ⟨inv_withError _ _ dequantize_running_inv, by decide⟩

/-- Vector D4-1: the high nibble of the last byte is unused, so 0xF1 and 0x01 agree. -/
theorem witness_UnusedSlotBitsAreIgnored :
    let e := (running .dequantizeUint4 (readyRegs 1) []).engine
    (4 = 2 ∨ 4 = 4) ∧ ∀ k, k < 8 / 4 → 0 * (8 / 4) + k < e.len.toNat →
      (0xF1 : Byte).toNat / 2 ^ (4 * k) % 2 ^ 4 = (0x01 : Byte).toNat / 2 ^ (4 * k) % 2 ^ 4 := by decide

theorem witness_DequantizeCommandUnpacksAllCodes :
    let s := running .dequantizeUint2 (readyRegs 3) [(0x1000, 0xE4)]
    s.Inv ∧ EngineRuns .dequantizeUint2 s ∧ s.port.inputs = [] ∧ s.engine.idx = 0 ∧ RaceFree s ∧
      (∀ j, j < s.engine.nsrc.toNat → busError s.platform (s.engine.src.toNat + j) 1 .read = false) ∧
      (∀ n, n < s.engine.len.toNat →
        busError s.platform (s.engine.dst.toNat + 4 * n) 4 .write = false) :=
  ⟨dequantize_running_inv, by decide⟩

/-! ### Witnesses: what the commands share -/

theorem witness_CompletionStepSetsDone :
    let s := runningAt .quantizeUint2 (readyRegs 3) sampleMemory 1
    EngineRuns .quantizeUint2 s ∧ commandRaced s = false ∧
      s.engine.idx.toNat = s.engine.ndst.toNat := by decide

theorem witness_CompletionStepSetsDone_dequantize :
    let s := runningAt .dequantizeUint4 (readyRegs 3) [(0x1000, 0x21)] 2
    EngineRuns .dequantizeUint4 s ∧ commandRaced s = false ∧
      s.engine.idx.toNat = s.engine.nsrc.toNat := by decide

theorem witness_RacedCommandLosesDestination :
    let s := raced (runningAt .quantizeUint2 (readyRegs 3) sampleMemory 1)
    EngineRuns .quantizeUint2 s ∧ s.mem.wf ∧ commandRaced s = true ∧
      s.engine.idx.toNat = s.engine.ndst.toNat := by decide

/-- The command has ended and no host has observed it: `DONE` was cleared unread, 0x2000 and 0x2001 were
its destination. -/
def endedUnobserved (inputs : List Input) : State :=
  let s := running .quantizeUint4 (readyRegs 3) sampleMemory
  { s with regs.busy := false, port.inputs := inputs }

/-- The current claim of a quantize command accepted from `readyRegs 3`. -/
theorem claimOfRunning_offered (inputs : List Input) :
    (offered inputs (running .quantizeUint4 (readyRegs 3) sampleMemory)).ClaimOfRunning :=
  ⟨_, rfl, by simp [running, offered, acceptClaim, ready, readyRegs]; decide⟩

/-- The running command: a byte load of its last destination byte, and a store whose last byte is its
first. -/
theorem witness_HostAccessToDestinationRaces_running :
    let s := offered [.load 0x2001 .byte] (running .quantizeUint4 (readyRegs 3) sampleMemory)
    let u := offered [.store 0x1FFD .word 0] (running .quantizeUint4 (readyRegs 3) sampleMemory)
    s.ClaimOfRunning ∧ u.ClaimOfRunning ∧ s.mem.wf ∧ s.regs.busy = true ∧
      touchesWindow s.platform 0x2001 1 = false ∧ InDestination s 0x2001 ∧ ¬ InDestination s 0x2002 ∧
      touchesWindow u.platform 0x1FFD 4 = false ∧ InDestination u 0x2000 ∧ ¬ InDestination u 0x1FFF :=
  ⟨claimOfRunning_offered _, claimOfRunning_offered _, by decide⟩

/-- The same two accesses after the end of the command. -/
theorem witness_HostAccessToDestinationRaces_ended :
    (endedUnobserved [.load 0x2001 .byte]).mem.wf ∧
      ((endedClaims (endedUnobserved [.load 0x2001 .byte])).map fun c => (c.dst, c.ndst)) = [(0x2000, 2)] ∧
      ((endedClaims (endedUnobserved [.store 0x1FFD .word 0])).map fun c => (c.dst, c.ndst))
        = [(0x2000, 2)] := by decide

/-- A store whose first byte is the last source byte of the running command. -/
theorem witness_HostWriteToSourceRaces_running :
    let s := offered [.store 0x100B .word 0] (running .quantizeUint4 (readyRegs 3) sampleMemory)
    s.ClaimOfRunning ∧ s.mem.wf ∧ s.regs.busy = true ∧ touchesWindow s.platform 0x100B 4 = false ∧
      s.engine.src.toNat ≤ 0x100B ∧ 0x100B < s.engine.src.toNat + s.engine.nsrc.toNat ∧
      0x100B + Size.word.bytes ≤ 2 ^ 32 :=
  ⟨claimOfRunning_offered _, by decide⟩

theorem witness_HostWriteToSourceRaces_ended :
    ((endedClaims (endedUnobserved [.store 0x100B .word 0])).map fun c => (c.src, c.nsrc))
      = [(0x1000, 12)] ∧ (endedUnobserved [.store 0x100B .word 0]).mem.wf := by decide

/-- A load of the last two bytes of memory, while a command runs. -/
theorem witness_HostLoadAnswersItsBytes :
    let s := offered [.load 0xFFFFFFFE .half] (running .quantizeUint4 (readyRegs 3) sampleMemory)
    touchesWindow s.platform 0xFFFFFFFE 2 = false ∧ 0xFFFFFFFE + Size.half.bytes ≤ 2 ^ 32 ∧
      s.port.claims.any (·.races .read 0xFFFFFFFE 2) = false := by decide

theorem witness_ParameterWritesDoNotDisturbCommand :
    let s := running .quantizeUint4 (readyRegs 3) sampleMemory
    EngineRuns .quantizeUint4 s ∧
      afterNext (fun t => t.engine.idx) (exec .quantizeUint4 s) = some 1 := by decide

/-- Vector X31: zero capacities. -/
theorem witness_ZeroLengthCompletesAtOnce :
    let s := ready { readyRegs 0 with srcCap := 0, dstCap := 0 } [] []
    s.regs.busy = false ∧ s.regs.fault = false ∧ ParametersPass .dequantizeUint4 s.regs ∧
      s.regs.len = 0 ∧ s.port.inputs = [] := by decide

/-! ### Witnesses: reset and registers -/

theorem witness_ResetInputResetsBlock :
    let s := offered [.reset, .poll] (running .quantizeUint4 (readyRegs 3) sampleMemory)
    s.mem.wf ∧ s.port.inputs = .reset :: [.poll] ∧ s.regs.busy = true := by decide

theorem witness_ResetInputResetsBlock_idle :
    let s := ready (readyRegs 3) sampleMemory [.reset]
    s.mem.wf ∧ s.port.inputs = .reset :: [] ∧ s.regs.busy = false := by decide

/-- A second command was accepted while the end of the first was unread; then the status is `r`. -/
def twoClaims (r : Regs → Regs) (inputs : List Input) : State :=
  let s := running .quantizeUint4 (readyRegs 3) sampleMemory
  let u := acceptCommand 0x41 { s with regs.busy := false }
  { u with regs := r { u.regs with busy := false }, port.inputs := inputs }

/-- How many claims a read of `STATUS` leaves open. -/
def claimsAfterStatusRead (r : Regs → Regs) : Option Nat :=
  afterNext (fun t => t.port.claims.length) (step (twoClaims r [rd .default .status]))

/-- `DONE`, an execution fault, a validation fault and an unfinished command: the cases of 20_memory R71
and R72. -/
theorem witness_RegisterReadAnswersValue_claims :
    claimsAfterStatusRead (fun r => { r with done := true }) = some 0 ∧
    claimsAfterStatusRead (fun r => faultedRegs r 8 1) = some 1 ∧
    claimsAfterStatusRead (fun r => faultedRegs r 9 0x2000) = some 1 ∧
    claimsAfterStatusRead (fun r => faultedRegs r 7 0) = some 2 ∧
    claimsAfterStatusRead (fun r => { r with busy := true }) = some 2 := by decide

/-- The same cases met by the poll loop. -/
theorem witness_PollLoopsWhileBusy_claims :
    (twoClaims (fun r => { r with done := true }) [.poll]).port.inputs = .poll :: [] ∧
    (twoClaims (fun r => { r with done := true }) [.poll]).regs.done = true ∧
    (twoClaims (fun r => faultedRegs r 9 0x2000) [.poll]).regs.done = false ∧
    (twoClaims (fun r => faultedRegs r 9 0x2000) [.poll]).regs.cause = 9 ∧
    (twoClaims (fun r => faultedRegs r 7 0) [.poll]).regs.cause = 7 := by decide

/-- The first and last register offsets, and the first and last reserved one. -/
theorem witness_RegisterRead :
    let s := ready baseRegs [] [.load 0x40000028 .word]
    (0x40000000 : Word).toNat = s.platform.base + 0x00 ∧ (0x40000028 : Word).toNat = s.platform.base + 0x28 ∧
      (0x4000002C : Word).toNat = s.platform.base + 0x2C ∧ (0x400000FC : Word).toNat = s.platform.base + 0xFC ∧
      0xFC < 256 ∧ 0xFC % 4 = 0 := by decide

/-- Each register read answers its own value (10_state R20): distinct values, read at their offsets. -/
theorem witness_RegisterReadAnswersValue :
    (([0x00, 0x04, 0x08, 0x0C, 0x10, 0x14, 0x18, 0x1C, 0x20, 0x24, 0x28, 0x2C, 0xFC] : List Nat).map fun off =>
      afterNext (fun t => t.port.replies)
        (step (ready { baseRegs with fault := true, cause := 9, faultInfo := 0x2001, faultIe := true } []
          [.load (BitVec.ofNat 32 (0x40000000 + off)) .word])))
    = ([0, 0x904, 0x2001, 2, 0x1000, 0x2000, 7, 0x3E190C44, 8, 28, 4, 0, 0] : List (BitVec 64)).map
        fun v => some [v] := by decide

theorem witness_StatusWriteClearsBits :
    let s := ready (faultedRegs .reset 3 0) [] [.store 0x40000004 .word 4]
    s.port.inputs = [.store 0x40000004 .word 4] ∧ (0x40000004 : Word).toNat = s.platform.base + 0x04 := by
  decide

/-- Each writable register takes the word written (10_state R36 to R43), `FAULT_INFO` and the reserved
offsets do not (R33, R22). -/
theorem witness_RegisterWriteChangesItsRegister :
    (([0x08, 0x0C, 0x10, 0x14, 0x18, 0x1C, 0x20, 0x24, 0x28, 0x2C, 0xFC] : List Nat).map fun off =>
      afterNext (fun t => decide (t.regs = baseRegs))
        (step (ready baseRegs [] [.store (BitVec.ofNat 32 (0x40000000 + off)) .word 0xFFFFFFFF])))
    = [some true, some false, some false, some false, some false, some false, some false, some false,
        some false, some true, some true] := by decide

theorem witness_MisformedRegisterAccessRefused :
    let s := ready .reset [] [.load 0x3FFFFFFF .half]
    (0x3FFFFFFF : Word).toNat < s.platform.base + 256 ∧
      s.platform.base < (0x3FFFFFFF : Word).toNat + Size.half.bytes ∧ Size.half ≠ .word := by decide

theorem witness_ClearedFaultAdmitsNextCommand :
    let s := ready (faultedRegs baseRegs 3 0) [] [.store 0x40000004 .word 0x0E]
    (0x40000004 : Word).toNat = s.platform.base + 0x04 ∧ (0x0E : BitVec 64).getLsbD 2 = true ∧
      s.regs.busy = false ∧ ParametersPass .quantizeUint4 s.regs := by decide

theorem witness_PollLoopsWhileBusy :
    (offered [.poll] (running .quantizeUint4 (readyRegs 3) [])).port.inputs = [.poll] ∧
      (offered [.poll] (running .quantizeUint4 (readyRegs 3) [])).regs.busy = true ∧
      (ready (readyRegs 3) [] [.poll]).regs.busy = false := by decide

/-! ### Witnesses: memory -/

/-- Both clauses: a word of memory, and the last word of the window. -/
theorem witness_WordWriteIsLittleEndian :
    Memory.wf sampleMemory ∧ busError .default 0x400000FC 4 .write = true ∧
      busError .default 0x1000 4 .write = false ∧ memWrite4 .default sampleMemory 0x1000 0x11223344 =
      some [(0x1000, 0x44), (0x1001, 0x33), (0x1002, 0x22), (0x1003, 0x11), (0x1007, 0x40), (0x100A, 0x40),
        (0x100B, 0x40)] := by decide

theorem witness_WordReadIsLittleEndian :
    let s := running .quantizeUint4 (readyRegs 3) sampleMemory
    sourceDraw s = none ∧ busError s.platform 0xFFFFFFFC 4 .read = false := by decide

/-- The last byte of an access is the first of the window. -/
theorem witness_OwnWindowAnswersBusError :
    3 < 4 ∧ Platform.default.base ≤ 0x3FFFFFFD + 3 ∧ 0x3FFFFFFD + 3 < Platform.default.base + 256 := by
  decide

theorem witness_HostStoreWritesItsBytes :
    let s := ready .reset sampleMemory [.store 0xFFFFFFF8 .dword 0x1122334455667788]
    s.mem.wf ∧ touchesWindow s.platform 0xFFFFFFF8 8 = false ∧ 0xFFFFFFF8 + Size.dword.bytes ≤ 2 ^ 32 ∧
      s.port.claims.any (·.races .write 0xFFFFFFF8 8) = false := by decide

/-! ### Witnesses: the scalar datapath -/

theorem witness_QuotientIsCorrectlyRounded :
    scaleLegal 0x7F7FFFFF = true ∧ f32IsFinite 0x00000001 = true ∧ f32IsInf 0xFF800000 = true := by decide

theorem witness_RoundHazIsTiesAway : f32IsFinite 0xBF000000 = true ∧ roundHaz 0xBF000000 = -1 := by
  decide

/-- Vectors Q30 and Q12. -/
theorem witness_InfiniteQuotientSaturates :
    f32IsNan 0x7149F2CA = false ∧ quotient 0x7149F2CA 0x0DA24260 = 0x7F800000 ∧
      f32IsNan 0xFF800000 = false ∧ quotient 0xFF800000 0x3F800000 = 0xFF800000 := by decide +kernel

theorem witness_CodeIsClampedExactSum :
    f32IsNan 0x4F000001 = false ∧ f32IsFinite (quotient 0x4F000001 0x3F800000) = true := by decide

theorem witness_CodeIsInRange :
    scaleLegal 0x00000001 = true ∧ f32IsNan 0x3F800000 = false ∧ f32IsNan 0xFFC00000 = true := by decide

/-- Vectors Q6 and Q7: two samples either side of a tie. -/
theorem witness_CodeIsMonotone :
    scaleLegal 0x3F800000 = true ∧ f32Le 0x3EFFFFFF 0x3F000001 ∧
      qcode 0x3EFFFFFF 0x3F800000 0 4 = some 0 ∧ qcode 0x3F000001 0x3F800000 0 4 = some 1 :=
  ⟨by decide, Or.inr (Or.inr ⟨by decide, by decide, by decide +kernel⟩), by decide +kernel,
    by decide⟩

theorem witness_BoundedWidthGivesSameCode :
    (4 = 2 ∨ 4 = 4) ∧ (-2 ^ 31 : Int) ≤ -2147483648 ∧ (-2147483648 : Int) ≤ 2 ^ 31 - 1 := by decide

theorem witness_ValueIsTwiceRoundedProduct :
    15 ≤ 15 ∧ scaleLegal 0x7F7FFFFF = true ∧ (-2 ^ 31 : Int) ≤ -2147483648 ∧
      (-2147483648 : Int) ≤ 2 ^ 31 - 1 := by decide

theorem witness_SmallIntegerConversionIsExact : |(-16777216 : Int)| ≤ 2 ^ 24 := by decide

/-- Both clauses: the code of the zero point, and another one. -/
theorem witness_ValueHasSignOfDifference :
    scaleLegal 0x00000001 = true ∧ ((8 : Nat) : Int) = 8 ∧ ((15 : Nat) : Int) ≠ -2 ^ 31 ∧
      (-2 ^ 31 : Int) ≤ 8 := by decide

/-- Vector Q31 with 95_test_vectors RT2: quotient 2.5, code 11, zero point 8. -/
theorem witness_RoundTrip :
    let x : Word := 0x3F7FFA20
    let s : Word := 0x3ECCC81A
    let r := roundHaz (quotient x s)
    scaleLegal s = true ∧ f32IsFinite x = true ∧ f32IsFinite (quotient x s) = true ∧
      qcode x s 8 4 = some 11 ∧ 0 ≤ r + 8 ∧ r + 8 ≤ 2 ^ 4 - 1 ∧ |r| ≤ 2 ^ 24 ∧
      f32IsFinite (dqval 11 s 8) = true := by decide +kernel

end Sys2Proof.Tests
end

section
/-! The exact value of a binary32 pattern as sign and magnitude, and `round_haz` on it
(00_scope R12, R14). -/

namespace Sys2Proof.Machine

/-- The magnitude counts units of 2^-149 (00_scope R12). -/
theorem abs_f32Value (b : Word) : |f32Value b| = (f32Magnitude b : ℚ) / 2 ^ 149 := by
  have hnonneg : (0 : ℚ) ≤ (f32Magnitude b : ℚ) / 2 ^ 149 := by positivity
  unfold f32Value
  cases f32Sign b
  case false => simpa using abs_of_nonneg hnonneg
  case true => simpa [neg_div] using abs_of_nonneg hnonneg

/-- A minus sign makes the value negative except on -0.0. -/
theorem f32Value_nonneg_iff (b : Word) :
    0 ≤ f32Value b ↔ f32Sign b = false ∨ f32Magnitude b = 0 := by
  unfold f32Value
  cases f32Sign b
  case false =>
    simp only [Bool.false_eq_true, if_false, one_mul, true_or, iff_true]
    positivity
  case true => simp [neg_div, div_nonpos_iff]

/-- The magnitude of `round_haz`: half a unit more, in units of 2^-150, and rounded down. -/
theorem floor_abs_f32Value_add_half (q : Word) :
    ⌊|f32Value q| + 1 / 2⌋ = ((2 * f32Magnitude q + 2 ^ 149) / 2 ^ 150 : ℕ) := by
  have hfraction : |f32Value q| + 1 / 2
      = ((2 * f32Magnitude q + 2 ^ 149 : ℕ) : ℚ) / ((2 ^ 150 : ℕ) : ℚ) := by
    rw [abs_f32Value]
    push_cast
    ring
  rw [hfraction]
  exact Rat.floor_natCast_div_natCast _ _

/-- R14 with the sign bit in place of the sign of the value. -/
theorem roundHaz_eq_floor (q : Word) :
    roundHaz q = (if f32Sign q then -1 else 1) * ⌊|f32Value q| + 1 / 2⌋ := by
  rw [floor_abs_f32Value_add_half]
  unfold roundHaz
  cases f32Sign q <;> simp

/-- Both zeros round to 0, so their sign does not matter. -/
theorem floor_abs_f32Value_add_half_of_magnitude_zero {q : Word} (hzero : f32Magnitude q = 0) :
    ⌊|f32Value q| + 1 / 2⌋ = 0 := by
  rw [floor_abs_f32Value_add_half, hzero]
  norm_num

/-- Settles O50: the sign bit and the sign of the value differ on -0.0 only, where the magnitude
rounds to 0. -/
theorem roundHazIsTiesAway : Obligations.RoundHazIsTiesAway := by
  intro q _
  rw [roundHaz_eq_floor]
  by_cases hzero : f32Magnitude q = 0
  · rw [floor_abs_f32Value_add_half_of_magnitude_zero hzero, mul_zero, mul_zero]
  · cases hsign : f32Sign q <;> simp [f32Value_nonneg_iff, hsign, hzero]

end Sys2Proof.Machine
end

section
/-! The invariant of sound states (10_state R32, R44; 60_exceptions R172): every operation of the block
and of its host port keeps it. -/

namespace Sys2Proof.Machine

/-! ### The parts of the invariant -/

theorem State.Inv.consistent {s : State} (h : s.Inv) : s.regs.Consistent := h.1

theorem State.Inv.canonical {s : State} (h : s.Inv) : s.mem.wf := h.2.1

theorem State.Inv.running {s : State} (h : s.Inv) (hb : s.regs.busy = true) :
    s.engine.Running ∧ s.ClaimOfRunning := h.2.2 hb

/-- A running command is past none of its units (10_state R44). -/
theorem Engine.Running.idx_le {e : Engine} (h : e.Running) : e.idx.toNat ≤ unitCount e := by
  obtain ⟨-, -, -, -, -, -, -, -, -, -, hidx⟩ := h
  exact hidx

/-- A busy block shows neither `DONE` nor `FAULT` (10_state R32). -/
theorem Regs.Consistent.of_busy {r : Regs} (h : r.Consistent) (hb : r.busy = true) :
    r.done = false ∧ r.fault = false := h.1 hb

/-! ### The status bits (10_state R32) -/

theorem Regs.reset_consistent : Regs.reset.Consistent := by decide

theorem faultedRegs_consistent (r : Regs) (c : BitVec 4) (info : Word) (h1 : 1 ≤ c.toNat)
    (h9 : c.toNat ≤ 9) : (faultedRegs r c info).Consistent :=
  ⟨nofun, nofun, nofun, fun _ => ⟨h1, h9⟩⟩

/-- The registers of a block that was not faulted, with `BUSY` and `DONE` exclusive: those of an accept
and of a completion. -/
theorem Regs.Consistent.withBusyDone {r : Regs} (h : r.Consistent) (hf : r.fault = false)
    (busy done : Bool) (hx : busy = true → done = false) :
    { r with busy := busy, done := done }.Consistent := by
  obtain ⟨-, -, hclear, -⟩ := h
  exact ⟨fun hb => ⟨hx hb, hf⟩, by simp [hf], hclear, by simp [hf]⟩

/-- The write of 1 to clear, field by field (10_state R31). -/
theorem writeStatus_eq (w : Word) (r : Regs) :
    writeStatus w r = { r with
      done := r.done && !w.getLsbD 1
      fault := r.fault && !w.getLsbD 2
      cause := if w.getLsbD 2 then 0 else r.cause
      faultInfo := if w.getLsbD 2 then 0 else r.faultInfo
      rej := r.rej && !w.getLsbD 3 } := by
  simp only [writeStatus]
  split_ifs <;> simp_all only [Bool.not_true, Bool.not_false, Bool.and_true, Bool.and_false,
    Bool.not_eq_true]

/-- A write of 1 to clear keeps the relations: bit 2 clears `CAUSE` and `FAULT_INFO` with `FAULT`. -/
theorem writeStatus_consistent (w : Word) {r : Regs} (h : r.Consistent) :
    (writeStatus w r).Consistent := by
  obtain ⟨hbusy, hexcl, hclear, hset⟩ := h
  rw [writeStatus_eq, Regs.Consistent]
  cases w.getLsbD 2 with
  | true => simp only [Bool.not_true, Bool.and_false, if_true]; grind
  | false => simp only [Bool.not_false, Bool.and_true, Bool.false_eq_true, if_false]; grind

theorem writeRegister_consistent (w : Word) {r : Regs} (h : r.Consistent) (reg : Register) :
    (writeRegister w r reg).Consistent := by
  cases reg with
  | status => exact writeStatus_consistent w h
  | _ => exact h

/-- No host write but that to `CMD` touches `BUSY`. -/
@[simp] theorem writeRegister_busy (w : Word) (r : Regs) (reg : Register) :
    (writeRegister w r reg).busy = r.busy := by
  cases reg with
  | status => rw [writeRegister, writeStatus_eq]
  | _ => rfl

/-! ### The parameters of an accepted command (60_exceptions R172) -/

theorem commandWidth_of_decodeWord {c : Word} {i : Instr} (h : decodeWord c = .command i) :
    commandWidth c = 2 ∨ commandWidth c = 4 := by
  by_cases h4 : (CmdFields.ofWord c).width = 4
  · exact .inr (congrArg BitVec.toNat h4)
  by_cases h2 : (CmdFields.ofWord c).width = 2
  · exact .inl (congrArg BitVec.toNat h2)
  simp only [decodeWord, CmdFields.decode, if_neg h4, if_neg h2] at h
  split_ifs at h

/-- `L.W` holds either width whole. -/
theorem latchedWidth_toNat {w : Nat} (hw : w = 2 ∨ w = 4) : (BitVec.ofNat 3 w).toNat = w := by
  obtain rfl | rfl := hw <;> rfl

/-- Operands that pass checks 2 to 7. -/
theorem validateOperands_eq_none_iff (dir : BitVec 1) (w : Nat) (r : Regs) :
    validateOperands dir w r = none ↔
      (r.srcAddr ≠ 0 ∧ r.dstAddr ≠ 0) ∧ scaleLegal r.scale = true ∧ floatSide dir r % 4 = 0 ∧
      (r.srcAddr.toNat + srcBytes dir w r.len.toNat ≤ Config.memoryBytes ∧
        r.dstAddr.toNat + dstBytes dir w r.len.toNat ≤ Config.memoryBytes) ∧
      (srcBytes dir w r.len.toNat ≤ r.srcCap.toNat ∧ dstBytes dir w r.len.toNat ≤ r.dstCap.toNat) ∧
      rangesMeet r.srcAddr.toNat (srcBytes dir w r.len.toNat) r.dstAddr.toNat
        (dstBytes dir w r.len.toNat) = false := by
  simp only [validateOperands, ite_eq_iff, reduceCtorEq, and_false, false_or, and_true, not_or,
    not_not, Nat.not_lt, gt_iff_lt, ne_eq, Bool.not_eq_true, Bool.not_eq_false]

theorem validate_eq_none {c : Word} {r : Regs} (h : validate c r = none) :
    (commandWidth c = 2 ∨ commandWidth c = 4) ∧
      validateOperands (commandDir c) (commandWidth c) r = none := by
  unfold validate at h
  split at h
  · cases h
  · exact ⟨commandWidth_of_decodeWord ‹_›, h⟩

/-- What an accept latches is a running command with no unit done. -/
theorem acceptCommand_running {c : Word} {s : State} (h : validate c s.regs = none) :
    (acceptCommand c s).engine.Running := by
  obtain ⟨hw, hv⟩ := validate_eq_none h
  obtain ⟨⟨hsrc, hdst⟩, hscale, halign, ⟨hs, hd⟩, -, hmeet⟩ :=
    (validateOperands_eq_none_iff _ _ _).1 hv
  have hfits : ∀ a n, a + n ≤ Config.memoryBytes → (BitVec.ofNat 33 n).toNat = n := by
    intro a n hn
    rw [Config.memoryBytes] at hn
    exact Nat.mod_eq_of_lt (by omega)
  simp only [Engine.Running, acceptCommand_width, acceptCommand_nsrc, acceptCommand_ndst,
    acceptCommand_dir, acceptCommand_len, acceptCommand_src, acceptCommand_dst, acceptCommand_scale,
    acceptCommand_idx, latchedWidth_toNat hw, hfits _ _ hs, hfits _ _ hd]
  refine ⟨?_, trivial, trivial, hsrc, hdst, hscale, halign, hs, hd, hmeet, Nat.zero_le _⟩
  rcases hw with hw | hw <;> simp [hw]

/-- The claim of an accept is the latched command's. -/
theorem acceptCommand_claimOfRunning {c : Word} {s : State} (h : validate c s.regs = none) :
    (acceptCommand c s).ClaimOfRunning := by
  obtain ⟨-, hnsrc, hndst, -⟩ := acceptCommand_running h
  obtain ⟨hw, -⟩ := validate_eq_none h
  rw [acceptCommand_dir, acceptCommand_width, acceptCommand_len,
    latchedWidth_toNat hw] at hnsrc hndst
  exact ⟨_, acceptCommand_current c s, rfl, hnsrc.symm, rfl, hndst.symm⟩

/-! ### The progress of a running command (10_state R44) -/

/-- One more unit done; the two held bytes are no part of the invariant. -/
theorem Engine.Running.next {e : Engine} (h : e.Running) (hidx : e.idx.toNat < unitCount e)
    (acc packed : Byte) :
    { e with idx := e.idx + 1, acc := acc, packed := packed }.Running := by
  have hnext : (e.idx + 1).toNat ≤ unitCount e := by
    rw [BitVec.toNat_add]
    exact (Nat.mod_le _ _).trans hidx
  obtain ⟨hw, hnsrc, hndst, hsrc, hdst, hscale, halign, hs, hd, hmeet, -⟩ := h
  exact ⟨hw, hnsrc, hndst, hsrc, hdst, hscale, halign, hs, hd, hmeet, hnext⟩

/-! ### Rules for the invariant -/

/-- While the block is idle nothing is asked of the engine. -/
theorem State.Inv.of_idle {s : State} (hr : s.regs.Consistent) (hm : s.mem.wf)
    (hb : s.regs.busy = false) : s.Inv :=
  ⟨hr, hm, fun h => by rw [hb] at h; cases h⟩

/-- A step of the host port that leaves `BUSY`, the engine and the running command's claim alone. -/
theorem State.Inv.of_same_engine {s t : State} (h : s.Inv) (hr : t.regs.Consistent) (hm : t.mem.wf)
    (hb : t.regs.busy = s.regs.busy) (he : t.engine = s.engine)
    (hc : s.regs.busy = true → t.port.current = s.port.current) : t.Inv := by
  refine ⟨hr, hm, fun hbusy => ?_⟩
  rw [hb] at hbusy
  obtain ⟨hrunning, hclaim⟩ := h.running hbusy
  rw [State.ClaimOfRunning, he, hc hbusy]
  exact ⟨hrunning, hclaim⟩

theorem consumeInput_inv {s : State} (h : s.Inv) : (consumeInput s).Inv := h

theorem drawDestination_wf {s : State} (h : s.mem.wf) : (drawDestination s).mem.wf :=
  Memory.drawRange_wf _ _ _ _ h

/-! ### The `CMD` write and the engine -/

theorem raiseFault_inv {t : Trap} {s : State} (h1 : 1 ≤ (causeCode t.cause).toNat)
    (h9 : (causeCode t.cause).toNat ≤ 9) (hm : s.mem.wf) : (raiseFault t s).Inv := by
  refine State.Inv.of_idle ?_ ?_ (by rw [raiseFault_regs]; rfl)
  · rw [raiseFault_regs]
    exact faultedRegs_consistent _ _ _ h1 h9
  · rw [raiseFault_mem]
    split
    · exact drawDestination_wf hm
    · exact hm

theorem causeCode_of_execution {c : Cause} (h : causeIsExecution c = true) :
    1 ≤ (causeCode c).toNat ∧ (causeCode c).toNat ≤ 9 := by
  cases c with
  | nanSample | busError => decide
  | _ => cases h

theorem raiseFault_inv_of_execution {t : Trap} {s : State} (h : causeIsExecution t.cause = true)
    (hm : s.mem.wf) : (raiseFault t s).Inv :=
  raiseFault_inv (causeCode_of_execution h).1 (causeCode_of_execution h).2 hm

theorem commandWrite_inv (c : Word) {s : State} (h : s.Inv) : (commandWrite c s).Inv := by
  obtain ⟨-, hw⟩ | ⟨-, -, t, ht, hw⟩ | ⟨-, hf, hv, hw⟩ := commandWrite_cases c s <;> rw [hw]
  · exact h
  · obtain ⟨-, h1, h9⟩ := validate_cause c s.regs t ht
    exact raiseFault_inv h1 h9 h.canonical
  · exact ⟨h.consistent.withBusyDone hf true false fun _ => rfl, h.canonical,
      fun _ => ⟨acceptCommand_running hv, acceptCommand_claimOfRunning hv⟩⟩

theorem completeCommand_inv {s : State} (h : s.Inv) (hb : s.regs.busy = true) :
    (completeCommand s).Inv := by
  obtain ⟨-, hf⟩ := h.consistent.of_busy hb
  refine State.Inv.of_idle ?_ ?_ (by rw [completeCommand_regs])
  · rw [completeCommand_regs]
    exact h.consistent.withBusyDone hf false true nofun
  · rw [completeCommand_mem]
    split
    · exact drawDestination_wf h.canonical
    · exact h.canonical

/-- The end of a unit: memory has changed, one more unit is done, and the two held bytes are free. -/
theorem State.Inv.next_unit {s t : State} (h : s.Inv) (hidx : s.engine.idx.toNat < unitCount s.engine)
    (hr : t.regs = s.regs) (hm : t.mem.wf) (acc packed : Byte)
    (he : t.engine = { s.engine with idx := s.engine.idx + 1, acc := acc, packed := packed })
    (hc : t.port.current = s.port.current) : t.Inv := by
  refine ⟨hr ▸ h.consistent, hm, fun hb => ?_⟩
  obtain ⟨hrunning, hclaim⟩ := h.running (hr ▸ hb)
  rw [State.ClaimOfRunning, he, hc]
  exact ⟨hrunning.next hidx acc packed, hclaim⟩

theorem quantizeUnit_inv (w : Nat) {s : State} (h : s.Inv)
    (hidx : s.engine.idx.toNat < unitCount s.engine) : (quantizeUnit w s).Inv := by
  have hm := h.canonical
  obtain ⟨t, ht, hu⟩ | ⟨acc, -, -, hu⟩ := quantizeUnit_cases w s <;> rw [hu]
  · exact raiseFault_inv_of_execution ht hm
  · exact h.next_unit hidx rfl (Memory.writeByte_wf _ _ _ hm) _ s.engine.packed rfl rfl

theorem dequantizeUnit_inv (w : Nat) {s : State} (h : s.Inv)
    (hidx : s.engine.idx.toNat < unitCount s.engine) : (dequantizeUnit w s).Inv := by
  have hm := h.canonical
  have hloop : ∀ {b m o}, unpackSlots w s.engine.idx.toNat b s.engine s.platform
      (List.range (groupSize w)) s.mem = (m, o) → Memory.wf m := by
    intro b m o hu
    have hwf := (unpackSlots_spec w s.engine.idx.toNat b s.engine s.platform
      (List.range (groupSize w)) s.mem).1 hm
    rwa [hu] at hwf
  obtain ⟨t, ht, -, hu⟩ | ⟨t, m, b, ht, hl, hu⟩ | ⟨m, b, -, hl, hu⟩ := dequantizeUnit_cases w s <;>
    rw [hu]
  · exact raiseFault_inv_of_execution ht hm
  · exact raiseFault_inv_of_execution ht (hloop hl)
  · exact h.next_unit hidx rfl (hloop hl) s.engine.acc _ rfl rfl

theorem unitOf_inv (i : Instr) {s : State} (h : s.Inv)
    (hidx : s.engine.idx.toNat < unitCount s.engine) : (unitOf i s).Inv := by
  cases i with
  | quantizeUint4 => exact quantizeUnit_inv 4 h hidx
  | dequantizeUint4 => exact dequantizeUnit_inv 4 h hidx
  | quantizeUint2 => exact quantizeUnit_inv 2 h hidx
  | dequantizeUint2 => exact dequantizeUnit_inv 2 h hidx

theorem engineStep_inv (i : Instr) {s t : State} (h : s.Inv) (hb : s.regs.busy = true)
    (hs : engineStep (unitOf i) s = .next t) : t.Inv := by
  obtain ⟨hidx, rfl⟩ | ⟨-, rfl⟩ := engineStep_cases _ s t hs
  · exact unitOf_inv i h hidx
  · exact completeCommand_inv h hb

/-! ### The host port -/

/-- While the engine is busy `STATUS` shows no end of a command, so a read of it ends no claim. -/
theorem observeStatus_current_of_busy {s : State} (h : s.regs.Consistent) (hb : s.regs.busy = true) :
    (observeStatus s).port.current = s.port.current := by
  obtain ⟨hd, hf⟩ := h.of_busy hb
  simp [hd, showsExecutionFault, hf]

theorem hostReadRegister_inv (reg : Register) {s : State} (h : s.Inv) :
    (hostReadRegister reg s).Inv := by
  refine h.of_same_engine ?_ ?_ ?_ (hostReadRegister_engine reg s) fun hb => ?_
  · rw [hostReadRegister_regs]
    exact h.consistent
  · rw [hostReadRegister_mem]
    exact h.canonical
  · rw [hostReadRegister_regs]
  · rw [hostReadRegister_current, observeStatus_current_of_busy h.consistent hb, ite_self]

theorem hostWriteRegister_inv (reg : Register) (w : Word) {s : State} (h : s.Inv) :
    (hostWriteRegister reg w s).Inv := by
  unfold hostWriteRegister
  split
  · exact commandWrite_inv w h
  · exact h.of_same_engine (writeRegister_consistent w h.consistent reg) h.canonical
      (writeRegister_busy w _ reg) rfl fun _ => rfl

theorem drawEnded_wf (d : Nat) (kind : AccessKind) (a n : Nat) (cs : List Claim) {m : Memory}
    (h : m.wf) : (drawEnded d kind a n cs m).wf :=
  (drawEnded_readByte d kind a n 0 cs m h).1

/-- A noted access leaves the ranges of every claim alone. -/
theorem noteHostAccess_inv (kind : AccessKind) (a n : Nat) {s : State} (h : s.Inv) :
    (noteHostAccess kind a n s).Inv := by
  obtain ⟨-, hn⟩ | ⟨-, hn⟩ := noteHostAccess_cases kind a n s <;> rw [hn]
  · exact h
  · refine ⟨h.consistent, drawEnded_wf _ _ _ _ _ h.canonical, fun hb => ?_⟩
    obtain ⟨hrunning, c, hc, hranges⟩ := h.running hb
    exact ⟨hrunning, c.noteAccess (s.port.draws + 1) kind a n, by simp [hc], hranges⟩

theorem hostLoadMemory_inv (a n : Nat) {s : State} (h : s.Inv) : (hostLoadMemory a n s).Inv :=
  noteHostAccess_inv .read a n h

theorem hostStoreMemory_inv (a n : Nat) (v : BitVec 64) {s : State} (h : s.Inv) :
    (hostStoreMemory a n v s).Inv :=
  noteHostAccess_inv .write a n ⟨h.consistent, Memory.writeBytes_wf _ _ _ h.canonical, h.running⟩

/-- Everything a host read can do, by its address. -/
theorem hostLoad_cases (addr : Word) (size : Size) (s : State) :
    hostLoad addr size s = .next (hostReadRegister (registerAt s.platform addr) s) ∨
    hostLoad addr size s = .refused (.registerAccessForm addr size) ∨
    hostLoad addr size s = .next (hostLoadMemory addr.toNat size.bytes s) ∨
    hostLoad addr size s = .fault (.hostAccessOutsideMemory addr) := by
  unfold hostLoad
  split_ifs <;> simp

/-- Everything a host write can do, by its address. -/
theorem hostStore_cases (addr : Word) (size : Size) (data : BitVec 64) (s : State) :
    hostStore addr size data s =
      .next (hostWriteRegister (registerAt s.platform addr) (data.setWidth 32) s) ∨
    hostStore addr size data s = .refused (.registerAccessForm addr size) ∨
    hostStore addr size data s = .next (hostStoreMemory addr.toNat size.bytes data s) ∨
    hostStore addr size data s = .fault (.hostAccessOutsideMemory addr) := by
  unfold hostStore
  split_ifs <;> simp

/-- An outcome whose next state, if it has one, is sound, and which is not the stop of log 16. -/
def SoundOutcome : Host.Outcome State Fault Refusal → Prop
  | .next t => t.Inv
  | .fault r => r ≠ .noEnabledStep
  | .refused _ => True

theorem hostLoad_sound (addr : Word) (size : Size) {s : State} (h : s.Inv) :
    SoundOutcome (consumeAfter (hostLoad addr size s)) := by
  obtain ho | ho | ho | ho := hostLoad_cases addr size s <;> rw [ho]
  · exact hostReadRegister_inv _ h
  · trivial
  · exact hostLoadMemory_inv _ _ h
  · exact nofun

theorem hostStore_sound (addr : Word) (size : Size) (data : BitVec 64) {s : State} (h : s.Inv) :
    SoundOutcome (consumeAfter (hostStore addr size data s)) := by
  obtain ho | ho | ho | ho := hostStore_cases addr size data s <;> rw [ho]
  · exact hostWriteRegister_inv _ _ h
  · trivial
  · exact hostStoreMemory_inv _ _ _ h
  · exact nofun

theorem pollStatus_inv {s : State} (h : s.Inv) : (pollStatus s).Inv := by
  have ht := hostReadRegister_inv .status h
  unfold pollStatus
  split <;> exact ht

theorem resetBlock_inv {s : State} (h : s.Inv) : (resetBlock s).Inv := by
  refine State.Inv.of_idle ?_ ?_ (by rw [resetBlock_regs]; rfl)
  · rw [resetBlock_regs]
    exact Regs.reset_consistent
  · rw [resetBlock_mem]
    split
    · exact drawDestination_wf h.canonical
    · exact h.canonical

/-! ### The step -/

/-- A running command is one of the four, so it has the turn when the engine has. -/
theorem Engine.Running.exists_instr {e : Engine} (h : e.Running) :
    ∃ i, e.dir = instrDir i ∧ e.width.toNat = instrWidth i := by
  obtain ⟨hw, -⟩ := h
  obtain hd | hd := BitVec.eq_zero_or_eq_one e.dir <;> obtain hw | hw := hw
  · exact ⟨.quantizeUint2, hd, by rw [hw]; rfl⟩
  · exact ⟨.quantizeUint4, hd, by rw [hw]; rfl⟩
  · exact ⟨.dequantizeUint2, hd, by rw [hw]; rfl⟩
  · exact ⟨.dequantizeUint4, hd, by rw [hw]; rfl⟩

/-- A step of the engine in a sound busy state: the unit or the completion step is enabled. -/
theorem engineStep_sound (i : Instr) {s : State} (h : s.Inv) (hb : s.regs.busy = true) :
    SoundOutcome (engineStep (unitOf i) s) := by
  obtain ⟨hrunning, -⟩ := h.running hb
  cases hs : engineStep (unitOf i) s with
  | next t => exact engineStep_inv i h hb hs
  | fault r => exact absurd hrunning.idx_le (Nat.not_le.2 (engineStep_fault _ _ _ hs))
  | refused r => trivial

/-- Every step from a sound state, by the oldest input. -/
theorem step_sound {s : State} (h : s.Inv) : SoundOutcome (step s) := by
  obtain ⟨-, -, hs⟩ | ⟨-, hb, i, -, hs⟩ | ⟨ht, hb, hno, -⟩ | ⟨addr, size, -, -, hs⟩ |
    ⟨addr, size, data, -, -, ⟨i, -, -, hs⟩ | hs⟩ | ⟨-, -, hs⟩ | ⟨-, -, hs⟩ := step_cases s
  · rw [hs]; exact h
  · rw [hs]; exact engineStep_sound i (consumeInput_inv h) hb
  · obtain ⟨hrunning, -⟩ := h.running hb
    obtain ⟨i, hd, hw⟩ := hrunning.exists_instr
    exact absurd ⟨ht, hb, hd, hw⟩ (hno i)
  · rw [hs]; exact hostLoad_sound addr size h
  · rw [hs]; exact commandWrite_inv _ (consumeInput_inv h)
  · rw [hs]; exact hostStore_sound addr size data h
  · rw [hs]; exact pollStatus_inv h
  · rw [hs]; exact consumeInput_inv (resetBlock_inv h)

/-- Settles O31: by `step_sound`, the case split over everything a step can do. -/
theorem everyStepKeepsSoundness : Obligations.EveryStepKeepsSoundness := by
  intro s t h hs
  have hsound := step_sound h
  rwa [hs] at hsound

/-- Settles O32: a validated command is one of the four, and `IDX` is never past its units. -/
theorem engineNeverStuck : Obligations.EngineNeverStuck := by
  intro s h hs
  have hsound := step_sound h
  rw [hs] at hsound
  exact hsound rfl

/-- Settles O30: right after reset the block is idle and memory lists nothing. -/
theorem resetStateIsSound : Obligations.ResetStateIsSound :=
  State.Inv.of_idle Regs.reset_consistent (by decide) rfl

end Sys2Proof.Machine
end

section
/-! Register accesses of the host (10_state R20 to R25, R31 to R43): the step that handles one, and the
command a step runs. -/

namespace Sys2Proof.Machine

/-! ### The registers of the window (10_state R20) -/

theorem Register.ofOffset_eq_cmd_iff (off : Nat) : Register.ofOffset off = .cmd ↔ off / 4 = 0 := by
  unfold Register.ofOffset
  generalize off / 4 = n
  split <;> simp_all

theorem Register.ofOffset_eq_status_iff (off : Nat) :
    Register.ofOffset off = .status ↔ off / 4 = 1 := by
  unfold Register.ofOffset
  generalize off / 4 = n
  split <;> simp_all

theorem Register.ofOffset_of_reserved {off : Nat} (h : 0x2C ≤ off) :
    Register.ofOffset off = .reserved := by
  obtain ⟨n, hn⟩ : ∃ n, off / 4 = n + 11 := ⟨off / 4 - 11, by omega⟩
  rw [Register.ofOffset, hn]
  rfl

/-! ### The step that handles a register access -/

/-- A step that handles an aligned 32-bit read of the window. -/
theorem step_of_load_register {s : State} {addr : Word} {rest : List Input} {off : Nat}
    (hi : s.port.inputs = .load addr .word :: rest) (ha : addr.toNat = s.platform.base + off)
    (ho : off < 256) (h4 : off % 4 = 0) :
    step s = .next (consumeInput (hostReadRegister (Register.ofOffset off) s)) := by
  obtain ⟨htouch, hlegal, hreg⟩ := registerAccess_spec s.platform addr off ha ho h4
  have hl : hostLoad addr .word s = .next (hostReadRegister (Register.ofOffset off) s) := by
    rw [hostLoad, if_pos htouch, if_pos hlegal, hreg]
  simp only [step, nextAction, hi, hl, consumeAfter]

/-- A step that handles an aligned 32-bit write of the window beside `CMD`. -/
theorem step_of_store_register {s : State} {addr : Word} {data : BitVec 64} {rest : List Input}
    {off : Nat} (hi : s.port.inputs = .store addr .word data :: rest)
    (ha : addr.toNat = s.platform.base + off) (ho : off < 256) (h4 : off % 4 = 0) (h0 : off ≠ 0) :
    step s = .next { consumeInput s with
      regs := writeRegister (data.setWidth 32) s.regs (Register.ofOffset off) } := by
  obtain ⟨htouch, hlegal, hreg⟩ := registerAccess_spec s.platform addr off ha ho h4
  have hcmd : isCommandWrite s addr .word = false := by
    rw [isCommandWrite, decide_eq_false (by omega), Bool.false_and]
  have hne : Register.ofOffset off ≠ .cmd := by
    rw [Ne, Register.ofOffset_eq_cmd_iff]
    omega
  have hst : hostStore addr .word data s = .next { s with
      regs := writeRegister (data.setWidth 32) s.regs (Register.ofOffset off) } := by
    rw [hostStore, if_pos htouch, if_pos hlegal, hreg, hostWriteRegister, if_neg hne]
  simp only [step, nextAction, hi, storeAction, hcmd, Bool.false_eq_true, if_false, hst, consumeAfter]
  rfl

/-- A step that handles a host access of a form the window does not take (10_state R21). -/
theorem step_of_misformed_access {s : State} {addr : Word} {size : Size} {data : BitVec 64}
    {rest : List Input}
    (hi : s.port.inputs = .load addr size :: rest ∨ s.port.inputs = .store addr size data :: rest)
    (htouch : touchesWindow s.platform addr.toNat size.bytes = true)
    (hlegal : registerAccessLegal addr size = false) :
    step s = .refused (.registerAccessForm addr size) := by
  have hne : ¬ registerAccessLegal addr size = true := by simp [hlegal]
  obtain hi | hi := hi
  · have hl : hostLoad addr size s = .refused (.registerAccessForm addr size) := by
      rw [hostLoad, if_pos htouch, if_neg hne]
    simp only [step, nextAction, hi, hl, consumeAfter]
  · have hst : hostStore addr size data s = .refused (.registerAccessForm addr size) := by
      rw [hostStore, if_pos htouch, if_neg hne]
    have hcmd : isCommandWrite s addr size = false := by
      rw [isCommandWrite, hlegal, Bool.and_false]
    simp only [step, nextAction, hi, storeAction, hcmd, Bool.false_eq_true, if_false, hst, consumeAfter]

/-- A step in a turn of the engine that runs command `i`. -/
theorem step_of_engineRuns {s : State} {i : Instr} (h : EngineRuns i s) : step s = exec i s := by
  obtain ⟨hturn, hbusy, hlatched⟩ := h
  have hnext : nextAction s = engineAction s := by
    unfold engineTurn at hturn
    unfold nextAction
    split at hturn <;> simp_all
  simp only [step, hnext, engineAction, hbusy, if_true, (decode_latchedWord s.engine i).2 hlatched]

/-- A step that handles the `CMD` write of a legal word. -/
theorem step_of_commandArrives {s : State} {c : Word} {i : Instr} (h : CommandArrives c s)
    (hd : decodeWord c = .command i) : step s = exec i s := by
  obtain ⟨-, addr, data, rest, hi, hcmd, rfl, -⟩ := commandArrives_spec s c h
  simp only [step, nextAction, hi, storeAction, hcmd, if_true, hd]

/-- A table word that the outside places is the host's write of that word to `CMD` (log 17). -/
theorem commandArrives_withFetchWord (s : State) (c : Word) :
    CommandArrives c (s.withFetchWord 32 c.toNat) := by
  have hbase := (Platform.base_spec s.platform).2
  refine ⟨_, _, _, rfl, ?_, ?_⟩
  · rw [Config.memoryBytes] at hbase
    rw [Register.offset, Nat.add_zero, BitVec.toNat_ofNat, Nat.mod_eq_of_lt (by omega)]
    rfl
  · rw [Nat.mod_eq_of_lt c.isLt, BitVec.ofNat_toNat, BitVec.setWidth_setWidth_of_le _ (by omega),
      BitVec.setWidth_eq, BitVec.setWidth_eq]

/-! ### What register accesses do, and which command a step runs -/

/-- Settles O37: by the step of an aligned read, what `hostReadRegister` answers and observes. -/
theorem registerReadAnswersValue : Obligations.RegisterReadAnswersValue := by
  intro s addr rest off hi ha ho h4 executionFault
  have hstatus : Register.ofOffset off = .status ↔ off = 0x04 := by
    rw [Register.ofOffset_eq_status_iff]
    omega
  refine ⟨_, readRegister s.regs (Register.ofOffset off), step_of_load_register hi ha ho h4,
    by simp, by simp, by simp, by simp, by simp, by simp [hi], fun h => ?_, fun h => ?_, ?_⟩
  · have hend := showsExecutionFault_iff s.regs
    simp only [consumeInput_current, consumeInput_unobserved, hostReadRegister_current,
      hostReadRegister_unobserved, if_pos (hstatus.2 h), observeStatus_current,
      observeStatus_unobserved]
    refine ⟨fun hd => by simp [hd], fun hd he => ?_, fun hd he => ?_⟩
    · simp [hd, hend.2 he]
    · simp [hd, mt hend.1 he]
  · have hne := mt hstatus.1 h
    simp [hne]
  · refine ⟨?_, ?_, ?_, ?_, ?_, ?_, ?_, ?_, ?_, ?_, ?_, fun h => ?_⟩
    on_goal 12 => rw [Register.ofOffset_of_reserved h]; rfl
    all_goals rintro rfl; rfl

/-- Settles O38: the step of an aligned write at offset 4 is `writeStatus`, read field by field. -/
theorem statusWriteClearsBits : Obligations.StatusWriteClearsBits := by
  intro s addr data rest hi ha
  have hreg : Register.ofOffset 0x04 = .status := rfl
  rw [step_of_store_register hi ha (by decide) (by decide) (by decide), hreg, writeRegister,
    writeStatus_eq]
  simp

/-- Settles O39: one step lemma for every offset but that of `CMD`, read at each offset. -/
theorem registerWriteChangesItsRegister : Obligations.RegisterWriteChangesItsRegister := by
  intro s addr data rest off hi ha ho h4 v becomes
  have hstep : off ≠ 0 → becomes (writeRegister v s.regs (Register.ofOffset off)) :=
    step_of_store_register hi ha ho h4
  refine ⟨?_, ?_, ?_, ?_, ?_, ?_, ?_, ?_, ?_, fun h => ?_⟩
  on_goal 10 =>
    have hreserved := hstep (by omega)
    rwa [Register.ofOffset_of_reserved h] at hreserved
  all_goals rintro rfl; exact hstep (by decide)

/-- Settles O40: the access shares a byte with the window, and no other form is legal. -/
theorem misformedRegisterAccessRefused : Obligations.MisformedRegisterAccessRefused := by
  intro s addr size data rest hi hlt hgt hform
  have hbytes : 0 < size.bytes := by cases size <;> decide
  refine step_of_misformed_access hi ?_ ?_
  · rw [touchesWindow, rangesMeet_iff]
    exact ⟨hbytes, by decide, hlt, hgt⟩
  · rw [registerAccessLegal, decide_eq_false_iff_not, Size.wellFormedAt]
    tauto

/-- Settles O6: the host's `CMD` write, the engine's turn, and the input `withFetchWord` places. -/
theorem stepRunsDecodedCommand : Obligations.StepRunsDecodedCommand :=
  ⟨fun _ _ _ => step_of_commandArrives, fun _ _ => step_of_engineRuns,
    fun s i => commandArrives_withFetchWord s (encode i)⟩

/-! ### The words a host reads (10_state R25, R47) -/

/-- The left part of a concatenation stands above the right one. -/
theorem toNat_append_eq_mul_add {n m : Nat} (x : BitVec n) (y : BitVec m) :
    (x ++ y).toNat = x.toNat * 2 ^ m + y.toNat := by
  rw [BitVec.toNat_append, ← Nat.shiftLeft_add_eq_or_of_lt y.isLt, Nat.shiftLeft_eq]

/-- Settles O41: a concatenation is a sum of its parts at their places. -/
theorem statusWordFields : Obligations.StatusWordFields := by
  intro r
  simp only [statusWord, toNat_append_eq_mul_add, BitVec.toNat_ofBool, BitVec.toNat_ofNat]
  omega

/-- Settles O35: a closed fact about one state. -/
theorem resetValues : Obligations.ResetValues := by
  unfold Obligations.ResetValues
  decide

end Sys2Proof.Machine
end

section
/-! Accesses to system memory: the words of the engine, the bytes of the host, and the window that answers
the engine with a bus error (20_memory R51 to R54, R59). -/

namespace Sys2Proof.Machine

/-! ### The engine's words (20_memory R51, R53, R54) -/

/-- Settles O47: the byte `a + k` lies in both ranges, so they meet. -/
theorem ownWindowAnswersBusError : Obligations.OwnWindowAnswersBusError := by
  intro p a n k kind hk hlo hhi
  have htouch : touchesWindow p a n = true := by
    rw [touchesWindow, rangesMeet_iff, Config.windowBytes]
    omega
  rw [busError, htouch, Bool.true_or, Bool.true_or]

theorem engineByte_of_no_draw {s : State} (h : sourceDraw s = none) (a : Nat) :
    engineByte s a = s.mem.readByte a := by
  rw [engineByte, h]

/-- Settles O46: without a race the oracle's bytes are those in memory, and a concatenation is the sum
of its parts at their places. -/
theorem wordReadIsLittleEndian : Obligations.WordReadIsLittleEndian := by
  intro s a hdraw hbus
  refine ⟨_, by rw [memRead4, hbus]; rfl, ?_⟩
  simp only [engineByte_of_no_draw hdraw, toNat_append_eq_mul_add]
  ring

/-- A write of the low bytes of a value: each address reads its byte of the value. -/
theorem Memory.readByte_writeBytes_littleEndian {m : Memory} {a n k : Nat} (v : BitVec 64) (hm : m.wf)
    (ha : a + n ≤ Config.memoryBytes) (hk : k < n) :
    (m.writeBytes a (littleEndianBytes n v)).readByte (a + k) = v.extractLsb' (8 * k) 8 := by
  rw [Memory.readByte_writeBytes_same _ _ _ k hm (by rwa [littleEndianBytes_length])
    (by rwa [littleEndianBytes_length]), littleEndianBytes_getElem]

/-- A write of the low bytes of a value leaves every other address alone. -/
theorem Memory.readByte_writeBytes_littleEndian_other {m : Memory} {a n b : Nat} (v : BitVec 64)
    (hb : b < a ∨ a + n ≤ b) :
    (m.writeBytes a (littleEndianBytes n v)).readByte b = m.readByte b :=
  Memory.readByte_writeBytes_other _ _ _ _ (by rwa [littleEndianBytes_length])

/-- Settles O45: an access that answers lies in memory whole, so each of its four bytes is written. -/
theorem wordWriteIsLittleEndian : Obligations.WordWriteIsLittleEndian := by
  intro p m a v hm
  refine ⟨(memWrite4_none p m a v).2, fun hbus => ⟨_, (memWrite4_eq _ _ _ _ _).2 ⟨hbus, rfl⟩, ?_⟩⟩
  obtain ⟨hfits, -⟩ := busError_false p a 4 .write hbus
  have hbyte : ∀ k, k < 4 → (m.writeBytes a (littleEndianBytes 4 (v.setWidth 64))).readByte (a + k) =
      v.extractLsb' (8 * k) 8 := fun k hk => by
    rw [Memory.readByte_writeBytes_littleEndian _ hm hfits hk,
      BitVec.extractLsb'_setWidth_of_le (by omega)]
  exact ⟨hbyte 0 (by decide), hbyte 1 (by decide), hbyte 2 (by decide), hbyte 3 (by decide),
    fun _ => Memory.readByte_writeBytes_littleEndian_other _⟩

/-! ### Host accesses without a race (20_memory R59, R71) -/

theorem noteHostAccess_of_no_race {kind : AccessKind} {a n : Nat} {s : State}
    (h : s.port.claims.any (·.races kind a n) = false) : noteHostAccess kind a n s = s := by
  rw [noteHostAccess, h]
  rfl

/-- Settles O48: without a race the write of the value's bytes is all that happens. -/
theorem hostStoreWritesItsBytes : Obligations.HostStoreWritesItsBytes := by
  intro s addr size data rest hm hi hw hfits hrace
  have hstore : hostStoreMemory addr.toNat size.bytes data s =
      { s with mem := s.mem.writeBytes addr.toNat (littleEndianBytes size.bytes data) } :=
    noteHostAccess_of_no_race hrace
  refine ⟨_, step_of_store_memory s addr size data rest hi hw hfits, ?_⟩
  rw [hstore]
  exact ⟨fun k hk => Memory.readByte_writeBytes_littleEndian data hm hfits hk,
    fun a ha => Memory.readByte_writeBytes_littleEndian_other data ha, rfl, rfl, rfl, rfl⟩

/-- The value of bytes is their numeral in base 256, the first the lowest digit. -/
theorem littleEndianValue_eq_ofDigits (bs : List Byte) :
    littleEndianValue bs = Nat.ofDigits 256 (bs.map BitVec.toNat) := by
  induction bs with
  | nil => rfl
  | cons b bs ih => rw [littleEndianValue, ih, List.map_cons, Nat.ofDigits_cons]

theorem forall_mem_map_toNat_lt {bs : List Byte} : ∀ d ∈ bs.map BitVec.toNat, d < 256 := by
  simp only [List.mem_map]
  rintro _ ⟨b, -, rfl⟩
  exact b.isLt

theorem littleEndianValue_lt (bs : List Byte) : littleEndianValue bs < 256 ^ bs.length := by
  have hlt := Nat.ofDigits_lt_base_pow_length (by decide) (forall_mem_map_toNat_lt (bs := bs))
  rwa [← littleEndianValue_eq_ofDigits, List.length_map] at hlt

/-- The digit of weight `256 ^ k` is byte `k`. -/
theorem littleEndianValue_digit {bs : List Byte} {k : Nat} (hk : k < bs.length) :
    littleEndianValue bs / 256 ^ k % 256 = bs[k].toNat := by
  rw [littleEndianValue_eq_ofDigits,
    Nat.ofDigits_div_pow_eq_ofDigits_drop k (by decide) _ forall_mem_map_toNat_lt, ← List.map_drop,
    List.drop_eq_getElem_cons hk, List.map_cons, Nat.ofDigits_cons, Nat.add_mul_mod_self_left]
  exact Nat.mod_eq_of_lt bs[k].isLt

/-- The bytes of the value of at most 8 bytes are those bytes. -/
theorem extractLsb'_littleEndianValue {bs : List Byte} (hlen : bs.length ≤ 8) {k : Nat}
    (hk : k < bs.length) :
    (BitVec.ofNat 64 (littleEndianValue bs)).extractLsb' (8 * k) 8 = bs[k] := by
  have hlt : littleEndianValue bs < 2 ^ 64 :=
    (littleEndianValue_lt bs).trans_le (Nat.pow_le_pow_right (by decide) hlen)
  apply BitVec.eq_of_toNat_eq
  rw [BitVec.extractLsb'_toNat, BitVec.toNat_ofNat, Nat.mod_eq_of_lt hlt, Nat.shiftRight_eq_div_pow,
    pow_mul]
  exact littleEndianValue_digit hk

theorem sizeBytes_le_eight (size : Size) : size.bytes ≤ 8 := by cases size <;> decide

/-- Settles O26: without a race the load answers the value of its bytes, and no claim notes it. -/
theorem hostLoadAnswersItsBytes : Obligations.HostLoadAnswersItsBytes := by
  intro s addr size rest hi hw hfits hrace
  have hnote := noteHostAccess_of_no_race hrace
  refine ⟨_, hostLoadValue addr.toNat size.bytes s, step_of_load_memory s addr size rest hi hw hfits, ?_⟩
  simp only [hostLoadMemory, hnote]
  refine ⟨rfl, fun k hk => ?_, rfl, rfl, rfl, rfl⟩
  have hlen : (s.mem.readBytes addr.toNat size.bytes).length = size.bytes := by simp [Memory.readBytes]
  rw [hostLoadValue, hrace, if_neg Bool.false_ne_true,
    extractLsb'_littleEndianValue (by rw [hlen]; exact sizeBytes_le_eight size) (by rwa [hlen])]
  simp [Memory.readBytes]

end Sys2Proof.Machine
end

section
/-! Host accesses that race with a command whose end no host has observed (20_memory R72; 70_reset R216,
R217; log 10). -/

namespace Sys2Proof.Machine

/-! ### What a racing access does -/

/-- `t` is `s` after the step of a host access to `[a, a + n)` that races with an open claim, beside what
it answers: the claims note it, and the ended ones it races with are drawn. -/
structure RacingAccess (kind : AccessKind) (a n : Nat) (s t : State) : Prop where
  regs : t.regs = s.regs
  engine : t.engine = s.engine
  inputs : t.port.inputs = s.port.inputs.tail
  current : t.port.current = s.port.current.map (Claim.noteAccess (s.port.draws + 1) kind a n)
  drawn : ∀ c ∈ endedClaims s, c.races kind a n = true → ∀ b, c.dst ≤ b → b < c.dst + c.ndst →
    b < 2 ^ 32 → t.mem.readByte b = Config.drawByte s.port.draws b
  kept : ∀ b, (∀ c ∈ endedClaims s, ¬ (c.dst ≤ b ∧ b < c.dst + c.ndst)) →
    (kind = .write → b < a ∨ a + n ≤ b) → t.mem.readByte b = s.mem.readByte b

theorem claims_any_races {kind : AccessKind} {a n : Nat} {s : State} {c : Claim}
    (hc : c ∈ s.port.claims) (hr : c.races kind a n = true) :
    s.port.claims.any (·.races kind a n) = true :=
  List.any_eq_true.2 ⟨c, hc, hr⟩

theorem noteHostAccess_of_race {kind : AccessKind} {a n : Nat} {s : State}
    (h : s.port.claims.any (·.races kind a n) = true) :
    (noteHostAccess kind a n s).mem = drawEnded s.port.draws kind a n (endedClaims s) s.mem ∧
      (noteHostAccess kind a n s).port.current =
        s.port.current.map (Claim.noteAccess (s.port.draws + 1) kind a n) := by
  rw [noteHostAccess, if_pos h]
  exact ⟨rfl, rfl⟩

/-- The step of a load that races answers draws. -/
theorem step_of_racing_load {s : State} {addr : Word} {size : Size} {rest : List Input} {c : Claim}
    (hm : s.mem.wf) (hi : s.port.inputs = .load addr size :: rest)
    (hw : touchesWindow s.platform addr.toNat size.bytes = false)
    (hfits : addr.toNat + size.bytes ≤ 2 ^ 32) (hc : c ∈ s.port.claims)
    (hr : c.races .read addr.toNat size.bytes = true) :
    ∃ t, step s = .next t ∧ RacingAccess .read addr.toNat size.bytes s t ∧
      t.port.replies = BitVec.ofNat 64 (littleEndianValue ((List.range size.bytes).map fun k =>
        Config.drawByte (s.port.draws + 2) (addr.toNat + k))) :: s.port.replies := by
  have hany := claims_any_races hc hr
  obtain ⟨hmem, hcurrent⟩ := noteHostAccess_of_race hany
  have hdrawn := fun b => drawEnded_readByte s.port.draws .read addr.toNat size.bytes b
    (endedClaims s) s.mem hm
  refine ⟨_, step_of_load_memory s addr size rest hi hw hfits,
    ⟨by simp [hostLoadMemory], by simp [hostLoadMemory], by simp [hostLoadMemory], ?_, ?_, ?_⟩, ?_⟩
  · simpa [hostLoadMemory] using hcurrent
  · intro c hc hr b hlo hhi hb
    obtain ⟨-, hin, -⟩ := hdrawn b
    rw [consumeInput_mem, hostLoadMemory, hmem]
    exact hin ⟨c, hc, hr, hlo, hhi⟩ hb
  · intro b hb _
    obtain ⟨-, -, hout, -⟩ := hdrawn b
    rw [consumeInput_mem, hostLoadMemory, hmem]
    exact hout fun c hc _ => hb c hc
  · simp [hostLoadMemory, hostLoadValue, hany]

/-- The step of a store that races draws the ended claims after its bytes are written. -/
theorem step_of_racing_store {s : State} {addr : Word} {size : Size} {data : BitVec 64}
    {rest : List Input} {c : Claim} (hm : s.mem.wf)
    (hi : s.port.inputs = .store addr size data :: rest)
    (hw : touchesWindow s.platform addr.toNat size.bytes = false)
    (hfits : addr.toNat + size.bytes ≤ 2 ^ 32) (hc : c ∈ s.port.claims)
    (hr : c.races .write addr.toNat size.bytes = true) :
    ∃ t, step s = .next t ∧ RacingAccess .write addr.toNat size.bytes s t ∧
      t.port.replies = s.port.replies := by
  have hany := claims_any_races hc hr
  obtain ⟨hmem, hcurrent⟩ := noteHostAccess_of_race
    (s := { s with mem := s.mem.writeBytes addr.toNat (littleEndianBytes size.bytes data) }) hany
  have hdrawn := fun b => drawEnded_readByte s.port.draws .write addr.toNat size.bytes b
    (endedClaims s) _ (Memory.writeBytes_wf (littleEndianBytes size.bytes data) _ addr.toNat hm)
  refine ⟨_, step_of_store_memory s addr size data rest hi hw hfits,
    ⟨by simp [hostStoreMemory], by simp [hostStoreMemory], by simp [hostStoreMemory], hcurrent, ?_, ?_⟩,
    by simp [hostStoreMemory]⟩
  · intro c hc hr b hlo hhi hb
    obtain ⟨-, hin, -⟩ := hdrawn b
    rw [consumeInput_mem, hostStoreMemory, hmem]
    exact hin ⟨c, hc, hr, hlo, hhi⟩ hb
  · intro b hb hstored
    obtain ⟨-, -, hout, -⟩ := hdrawn b
    rw [consumeInput_mem, hostStoreMemory, hmem]
    exact (hout fun c hc _ => hb c hc).trans
      (Memory.readByte_writeBytes_littleEndian_other data (hstored rfl))

/-! ### The running command -/

/-- A running command that the access races with is marked. -/
theorem RacingAccess.commandRaced_eq_true {kind : AccessKind} {a n : Nat} {s t : State} {c : Claim}
    (h : RacingAccess kind a n s t) (hc : s.port.current = some c) (hr : c.races kind a n = true) :
    commandRaced t = true := by
  rw [commandRaced, h.current, hc]
  simp [Claim.noteAccess, hr]

/-- From a racing write to the source on, the engine's source bytes are a draw. -/
theorem RacingAccess.engineByte_eq_draw {a n : Nat} {s t : State} {c : Claim}
    (h : RacingAccess .write a n s t) (hc : s.port.current = some c)
    (hmeet : rangesMeet a n c.src c.nsrc = true) (b : Nat) :
    engineByte t b = Config.drawByte (s.port.draws + 1) b := by
  have hdraw : sourceDraw t = some (s.port.draws + 1) := by
    rw [sourceDraw, h.current, hc]
    simp [Claim.noteAccess, hmeet]
  rw [engineByte, hdraw]

/-! ### Races with the destination and with the source -/

/-- Settles O24: an access of either kind that meets a destination races, with the running command's
claim or with that of an ended one. -/
theorem hostAccessToDestinationRaces : Obligations.HostAccessToDestinationRaces := by
  intro s addr size rest hm hw hfits meets loads stores answersDraw
  have hexcl : loads → ¬ stores := fun hl ⟨data, hs⟩ => by
    have hne := hl.symm.trans hs
    simp at hne
  have hstep : ∀ c ∈ s.port.claims, meets c.dst c.ndst → loads ∨ stores →
      ∃ kind t, c.races kind addr.toNat size.bytes = true ∧ step s = .next t ∧
        RacingAccess kind addr.toNat size.bytes s t ∧ t.port.inputs = rest ∧ (kind = .write → stores) ∧
        (loads → answersDraw t) ∧ (stores → t.port.replies = s.port.replies) := by
    intro c hc ⟨b, hlo, hhi, ha, hn⟩ haccess
    have hrace := fun kind => c.races_of_meets_dst kind addr.toNat size.bytes b hlo hhi ha hn
    obtain hl | ⟨data, hs⟩ := haccess
    · obtain ⟨t, ht, hacc, hreply⟩ := step_of_racing_load hm hl hw hfits hc (hrace .read)
      exact ⟨.read, t, hrace _, ht, hacc, by rw [hacc.inputs, hl, List.tail_cons], nofun,
        fun _ => ⟨_, hreply⟩, fun hs => absurd hs (hexcl hl)⟩
    · obtain ⟨t, ht, hacc, hreply⟩ := step_of_racing_store hm hs hw hfits hc (hrace .write)
      exact ⟨.write, t, hrace _, ht, hacc, by rw [hacc.inputs, hs, List.tail_cons],
        fun _ => ⟨data, hs⟩, fun hl => absurd ⟨data, hs⟩ (hexcl hl), fun _ => hreply⟩
  refine ⟨fun _ hclaim hmeet haccess => ?_, fun c hc hmeet haccess => ?_⟩
  · obtain ⟨c, hc, -, -, hdst, hndst⟩ := hclaim
    obtain ⟨kind, t, hrace, ht, hacc, hrest, -, hload, hstore⟩ :=
      hstep c ((Port.mem_claims _ _).2 (.inl hc)) (by rwa [hdst, hndst]) haccess
    exact ⟨t, ht, hacc.commandRaced_eq_true hc hrace, hacc.regs, hacc.engine, hrest, hload, hstore⟩
  · obtain ⟨kind, t, hrace, ht, hacc, hrest, hkind, hload, hstore⟩ :=
      hstep c (mem_claims_of_mem_endedClaims s c hc) hmeet haccess
    exact ⟨t, ht, hacc.regs, hacc.engine, hrest, ⟨_, hacc.drawn c hc hrace⟩,
      fun b hb hs => hacc.kept b hb fun hk => hs (hkind hk), hload, hstore⟩

/-- Settles O25: a store that meets a source races, with the running command's claim or with that of an
ended one. -/
theorem hostWriteToSourceRaces : Obligations.HostWriteToSourceRaces := by
  intro s addr size data rest hm hi hw hfits meets
  refine ⟨fun _ hclaim ⟨b, hlo, hhi, ha, hn⟩ => ?_, fun c hc ⟨b, hlo, hhi, ha, hn⟩ => ?_⟩
  · obtain ⟨c, hc, hsrc, hnsrc, -⟩ := hclaim
    obtain ⟨hsource, hrace⟩ := c.races_of_meets_src addr.toNat size.bytes b (by rwa [hsrc])
      (by rwa [hsrc, hnsrc]) ha hn
    obtain ⟨t, ht, hacc, -⟩ :=
      step_of_racing_store hm hi hw hfits ((Port.mem_claims _ _).2 (.inl hc)) hrace
    exact ⟨t, _, ht, hacc.commandRaced_eq_true hc hrace, hacc.engineByte_eq_draw hc hsource,
      hacc.regs, hacc.engine⟩
  · obtain ⟨-, hrace⟩ := c.races_of_meets_src addr.toNat size.bytes b hlo hhi ha hn
    obtain ⟨t, ht, hacc, -⟩ :=
      step_of_racing_store hm hi hw hfits (mem_claims_of_mem_endedClaims s c hc) hrace
    exact ⟨t, _, ht, hacc.regs, hacc.engine, hacc.drawn c hc hrace⟩

end Sys2Proof.Machine
end

section
/-! What a turn of the engine does to memory: the completion of a raced command, the bus errors of a
quantize unit, and the destination range as the only place it writes (20_memory R56, R65, R72;
60_exceptions R178, R180). -/

namespace Sys2Proof.Machine

/-! ### The engine step of a running command -/

theorem unitCount_of_engineRuns {s : State} {i : Instr} (h : EngineRuns i s) :
    unitCount s.engine = if instrDir i = 0 then s.engine.ndst.toNat else s.engine.nsrc.toNat := by
  obtain ⟨-, -, hdir, -⟩ := h
  rw [unitCount, hdir]

/-- With a unit left, the running command takes its unit step. -/
theorem exec_of_unit {s : State} {i : Instr} (h : EngineRuns i s)
    (hidx : s.engine.idx.toNat < unitCount s.engine) :
    exec i s = .next (unitOf i (consumeInput s)) := by
  rw [exec_of_engineRuns i s h]
  exact if_pos hidx

/-- With every unit done, the running command takes the completion step. -/
theorem exec_of_completion {s : State} {i : Instr} (h : EngineRuns i s)
    (hidx : s.engine.idx.toNat = unitCount s.engine) :
    exec i s = .next (completeCommand (consumeInput s)) := by
  rw [exec_of_engineRuns i s h, engineStep, consumeInput_engine, if_neg (by omega), if_pos hidx]

/-- Settles O23: the completion step of a raced command draws its destination range. -/
theorem racedCommandLosesDestination : Obligations.RacedCommandLosesDestination := by
  intro s i h hm hrace hidx
  have hmem : (completeCommand (consumeInput s)).mem = (drawDestination (consumeInput s)).mem :=
    (completeCommand_mem _).trans (if_pos hrace)
  refine ⟨_, exec_of_completion h (by rw [unitCount_of_engineRuns h, hidx]), completeCommand_regs _, ?_⟩
  rw [hmem]
  exact drawDestination_mem_spec (consumeInput s) hm

/-! ### Bus errors of a quantize unit (60_exceptions R178, R180) -/

/-- An execution fault in a unit that has written memory `m`, inside its destination range, so far. -/
theorem raiseFault_faultedInExecution {s : State} {t : Trap} (ht : causeIsExecution t.cause = true)
    {m : Memory} (hm : m.wf) (hm' : ∀ a, ¬ InDestination s a → m.readByte a = s.mem.readByte a) :
    FaultedInExecution s (raiseFault t { consumeInput s with mem := m }) (causeCode t.cause) t.info := by
  obtain ⟨hin, hout⟩ := drawDestination_mem_spec { consumeInput s with mem := m } hm
  rw [FaultedInExecution, raiseFault_mem, if_pos ht, raiseFault_engine, if_pos ht]
  exact ⟨raiseFault_regs _ _, hin, fun a ha => (hout a ha).trans (hm' a ha), ⟨_, rfl⟩,
    raiseFault_platform _ _, raiseFault_inputs _ _, raiseFault_current _ _, raiseFault_unobserved _ _⟩

/-- Slots whose samples are all readable are packed, and the loop goes on after them. -/
theorem packSlots_append_of_readable (w j : Nat) (s : State) (ks ks' : List Nat) : ∀ acc,
    (∀ k ∈ ks, SampleReadable s (j * groupSize w + k) ∧ j * groupSize w + k < s.engine.len.toNat) →
    ∃ acc', packSlots w j s (ks ++ ks') acc = packSlots w j s ks' acc' := by
  induction ks with
  | nil => exact fun acc _ => ⟨acc, rfl⟩
  | cons k ks ih =>
    intro acc h
    obtain ⟨hread, hlen⟩ := h k (by simp)
    rw [List.cons_append, packSlots_of_readable _ _ _ _ _ _ hread hlen]
    exact ih _ fun k' hk' => h k' (by simp [hk'])

theorem range_eq_append_cons {k g : Nat} (hk : k < g) :
    List.range g = List.range k ++ k :: List.range' (k + 1) (g - k - 1) := by
  have hsplit := List.range'_append_1 (s := 0) (m := k) (n := g - k - 1 + 1)
  rw [Nat.zero_add, show k + (g - k - 1 + 1) = g by omega] at hsplit
  rw [List.range_eq_range', List.range_eq_range', ← List.range'_succ, hsplit]

/-- The loop ends with a fault at the first sample that cannot be read. -/
theorem packSlots_of_busError {w j k : Nat} {s : State} (acc : Byte) (hk : k < groupSize w)
    (hlen : j * groupSize w + k < s.engine.len.toNat)
    (hread : ∀ k', k' < k → SampleReadable s (j * groupSize w + k'))
    (hbus : ¬ SampleAnswers s (j * groupSize w + k)) :
    packSlots w j s (List.range (groupSize w)) acc =
      .error ⟨.busError, BitVec.ofNat 32 (s.engine.src.toNat + 4 * (j * groupSize w + k))⟩ := by
  obtain ⟨acc', hacc⟩ := packSlots_append_of_readable w j s (List.range k)
    (k :: List.range' (k + 1) (groupSize w - k - 1)) acc fun k' hk' =>
      ⟨hread k' (List.mem_range.1 hk'), by have := List.mem_range.1 hk'; omega⟩
  have hnone : memRead4 s (s.engine.src.toNat + 4 * (j * groupSize w + k)) = none := by
    rw [memRead4_sample, if_pos (Bool.eq_true_of_not_eq_false hbus)]
  rw [range_eq_append_cons hk, hacc]
  simp only [packSlots, if_neg (Nat.not_le.2 hlen), hnone]

theorem quantizeUnit_of_error {w : Nat} {s : State} {t : Trap}
    (h : packSlots w s.engine.idx.toNat s (List.range (groupSize w)) 0 = .error t) :
    quantizeUnit w s = raiseFault t s := by
  simp only [quantizeUnit, h]

theorem quantizeUnit_of_write_busError {w : Nat} {s : State} {acc : Byte}
    (h : packSlots w s.engine.idx.toNat s (List.range (groupSize w)) 0 = .ok acc)
    (hbus : busError s.platform (s.engine.dst.toNat + s.engine.idx.toNat) 1 .write = true) :
    quantizeUnit w s =
      raiseFault ⟨.busError, BitVec.ofNat 32 (s.engine.dst.toNat + s.engine.idx.toNat)⟩ s := by
  simp only [quantizeUnit, h, (memWrite1_none _ _ _ _).2 hbus]

/-- The unit step of each direction. -/
theorem unitOf_eq (i : Instr) : unitOf i =
    if instrDir i = 0 then quantizeUnit (instrWidth i) else dequantizeUnit (instrWidth i) := by
  cases i <;> rfl

/-- A quantize command with a unit left takes a quantize unit. -/
theorem exec_of_quantize_unit {s : State} {i : Instr} (hi : i = .quantizeUint4 ∨ i = .quantizeUint2)
    (h : EngineRuns i s) (hidx : s.engine.idx.toNat < s.engine.ndst.toNat) :
    exec i s = .next (quantizeUnit (instrWidth i) (consumeInput s)) := by
  have hdir : instrDir i = 0 := by obtain rfl | rfl := hi <;> rfl
  rw [exec_of_unit h (by rwa [unitCount_of_engineRuns h, if_pos hdir]), unitOf_eq, if_pos hdir]

/-- Settles O16: the loop stops at the first read that fails, and the write comes after every read. -/
theorem quantizeFaultsOnBusError : Obligations.QuantizeFaultsOnBusError := by
  intro s i hi h hm hidx g j
  have hfault : ∀ info, quantizeUnit (instrWidth i) (consumeInput s) =
      raiseFault ⟨.busError, info⟩ (consumeInput s) →
      ∃ t, exec i s = .next t ∧ FaultedInExecution s t 9 info := fun info hunit =>
    ⟨_, (exec_of_quantize_unit hi h hidx).trans (congrArg _ hunit),
      raiseFault_faultedInExecution (t := ⟨.busError, info⟩) rfl hm fun _ _ => rfl⟩
  refine ⟨fun k hk hlen hread hbus => hfault _ (quantizeUnit_of_error ?_), fun hread hbus => ?_⟩
  · exact packSlots_of_busError (s := consumeInput s) 0 hk hlen hread hbus
  · have hpack := packSlots_range (instrWidth i) j (groupSize (instrWidth i)) (consumeInput s) 0 0
      fun k _ hk => hread k (by rwa [Nat.zero_add] at hk)
    rw [← List.range_eq_range'] at hpack
    exact hfault _ (quantizeUnit_of_write_busError hpack hbus)

/-! ### The engine writes its destination range only (20_memory R61, R65) -/

theorem drawDestination_readByte_other {s : State} {a : Nat} (ha : ¬ InDestination s a) :
    (drawDestination s).mem.readByte a = s.mem.readByte a :=
  Memory.readByte_drawRange_other _ _ _ _ _ ha

theorem raiseFault_readByte_other (t : Trap) {s : State} {a : Nat} (ha : ¬ InDestination s a) :
    (raiseFault t s).mem.readByte a = s.mem.readByte a := by
  rw [raiseFault_mem]
  split
  · exact drawDestination_readByte_other ha
  · rfl

theorem completeCommand_readByte_other {s : State} {a : Nat} (ha : ¬ InDestination s a) :
    (completeCommand s).mem.readByte a = s.mem.readByte a := by
  rw [completeCommand_mem]
  split
  · exact drawDestination_readByte_other ha
  · rfl

/-- The packed byte of unit `IDX` lies in the destination range. -/
theorem quantizeUnit_readByte_other (w : Nat) {s : State} {a : Nat}
    (hidx : s.engine.idx.toNat < s.engine.ndst.toNat) (ha : ¬ InDestination s a) :
    (quantizeUnit w s).mem.readByte a = s.mem.readByte a := by
  obtain ⟨t, -, hu⟩ | ⟨acc, -, -, hu⟩ := quantizeUnit_cases w s <;> rw [hu]
  · exact raiseFault_readByte_other t ha
  · exact Memory.readByte_writeByte_other _ _ _ _ (by rintro rfl; exact ha (by omega))

/-- The values below the length lie in the destination range. -/
theorem dequantizeUnit_readByte_other (w : Nat) {s : State} {a : Nat}
    (hndst : s.engine.ndst.toNat = 4 * s.engine.len.toNat) (ha : ¬ InDestination s a) :
    (dequantizeUnit w s).mem.readByte a = s.mem.readByte a := by
  have hloop : ∀ {b m o}, unpackSlots w s.engine.idx.toNat b s.engine s.platform
      (List.range (groupSize w)) s.mem = (m, o) → Memory.readByte m a = s.mem.readByte a := by
    intro b m o hu
    obtain ⟨-, hother, -⟩ := unpackSlots_spec w s.engine.idx.toNat b s.engine s.platform
      (List.range (groupSize w)) s.mem
    rw [hu] at hother
    exact hother a fun k _ hk => by omega
  obtain ⟨t, -, -, hu⟩ | ⟨t, m, b, -, hl, hu⟩ | ⟨m, b, -, hl, hu⟩ := dequantizeUnit_cases w s <;>
    rw [hu]
  · exact raiseFault_readByte_other t ha
  · exact (raiseFault_readByte_other t (s := { s with mem := m }) ha).trans (hloop hl)
  · exact hloop hl

/-- A unit of a validated command writes in its destination range only. -/
theorem unitOf_readByte_other {i : Instr} {s : State} {a : Nat} (hdir : s.engine.dir = instrDir i)
    (hrunning : s.engine.Running) (hidx : s.engine.idx.toNat < unitCount s.engine)
    (ha : ¬ InDestination s a) : (unitOf i s).mem.readByte a = s.mem.readByte a := by
  obtain ⟨-, -, hndst, -⟩ := hrunning
  rw [unitCount, hdir] at hidx
  rw [dstBytes, hdir] at hndst
  rw [unitOf_eq]
  split_ifs at hidx hndst ⊢
  · exact quantizeUnit_readByte_other _ hidx ha
  · exact dequantizeUnit_readByte_other _ hndst ha

/-- Settles O27: by the unit step and the completion step of the one command that has the turn. -/
theorem engineWritesOnlyDestination : Obligations.EngineWritesOnlyDestination := by
  intro s t hinv hturn hbusy hstep a ha
  obtain ⟨hrunning, -⟩ := hinv.running hbusy
  obtain ⟨i, hdir, hwidth⟩ := hrunning.exists_instr
  have hruns : EngineRuns i s := ⟨hturn, hbusy, hdir, hwidth⟩
  rw [step_of_engineRuns hruns, exec_of_engineRuns i s hruns] at hstep
  obtain ⟨hidx, rfl⟩ | ⟨-, rfl⟩ := engineStep_cases _ _ _ hstep
  · exact unitOf_readByte_other (s := consumeInput s) hdir hrunning hidx ha
  · exact completeCommand_readByte_other (s := consumeInput s) ha

end Sys2Proof.Machine
end

section
/-! The command words (30_encoding R80 to R84): a word and its fields determine each other, and the words
that decode to a command are those of the table of R82. -/

namespace Sys2Proof

/-! ### A word and its fields (30_encoding R81) -/

/-- The four fields lie side by side and cover the word. -/
theorem CmdFields.toWord_ofWord (c : Word) : (CmdFields.ofWord c).toWord = c := by
  simp only [CmdFields.toWord, CmdFields.ofWord]
  rw [BitVec.extractLsb'_append_extractLsb'_eq_extractLsb' (by decide),
    BitVec.extractLsb'_append_extractLsb'_eq_extractLsb' (by decide),
    BitVec.extractLsb'_append_extractLsb'_eq_extractLsb' (by decide)]
  exact BitVec.extractLsb'_eq_self

/-- What lies in the left part of a concatenation is read past the right one. -/
theorem extractLsb'_append_add {n m start len : Nat} (x : BitVec n) (y : BitVec m) :
    (x ++ y).extractLsb' (m + start) len = x.extractLsb' start len := by
  rw [BitVec.extractLsb'_append_eq_of_le (Nat.le_add_right _ _), Nat.add_sub_cancel_left]

/-- Each field is read from the place where it was put. -/
theorem CmdFields.ofWord_toWord (f : CmdFields) : CmdFields.ofWord f.toWord = f := by
  obtain ⟨dir, rsvLow, width, rsvHigh⟩ := f
  have hdir : (rsvHigh ++ width ++ rsvLow ++ dir).extractLsb' 0 1 = dir :=
    BitVec.extractLsb'_append_eq_right
  have hlow : (rsvHigh ++ width ++ rsvLow ++ dir).extractLsb' 1 3 = rsvLow :=
    (extractLsb'_append_add _ dir).trans BitVec.extractLsb'_append_eq_right
  have hwidth : (rsvHigh ++ width ++ rsvLow ++ dir).extractLsb' 4 4 = width :=
    calc (rsvHigh ++ width ++ rsvLow ++ dir).extractLsb' (1 + 3) 4
      _ = (rsvHigh ++ width ++ rsvLow).extractLsb' (3 + 0) 4 := extractLsb'_append_add _ dir
      _ = (rsvHigh ++ width).extractLsb' 0 4 := extractLsb'_append_add _ rsvLow
      _ = width := BitVec.extractLsb'_append_eq_right
  have hhigh : (rsvHigh ++ width ++ rsvLow ++ dir).extractLsb' 8 24 = rsvHigh :=
    calc (rsvHigh ++ width ++ rsvLow ++ dir).extractLsb' (1 + 7) 24
      _ = (rsvHigh ++ width ++ rsvLow).extractLsb' (3 + 4) 24 := extractLsb'_append_add _ dir
      _ = (rsvHigh ++ width).extractLsb' 4 24 := extractLsb'_append_add _ rsvLow
      _ = rsvHigh := BitVec.extractLsb'_append_eq_left
  rw [CmdFields.ofWord, CmdFields.toWord, CmdFields.mk.injEq]
  exact ⟨hdir, hlow, hwidth, hhigh⟩

theorem CmdFields.ofWord_eq_iff (c : Word) (f : CmdFields) : CmdFields.ofWord c = f ↔ c = f.toWord :=
  ⟨fun h => by rw [← h, CmdFields.toWord_ofWord], fun h => by rw [h, CmdFields.ofWord_toWord]⟩

/-- Settles O4: both round trips. -/
theorem commandFieldsRoundTrip : Obligations.CommandFieldsRoundTrip :=
  ⟨CmdFields.toWord_ofWord, CmdFields.ofWord_toWord⟩

/-! ### The words that decode to a command (30_encoding R82 to R84) -/

/-- The only fields that decode to a command are the command's own. -/
theorem CmdFields.decode_eq_command_iff (f : CmdFields) (i : Instr) :
    f.decode = .command i ↔ f = i.fields := by
  constructor
  · intro h
    obtain ⟨dir, rsvLow, width, rsvHigh⟩ := f
    have hbit := BitVec.eq_zero_or_eq_one dir
    simp only [CmdFields.decode] at h
    split_ifs at h with hlow hhigh h4 hdir h2 hdir <;> cases h
    all_goals simp_all [Instr.fields]
  · rintro rfl
    cases i <;> rfl

/-- A word decodes to a command exactly when it is the command's encoding. -/
theorem decodeWord_eq_command_iff (c : Word) (i : Instr) :
    decodeWord c = .command i ↔ c = encode i := by
  rw [decodeWord, CmdFields.decode_eq_command_iff, CmdFields.ofWord_eq_iff, encode]

theorem decodeWord_encode (i : Instr) : decodeWord (encode i) = .command i :=
  (decodeWord_eq_command_iff _ i).2 rfl

theorem exists_illegal_of_forall_ne_encode {c : Word} (h : ∀ i, c ≠ encode i) :
    ∃ why, decodeWord c = .illegal why := by
  cases hd : decodeWord c with
  | command i => exact absurd ((decodeWord_eq_command_iff c i).1 hd) (h i)
  | illegal why => exact ⟨why, rfl⟩

/-! The table of 30_encoding R82. -/

theorem encode_quantizeUint4 : encode .quantizeUint4 = 0x00000040 := rfl
theorem encode_dequantizeUint4 : encode .dequantizeUint4 = 0x00000041 := rfl
theorem encode_quantizeUint2 : encode .quantizeUint2 = 0x00000020 := rfl
theorem encode_dequantizeUint2 : encode .dequantizeUint2 = 0x00000021 := rfl

/-- Settles O3: a word decodes to a command exactly when it is its encoding, read in the table of R82. -/
theorem decodeAcceptsExactlyFourWords : Obligations.DecodeAcceptsExactlyFourWords := by
  intro c i
  rw [decodeWord_eq_command_iff]
  cases i with
  | quantizeUint4 => simp [encode_quantizeUint4]
  | dequantizeUint4 => simp [encode_dequantizeUint4]
  | quantizeUint2 => simp [encode_quantizeUint2]
  | dequantizeUint2 => simp [encode_dequantizeUint2]

/-- Settles O1: the words of R82 are the encodings of the four commands. -/
theorem commandWordsDecode : Obligations.CommandWordsDecode :=
  ⟨decodeWord_encode .quantizeUint4, decodeWord_encode .dequantizeUint4,
    decodeWord_encode .quantizeUint2, decodeWord_encode .dequantizeUint2⟩

/-- A table word of 32 bits is a command word (30_encoding R80). -/
theorem decodeTableWord_toNat (c : Word) : decodeTableWord 32 c.toNat = (decodeWord c).toInstr? := by
  rw [decodeTableWord, if_pos le_rfl, Nat.mod_eq_of_lt c.isLt, BitVec.ofNat_toNat, BitVec.setWidth_eq]

/-- Settles O2: for a command word and for the same word as a number of the table. -/
theorem decodeOfEncode : Obligations.DecodeOfEncode := by
  intro i _
  refine ⟨decodeWord_encode i, ?_⟩
  rw [decodeTableWord_toNat, decodeWord_encode]
  rfl

end Sys2Proof
end

section
/-! The host's transactions of 30_encoding: the write of a word that is no command (R83) and the poll loop
(R90). -/

namespace Sys2Proof.Machine

/-! ### The write of an illegal word to `CMD` (30_encoding R83) -/

/-- A step that handles the `CMD` write of a word that is no command. -/
theorem step_of_illegal_word {s : State} {c : Word} {why : IllegalWord} (h : CommandArrives c s)
    (hd : decodeWord c = .illegal why) : step s = .next (consumeInput (commandWrite c s)) := by
  obtain ⟨-, addr, data, rest, hi, hcmd, rfl, hst⟩ := commandArrives_spec s c h
  simp only [step, nextAction, hi, storeAction, hcmd, if_true, hd, hst, consumeAfter]

/-- Check 1 of 60_exceptions R172, the one fault whose information is the word. -/
theorem validate_of_illegal {c : Word} {why : IllegalWord} (r : Regs) (hd : decodeWord c = .illegal why) :
    validate c r = some ⟨.illegalCmd, c⟩ := by
  rw [validate, hd]

theorem commandWrite_of_illegal {s : State} {c : Word} {why : IllegalWord}
    (hd : decodeWord c = .illegal why) (hb : s.regs.busy = false) (hf : s.regs.fault = false) :
    commandWrite c s = { s with regs := faultedRegs s.regs 1 c } := by
  rw [commandWrite, hb, hf, validate_of_illegal s.regs hd]
  rfl

/-- Settles O8: a word that is none of the four is illegal, and its fault at validation changes registers
only. -/
theorem illegalWordFaults : Obligations.IllegalWordFaults := by
  intro s c h hb hf hq4 hd4 hq2 hd2
  have hne : ∀ i, c ≠ encode i
    | .quantizeUint4 => hq4
    | .dequantizeUint4 => hd4
    | .quantizeUint2 => hq2
    | .dequantizeUint2 => hd2
  obtain ⟨why, hd⟩ := exists_illegal_of_forall_ne_encode hne
  rw [step_of_illegal_word h hd, commandWrite_of_illegal hd hb hf]
  rfl

/-! ### The poll loop (30_encoding R90) -/

theorem step_of_poll {s : State} {rest : List Input} (hi : s.port.inputs = .poll :: rest) :
    step s = .next (pollStatus s) := by
  simp only [step, nextAction, hi]

/-- A turn of the poll loop is a read of `STATUS`, and the loop's next inputs. -/
theorem pollStatus_eq (s : State) :
    pollStatus s = { consumeInput (hostReadRegister .status s) with
      port := { (hostReadRegister .status s).port with
        inputs := if s.regs.busy then .engine :: .poll :: s.port.inputs.tail else s.port.inputs.tail } } := by
  unfold pollStatus
  cases s.regs.busy <;> rfl

@[simp] theorem pollStatus_regs (s : State) : (pollStatus s).regs = s.regs := by simp [pollStatus_eq]
@[simp] theorem pollStatus_engine (s : State) : (pollStatus s).engine = s.engine := by
  simp [pollStatus_eq]
@[simp] theorem pollStatus_mem (s : State) : (pollStatus s).mem = s.mem := by simp [pollStatus_eq]
@[simp] theorem pollStatus_replies (s : State) :
    (pollStatus s).port.replies = (statusWord s.regs).setWidth 64 :: s.port.replies := by
  simp [pollStatus_eq, readRegister]
@[simp] theorem pollStatus_inputs (s : State) : (pollStatus s).port.inputs =
    if s.regs.busy then .engine :: .poll :: s.port.inputs.tail else s.port.inputs.tail := by
  simp [pollStatus_eq]
@[simp] theorem pollStatus_current (s : State) :
    (pollStatus s).port.current = (observeStatus s).port.current := by simp [pollStatus_eq]
@[simp] theorem pollStatus_unobserved (s : State) :
    (pollStatus s).port.unobserved = (observeStatus s).port.unobserved := by simp [pollStatus_eq]

/-- Settles O44: a turn of the loop ends the claims that its read of `STATUS` observes, by the ends that
the read shows, and puts itself back while `BUSY` is 1. -/
theorem pollLoopsWhileBusy : Obligations.PollLoopsWhileBusy := by
  intro s rest hi executionFault
  have hend : showsExecutionFault s.regs = true ↔ executionFault := showsExecutionFault_iff s.regs
  refine ⟨_, step_of_poll hi, pollStatus_replies s, pollStatus_regs s, pollStatus_engine s,
    pollStatus_mem s, ⟨fun hd => ?_, fun hd he => ?_, fun hd he => ?_⟩, fun hb => ?_, fun hb => ?_⟩
  · simp [hd]
  · simp [hd, hend.2 he]
  · simp [hd, mt hend.1 he]
  · simp [hb, hi]
  · simp [hb, hi]

end Sys2Proof.Machine
end

section
/-! Rounding to the binary32 grid (00_scope R13). The magnitudes of the patterns, the exponent taken without
bound, are a strictly rising sequence of naturals in units of 2^-149; the pattern that `f32RoundMagnitude`
computes before the overflow clamp is the nearest one, the even one on a tie. -/

namespace Sys2Proof.Machine

/-! ### The nearest integer, ties to even -/

/-- `r` is the integer nearest `x`, and even on a tie. -/
structure IsNearestInteger (x : ℚ) (r : ℕ) : Prop where
  abs_sub_le_half : |(r : ℚ) - x| ≤ 1 / 2
  even_of_tie : |(r : ℚ) - x| = 1 / 2 → r % 2 = 0

/-- Two integers lie at least 1 apart. -/
theorem IsNearestInteger.half_le_of_ne {x : ℚ} {r j : ℕ} (h : IsNearestInteger x r) (hj : j ≠ r) :
    1 / 2 ≤ |(j : ℚ) - x| := by
  have hone : (1 : ℚ) ≤ |(j : ℚ) - r| := by
    have hint := Int.one_le_abs (sub_ne_zero.2 (Nat.cast_injective.ne hj) : (j : ℤ) - r ≠ 0)
    exact_mod_cast hint
  have htri := abs_sub_le (j : ℚ) x r
  rw [abs_sub_comm x] at htri
  linarith [h.abs_sub_le_half]

theorem IsNearestInteger.nearest {x : ℚ} {r : ℕ} (h : IsNearestInteger x r) (j : ℕ) :
    |(r : ℚ) - x| ≤ |(j : ℚ) - x| := by
  obtain rfl | hj := eq_or_ne j r
  · exact le_rfl
  · exact h.abs_sub_le_half.trans (h.half_le_of_ne hj)

theorem IsNearestInteger.even_of_eq {x : ℚ} {r j : ℕ} (h : IsNearestInteger x r) (hj : j ≠ r)
    (htie : |(j : ℚ) - x| = |(r : ℚ) - x|) : r % 2 = 0 :=
  h.even_of_tie (le_antisymm h.abs_sub_le_half (htie ▸ h.half_le_of_ne hj))

/-- `divNearestEven` in naturals: within half a divisor, and even at exactly half. -/
theorem divNearestEven_bounds {n d : ℕ} (hd : 0 < d) :
    2 * (d * divNearestEven n d) ≤ 2 * n + d ∧ 2 * n ≤ 2 * (d * divNearestEven n d) + d ∧
      (2 * (d * divNearestEven n d) = 2 * n + d ∨ 2 * n = 2 * (d * divNearestEven n d) + d →
        divNearestEven n d % 2 = 0) := by
  have hdiv := Nat.div_add_mod n d
  have hmod := Nat.mod_lt n hd
  simp only [divNearestEven]
  split_ifs with hlt hgt
  · omega
  · rw [mul_add]
    omega
  · obtain heven | hodd := Nat.mod_two_eq_zero_or_one (n / d)
    · rw [heven, add_zero]
      omega
    · rw [hodd, mul_add]
      omega

theorem divNearestEven_isNearestInteger (n : ℕ) {d : ℕ} (hd : 0 < d) :
    IsNearestInteger ((n : ℚ) / d) (divNearestEven n d) := by
  obtain ⟨hle, hge, htie⟩ := divNearestEven_bounds (n := n) hd
  set r := divNearestEven n d
  have hd' : (0 : ℚ) < 2 * d := by positivity
  have hscaled : (r : ℚ) - n / d = (2 * (d * r) - 2 * n) / (2 * d) := by field_simp
  constructor
  · have hle' : (2 * (d * r) : ℚ) ≤ 2 * n + d := by exact_mod_cast hle
    have hge' : (2 * n : ℚ) ≤ 2 * (d * r) + d := by exact_mod_cast hge
    rw [hscaled, abs_le, le_div_iff₀ hd', div_le_iff₀ hd']
    exact ⟨by linarith, by linarith⟩
  · rw [hscaled, abs_eq (by norm_num), div_eq_iff hd'.ne', div_eq_iff hd'.ne']
    rintro (h | h)
    · exact htie (.inl (by exact_mod_cast (by linarith : (2 * (d * r) : ℚ) = 2 * n + d)))
    · exact htie (.inr (by exact_mod_cast (by linarith : (2 * n : ℚ) = 2 * (d * r) + d)))

/-! ### The grid -/

/-- The magnitude of the pattern with these low 31 bits, in units of 2^-149 (00_scope R12), the exponent
without bound: the pattern of the infinity stands for 2^128. -/
def patternUnits (m : ℕ) : ℕ :=
  if m / 2 ^ 23 = 0 then m % 2 ^ 23 else (2 ^ 23 + m % 2 ^ 23) * 2 ^ (m / 2 ^ 23 - 1)

/-- Significand `r` at scale `2^k`; `r = 2^24` carries into the next exponent. -/
theorem patternUnits_mul_add {k r : ℕ} (hk : k = 0 ∨ 2 ^ 23 ≤ r) (hr : r ≤ 2 ^ 24) :
    patternUnits (k * 2 ^ 23 + r) = r * 2 ^ k := by
  unfold patternUnits
  obtain hsub | hnormal | hcarry : r < 2 ^ 23 ∨ (2 ^ 23 ≤ r ∧ r < 2 ^ 24) ∨ r = 2 ^ 24 := by omega
  · obtain rfl : k = 0 := by omega
    rw [if_pos (by omega), Nat.mod_eq_of_lt (by omega)]
    omega
  · rw [if_neg (by omega), show (k * 2 ^ 23 + r) / 2 ^ 23 - 1 = k by omega,
      show 2 ^ 23 + (k * 2 ^ 23 + r) % 2 ^ 23 = r by omega]
  · rw [if_neg (by omega), show (k * 2 ^ 23 + r) / 2 ^ 23 - 1 = k + 1 by omega,
      show 2 ^ 23 + (k * 2 ^ 23 + r) % 2 ^ 23 = 2 ^ 23 by omega, hcarry]
    ring

/-- Every pattern is a significand below `2^24` at a scale. -/
theorem exists_significand (m : ℕ) :
    ∃ k r, m = k * 2 ^ 23 + r ∧ (k = 0 ∨ 2 ^ 23 ≤ r) ∧ r < 2 ^ 24 :=
  ⟨m / 2 ^ 23 - 1, m - (m / 2 ^ 23 - 1) * 2 ^ 23, by omega, by omega, by omega⟩

@[simp] theorem patternUnits_zero : patternUnits 0 = 0 := rfl

theorem patternUnits_strictMono : StrictMono patternUnits := by
  refine strictMono_nat_of_lt_succ fun m => ?_
  obtain ⟨k, r, rfl, hk, hr⟩ := exists_significand m
  rw [patternUnits_mul_add hk hr.le, add_assoc, patternUnits_mul_add (by omega) hr]
  exact Nat.mul_lt_mul_of_pos_right (Nat.lt_succ_self r) (by positivity)

/-- From `2^(23+k)` on the grid consists of multiples of `2^k`; at scale 0 it is all of them. -/
theorem patternUnits_dvd_or_lt (k m : ℕ) :
    (∃ j, patternUnits m = j * 2 ^ k) ∨ k ≠ 0 ∧ patternUnits m < 2 ^ 23 * 2 ^ k := by
  obtain ⟨k', r, rfl, hk', hr⟩ := exists_significand m
  rw [patternUnits_mul_add hk' hr.le]
  obtain hlt | hle := Nat.lt_or_ge k' k
  · refine .inr ⟨by omega, ?_⟩
    calc r * 2 ^ k' < 2 ^ 24 * 2 ^ k' := Nat.mul_lt_mul_of_pos_right hr (by positivity)
      _ = 2 ^ 23 * 2 ^ (k' + 1) := by ring
      _ ≤ 2 ^ 23 * 2 ^ k := Nat.mul_le_mul_left _ (Nat.pow_le_pow_right (by decide) hlt)
  · exact .inl ⟨r * 2 ^ (k' - k), by rw [mul_assoc, ← pow_add, Nat.sub_add_cancel hle]⟩

/-- A significand of at most 24 bits is on the grid at every scale. -/
theorem exists_patternUnits_eq_mul_two_pow {r : ℕ} (k : ℕ) (hr : r ≤ 2 ^ 24) :
    ∃ m, patternUnits m = r * 2 ^ k := by
  induction k generalizing r with
  | zero => exact ⟨0 * 2 ^ 23 + r, patternUnits_mul_add (.inl rfl) hr⟩
  | succ k ih =>
    obtain hlt | hge := Nat.lt_or_ge r (2 ^ 23)
    · obtain ⟨m, hm⟩ := ih (r := 2 * r) (by omega)
      exact ⟨m, by rw [hm, pow_succ]; ring⟩
    · exact ⟨(k + 1) * 2 ^ 23 + r, patternUnits_mul_add (.inr hge) hr⟩

/-! ### The nearest pattern -/

/-- `m` is the pattern whose magnitude is nearest `v` units, and even on a tie. -/
structure IsNearestPattern (v : ℚ) (m : ℕ) : Prop where
  nearest : ∀ p, |(patternUnits m : ℚ) - v| ≤ |(patternUnits p : ℚ) - v|
  even_of_tie : ∀ p, p ≠ m → |(patternUnits p : ℚ) - v| = |(patternUnits m : ℚ) - v| → m % 2 = 0

/-- A grid value that is a multiple of `2^k` compares as its factor does. -/
theorem abs_mul_two_pow_sub (j k : ℕ) (v : ℚ) :
    |((j * 2 ^ k : ℕ) : ℚ) - v| = |(j : ℚ) - v / 2 ^ k| * 2 ^ k := by
  have hpos : (0 : ℚ) < 2 ^ k := by positivity
  rw [← abs_of_pos hpos, ← abs_mul, abs_of_pos hpos, sub_mul, div_mul_cancel₀ _ hpos.ne']
  push_cast
  rfl

/-- Rounding the significand rounds the pattern: the grid points off the multiples of `2^k` lie below
`2^(23+k)`, which is a multiple itself and not above `v`. -/
theorem isNearestPattern_of_significand {v : ℚ} {k r : ℕ} (hr : IsNearestInteger (v / 2 ^ k) r)
    (hv : k = 0 ∨ (2 ^ 23 : ℚ) ≤ v / 2 ^ k) (hk : k = 0 ∨ 2 ^ 23 ≤ r) (hr24 : r ≤ 2 ^ 24) :
    IsNearestPattern v (k * 2 ^ 23 + r) := by
  have hpos : (0 : ℚ) < 2 ^ k := by positivity
  have hvalue := patternUnits_mul_add hk hr24
  have hmultiple : ∀ j : ℕ, |((r * 2 ^ k : ℕ) : ℚ) - v| ≤ |((j * 2 ^ k : ℕ) : ℚ) - v| := by
    intro j
    rw [abs_mul_two_pow_sub, abs_mul_two_pow_sub]
    exact mul_le_mul_of_nonneg_right (hr.nearest j) hpos.le
  have hbelow : ∀ p, k ≠ 0 → patternUnits p < 2 ^ 23 * 2 ^ k →
      |((r * 2 ^ k : ℕ) : ℚ) - v| < |(patternUnits p : ℚ) - v| := by
    intro p hk0 hp
    have hv' : ((2 ^ 23 * 2 ^ k : ℕ) : ℚ) ≤ v := by
      push_cast
      exact (le_div_iff₀ hpos).1 (hv.resolve_left hk0)
    have hp' : (patternUnits p : ℚ) < (2 ^ 23 * 2 ^ k : ℕ) := by exact_mod_cast hp
    refine (hmultiple (2 ^ 23)).trans_lt ?_
    rw [abs_of_nonpos (by linarith), abs_of_nonpos (by linarith)]
    linarith
  refine ⟨fun p => ?_, fun p hne htie => ?_⟩
  · rw [hvalue]
    obtain ⟨j, hj⟩ | ⟨hk0, hlt⟩ := patternUnits_dvd_or_lt k p
    · rw [hj]
      exact hmultiple j
    · exact (hbelow p hk0 hlt).le
  · rw [hvalue] at htie
    obtain ⟨j, hj⟩ | ⟨hk0, hlt⟩ := patternUnits_dvd_or_lt k p
    · have hjr : j ≠ r := by
        rintro rfl
        exact hne (patternUnits_strictMono.injective (hj.trans hvalue.symm))
      rw [hj, abs_mul_two_pow_sub, abs_mul_two_pow_sub] at htie
      have heven := hr.even_of_eq hjr (mul_right_cancel₀ hpos.ne' htie)
      omega
    · exact absurd htie (hbelow p hk0 hlt).ne'

/-! ### What `f32RoundMagnitude` computes -/

/-- The low bits that a 24-bit significand of `n / d` leaves out. -/
def droppedBits (n d : ℕ) : ℕ :=
  Nat.log2 (n * 2 ^ 149 / d) - 23

/-- The pattern of `n / d` before the overflow clamp. -/
def roundPattern (n d : ℕ) : ℕ :=
  droppedBits n d * 2 ^ 23 + divNearestEven (n * 2 ^ 149) (d * 2 ^ droppedBits n d)

theorem f32RoundMagnitude_eq (n d : ℕ) : f32RoundMagnitude n d = min (roundPattern n d) 0x7F800000 := rfl

/-- The value in units of 2^-149. -/
abbrev unitsOf (n d : ℕ) : ℚ :=
  (n * 2 ^ 149 : ℕ) / (d : ℚ)

theorem unitsOf_eq (n d : ℕ) : unitsOf n d = n / d * 2 ^ 149 := by
  rw [unitsOf, Nat.cast_mul, div_mul_eq_mul_div]
  norm_num

theorem unitsOf_div_lt {n d : ℕ} (hd : 0 < d) : unitsOf n d / 2 ^ droppedBits n d < 2 ^ 24 := by
  have hlog : n * 2 ^ 149 / d < 2 ^ (24 + droppedBits n d) :=
    Nat.lt_log2_self.trans_le (Nat.pow_le_pow_right (by decide) (by rw [droppedBits]; omega))
  rw [Nat.div_lt_iff_lt_mul hd] at hlog
  rw [div_lt_iff₀ (by positivity), div_lt_iff₀ (by exact_mod_cast hd), ← pow_add]
  exact_mod_cast hlog

theorem le_unitsOf_div {n d : ℕ} (hd : 0 < d) :
    droppedBits n d = 0 ∨ (2 ^ 23 : ℚ) ≤ unitsOf n d / 2 ^ droppedBits n d := by
  refine or_iff_not_imp_left.2 fun hk => ?_
  have hlog : 2 ^ (23 + droppedBits n d) ≤ n * 2 ^ 149 / d := by
    rw [droppedBits] at hk ⊢
    rw [show 23 + (Nat.log2 (n * 2 ^ 149 / d) - 23) = Nat.log2 (n * 2 ^ 149 / d) by omega]
    exact Nat.log2_self_le fun h => hk (by rw [h]; rfl)
  rw [Nat.le_div_iff_mul_le hd] at hlog
  rw [le_div_iff₀ (by positivity), le_div_iff₀ (by exact_mod_cast hd), ← pow_add]
  exact_mod_cast hlog

theorem divNearestEven_isNearestInteger_significand (n : ℕ) {d : ℕ} (hd : 0 < d) (k : ℕ) :
    IsNearestInteger (unitsOf n d / 2 ^ k) (divNearestEven (n * 2 ^ 149) (d * 2 ^ k)) := by
  have h := divNearestEven_isNearestInteger (n * 2 ^ 149) (d := d * 2 ^ k) (by positivity)
  rwa [Nat.cast_mul d, ← div_div, Nat.cast_pow] at h

/-- The significand has at most 24 bits, and a full 24 unless the pattern is subnormal. -/
theorem significand_bounds {n d : ℕ} (hd : 0 < d) :
    (droppedBits n d = 0 ∨ 2 ^ 23 ≤ divNearestEven (n * 2 ^ 149) (d * 2 ^ droppedBits n d)) ∧
      divNearestEven (n * 2 ^ 149) (d * 2 ^ droppedBits n d) ≤ 2 ^ 24 := by
  have hr := divNearestEven_isNearestInteger_significand n hd (droppedBits n d)
  set r := divNearestEven (n * 2 ^ 149) (d * 2 ^ droppedBits n d)
  obtain ⟨hlow, hhigh⟩ := abs_le.1 hr.abs_sub_le_half
  refine ⟨(le_unitsOf_div hd).imp_right fun hv => ?_, ?_⟩
  · have hlt : ((2 ^ 23 : ℕ) : ℚ) < (r + 1 : ℕ) := by push_cast; linarith
    exact Nat.lt_succ_iff.1 (Nat.cast_lt.1 hlt)
  · have hv := unitsOf_div_lt (n := n) hd
    have hlt : (r : ℚ) < (2 ^ 24 + 1 : ℕ) := by push_cast; linarith
    exact Nat.lt_succ_iff.1 (Nat.cast_lt.1 hlt)

theorem roundPattern_isNearest (n : ℕ) {d : ℕ} (hd : 0 < d) :
    IsNearestPattern (unitsOf n d) (roundPattern n d) :=
  isNearestPattern_of_significand (divNearestEven_isNearestInteger_significand n hd _)
    (le_unitsOf_div hd) (significand_bounds hd).1 (significand_bounds hd).2

/-- Half a unit of the last place: a relative 2^-24, or half a unit of 2^-149 for a subnormal. -/
theorem roundPattern_error_le (n : ℕ) {d : ℕ} (hd : 0 < d) :
    |(patternUnits (roundPattern n d) : ℚ) - unitsOf n d| ≤ max (1 / 2) (unitsOf n d / 2 ^ 24) := by
  obtain ⟨hk, hr24⟩ := significand_bounds (n := n) hd
  have hhalf :=
    (divNearestEven_isNearestInteger_significand n hd (droppedBits n d)).abs_sub_le_half
  have hpos : (0 : ℚ) < 2 ^ droppedBits n d := by positivity
  rw [roundPattern, patternUnits_mul_add hk hr24, abs_mul_two_pow_sub]
  obtain hk0 | hv := le_unitsOf_div (n := n) hd
  · rw [hk0] at hhalf ⊢
    exact le_max_of_le_left (by simpa using hhalf)
  · rw [le_div_iff₀ hpos] at hv
    refine le_max_of_le_right ?_
    calc _ ≤ 1 / 2 * 2 ^ droppedBits n d := mul_le_mul_of_nonneg_right hhalf hpos.le
      _ ≤ unitsOf n d / 2 ^ 24 := by rw [le_div_iff₀ (by norm_num)]; linarith

/-! ### Comparing with a grid point -/

section
variable {v : ℚ} {m : ℕ} (h : IsNearestPattern v m) {p : ℕ}
include h

/-- A grid point not above the value is not above the rounded one. -/
theorem IsNearestPattern.le_of_units_le (hp : (patternUnits p : ℚ) ≤ v) : p ≤ m := by
  by_contra! hlt
  have hunits : (patternUnits m : ℚ) < patternUnits p := by exact_mod_cast patternUnits_strictMono hlt
  have hnear := h.nearest p
  rw [abs_of_nonpos (by linarith), abs_of_nonpos (by linarith)] at hnear
  linarith

/-- A grid point not below the value is not below the rounded one. -/
theorem IsNearestPattern.le_of_le_units (hp : v ≤ patternUnits p) : m ≤ p := by
  by_contra! hlt
  have hunits : (patternUnits p : ℚ) < patternUnits m := by exact_mod_cast patternUnits_strictMono hlt
  have hnear := h.nearest p
  rw [abs_of_nonneg (by linarith), abs_of_nonneg (by linarith)] at hnear
  linarith

/-- A value on the grid is its own rounding. -/
theorem IsNearestPattern.eq_of_units_eq (hp : (patternUnits p : ℚ) = v) : m = p :=
  le_antisymm (h.le_of_le_units hp.ge) (h.le_of_units_le hp.le)

end

/-- The largest finite magnitude and 2^128, in units of 2^-149. -/
theorem patternUnits_max : patternUnits 0x7F7FFFFF = (2 ^ 24 - 1) * 2 ^ 253 ∧
    patternUnits 0x7F800000 = 2 ^ 24 * 2 ^ 253 :=
  ⟨patternUnits_mul_add (k := 253) (r := 2 ^ 24 - 1) (by decide) (by decide),
    patternUnits_mul_add (k := 253) (r := 2 ^ 24) (by decide) (by decide)⟩

/-- The pattern stays below the infinity's exactly below the overflow threshold, halfway between the
largest finite magnitude, whose pattern is odd, and 2^128. -/
theorem IsNearestPattern.lt_inf_iff {v : ℚ} {m : ℕ} (h : IsNearestPattern v m) :
    m < 0x7F800000 ↔ v < f32Overflow * 2 ^ 149 := by
  have hthreshold : f32Overflow * 2 ^ 149 = (2 ^ 24 - 1 / 2) * 2 ^ 253 := by
    unfold f32Overflow; norm_num
  obtain ⟨hmax, hinf⟩ := patternUnits_max
  replace hmax : (patternUnits 0x7F7FFFFF : ℚ) = (2 ^ 24 - 1) * 2 ^ 253 := by rw [hmax]; norm_num
  replace hinf : (patternUnits 0x7F800000 : ℚ) = 2 ^ 24 * 2 ^ 253 := by rw [hinf]; norm_num
  rw [hthreshold]
  constructor
  · intro hm
    by_contra! hv
    have hmle : (patternUnits m : ℚ) ≤ patternUnits 0x7F7FFFFF := by
      exact_mod_cast patternUnits_strictMono.monotone (by omega : m ≤ 0x7F7FFFFF)
    have hnear := h.nearest 0x7F800000
    have htie := h.even_of_tie 0x7F800000 (by omega)
    rw [hmax] at hmle
    rw [hinf, abs_of_nonpos (by linarith : (patternUnits m : ℚ) - v ≤ 0)] at hnear htie
    obtain habove | hbelow := le_abs.1 hnear
    · have hmeq : (patternUnits m : ℚ) = (2 ^ 24 - 1) * 2 ^ 253 := by linarith
      have hm' : m = 0x7F7FFFFF :=
        patternUnits_strictMono.injective (by exact_mod_cast hmeq.trans hmax.symm)
      have heven := htie (by rw [abs_of_nonneg (by linarith)]; linarith)
      omega
    · linarith
  · intro hv
    by_contra! hm
    have hmle : (patternUnits 0x7F800000 : ℚ) ≤ patternUnits m := by
      exact_mod_cast patternUnits_strictMono.monotone hm
    have hnear := h.nearest 0x7F7FFFFF
    rw [hinf] at hmle
    rw [hmax, abs_of_nonneg (by linarith)] at hnear
    obtain hbelow | habove := le_abs.1 hnear <;> linarith

end Sys2Proof.Machine
end

section
/-! Binary32 patterns as a sign and 31 low bits (00_scope R12), and the machine's arithmetic on them:
`rne32` rounds correctly (00_scope R13), and so do the division, the product and the conversion of
40_convert R103, R115 and R117. -/

namespace Sys2Proof.Machine

/-! ### The low 31 bits of a pattern -/

/-- The bits of a pattern besides its sign. -/
def lowBits (b : Word) : ℕ :=
  b.toNat % 2 ^ 31

theorem f32Exponent_eq (b : Word) : f32Exponent b = lowBits b / 2 ^ 23 := by
  rw [f32Exponent, BitVec.extractLsb'_toNat, Nat.shiftRight_eq_div_pow, lowBits]
  omega

theorem f32Fraction_eq (b : Word) : f32Fraction b = lowBits b % 2 ^ 23 := by
  rw [f32Fraction, BitVec.extractLsb'_toNat, Nat.shiftRight_eq_div_pow, lowBits]
  omega

theorem f32Magnitude_eq (b : Word) : f32Magnitude b = patternUnits (lowBits b) := by
  rw [f32Magnitude, f32Exponent_eq, f32Fraction_eq, patternUnits]

theorem f32IsFinite_iff (b : Word) : f32IsFinite b = true ↔ lowBits b < 0x7F800000 := by
  rw [f32IsFinite, bne_iff_ne, f32Exponent_eq, lowBits]
  omega

theorem f32IsInf_iff (b : Word) : f32IsInf b = true ↔ lowBits b = 0x7F800000 := by
  rw [f32IsInf, Bool.and_eq_true, beq_iff_eq, beq_iff_eq, f32Exponent_eq, f32Fraction_eq, lowBits]
  omega

theorem f32IsNan_iff (b : Word) : f32IsNan b = true ↔ 0x7F800000 < lowBits b := by
  rw [f32IsNan, Bool.and_eq_true, beq_iff_eq, bne_iff_ne, f32Exponent_eq, f32Fraction_eq, lowBits]
  omega

/-- A pattern is even when its low bits are. -/
theorem getLsbD_zero_eq_false_iff (b : Word) : b.getLsbD 0 = false ↔ lowBits b % 2 = 0 := by
  rw [lowBits, BitVec.getLsbD, Nat.testBit_zero, decide_eq_false_iff_not]
  omega

theorem lowBits_f32Pack (neg : Bool) {m : ℕ} (hm : m < 2 ^ 31) : lowBits (f32Pack neg m) = m := by
  rw [lowBits, f32Pack, toNat_append_eq_mul_add, BitVec.toNat_ofNat]
  omega

@[simp] theorem f32Sign_f32Pack (neg : Bool) (m : ℕ) : f32Sign (f32Pack neg m) = neg := by
  rw [f32Sign, f32Pack, BitVec.getLsbD_append]
  cases neg <;> rfl

/-! ### The value of a pattern -/

/-- The factor that a sign bit stands for. -/
def signFactor (neg : Bool) : ℚ :=
  if neg then -1 else 1

@[simp] theorem signFactor_false : signFactor false = 1 := rfl
@[simp] theorem signFactor_true : signFactor true = -1 := rfl

@[simp] theorem abs_signFactor_mul (neg : Bool) (x : ℚ) : |signFactor neg * x| = |x| := by
  cases neg <;> simp

theorem signFactor_mul_self (neg : Bool) (x : ℚ) : signFactor neg * (signFactor neg * x) = x := by
  cases neg <;> simp

/-- The distance from a signed value, seen on the side of its sign. -/
theorem abs_sub_signFactor_mul (neg : Bool) (x y : ℚ) :
    |y - signFactor neg * x| = |signFactor neg * y - x| := by
  cases neg
  case false => simp
  case true => rw [← abs_neg]; congr 1; simp; ring

theorem f32Value_eq (b : Word) : f32Value b = signFactor (f32Sign b) * (f32Magnitude b / 2 ^ 149) :=
  mul_div_assoc ..

/-! ### `rne32` -/

@[simp] theorem f32Sign_rne32 (neg : Bool) (n d : ℕ) : f32Sign (rne32 neg n d) = neg :=
  f32Sign_f32Pack _ _

theorem lowBits_rne32 (neg : Bool) (n d : ℕ) :
    lowBits (rne32 neg n d) = min (roundPattern n d) 0x7F800000 := by
  rw [rne32, f32RoundMagnitude_eq]
  exact lowBits_f32Pack _ (by omega)

theorem f32IsNan_rne32 (neg : Bool) (n d : ℕ) : f32IsNan (rne32 neg n d) = false := by
  rw [← Bool.not_eq_true, f32IsNan_iff, lowBits_rne32]
  omega

theorem f32IsFinite_rne32_iff (neg : Bool) (n d : ℕ) :
    f32IsFinite (rne32 neg n d) = true ↔ roundPattern n d < 0x7F800000 := by
  rw [f32IsFinite_iff, lowBits_rne32]
  omega

theorem f32Magnitude_rne32 {neg : Bool} {n d : ℕ} (h : f32IsFinite (rne32 neg n d) = true) :
    f32Magnitude (rne32 neg n d) = patternUnits (roundPattern n d) := by
  rw [f32IsFinite_rne32_iff] at h
  rw [f32Magnitude_eq, lowBits_rne32, min_eq_left h.le]

/-- Among values of both signs the nearest to `x ≥ 0` is the nearest by magnitude: a value of the other
sign is farther, or the zero. -/
theorem nearest_of_nearest_abs {x y z : ℚ} {even : Prop} (hx : 0 ≤ x) (hy : 0 ≤ y)
    (hzero : |y - x| ≤ |0 - x|) (hnear : |y - x| ≤ |(|z|) - x|)
    (htie : |z| ≠ y → |(|z|) - x| = |y - x| → even) :
    |y - x| ≤ |z - x| ∧ (|z - x| = |y - x| → z ≠ y → even) := by
  have hfold : |(|z|) - x| ≤ |z - x| := by
    simpa [abs_of_nonneg hx] using abs_abs_sub_abs_le z x
  refine ⟨hnear.trans hfold, fun heq hne => ?_⟩
  by_cases hzy : |z| = y
  · obtain rfl | rfl := (abs_eq hy).1 hzy
    · exact absurd rfl hne
    · rw [zero_sub, abs_neg, abs_of_nonneg hx] at hzero
      have hsum : |-y - x| = y + x := by rw [← neg_add', abs_neg, abs_of_nonneg (by linarith)]
      exact absurd (by linarith : -y = y) hne
  · exact htie hzy (le_antisymm (hfold.trans heq.le) hnear)

/-- Below the overflow threshold `rne32` is finite. -/
theorem f32IsFinite_rne32_iff_lt (neg : Bool) (n : ℕ) {d : ℕ} (hd : 0 < d) :
    f32IsFinite (rne32 neg n d) = true ↔ (n : ℚ) / d < f32Overflow := by
  rw [f32IsFinite_rne32_iff, (roundPattern_isNearest n hd).lt_inf_iff, unitsOf_eq]
  exact mul_lt_mul_iff_of_pos_right (by norm_num)

theorem rne32_of_not_finite {neg : Bool} {n d : ℕ} (h : ¬ f32IsFinite (rne32 neg n d) = true) :
    rne32 neg n d = f32Pack neg 0x7F800000 := by
  rw [f32IsFinite_rne32_iff, Nat.not_lt] at h
  rw [rne32, f32RoundMagnitude_eq, min_eq_right h]

/-- Distances of values are those of magnitudes, in units of 2^-149. -/
theorem abs_div_sub_eq (m n d : ℕ) :
    |(m : ℚ) / 2 ^ 149 - n / d| = |(m : ℚ) - unitsOf n d| / 2 ^ 149 := by
  rw [unitsOf_eq, ← abs_of_pos (by norm_num : (0 : ℚ) < 2 ^ 149), ← abs_div,
    abs_of_pos (by norm_num : (0 : ℚ) < 2 ^ 149), sub_div, mul_div_cancel_right₀ _ (by norm_num)]

theorem signFactor_mul_f32Value_rne32 {neg : Bool} {n d : ℕ} (h : f32IsFinite (rne32 neg n d) = true) :
    signFactor neg * f32Value (rne32 neg n d) = patternUnits (roundPattern n d) / 2 ^ 149 := by
  rw [f32Value_eq, f32Sign_rne32, f32Magnitude_rne32 h, signFactor_mul_self]

/-- A finite `rne32` is a nearest pattern by value, with an even fraction on a tie. -/
theorem rne32_nearest {neg : Bool} {n d : ℕ} (hd : 0 < d) (hfinite : f32IsFinite (rne32 neg n d) = true)
    (p : Word) :
    |f32Value (rne32 neg n d) - signFactor neg * (n / d)| ≤ |f32Value p - signFactor neg * (n / d)| ∧
      (|f32Value p - signFactor neg * (n / d)| = |f32Value (rne32 neg n d) - signFactor neg * (n / d)| →
        f32Value p ≠ f32Value (rne32 neg n d) → (rne32 neg n d).getLsbD 0 = false) := by
  have hpattern := roundPattern_isNearest n hd
  have hnear : ∀ m, |(patternUnits (roundPattern n d) : ℚ) / 2 ^ 149 - n / d| ≤
      |(patternUnits m : ℚ) / 2 ^ 149 - n / d| := by
    intro m
    rw [abs_div_sub_eq, abs_div_sub_eq]
    exact div_le_div_of_nonneg_right (hpattern.nearest m) (by norm_num)
  have heven : ∀ m, (patternUnits m : ℚ) / 2 ^ 149 ≠ patternUnits (roundPattern n d) / 2 ^ 149 →
      |(patternUnits m : ℚ) / 2 ^ 149 - n / d| =
        |(patternUnits (roundPattern n d) : ℚ) / 2 ^ 149 - n / d| →
      (rne32 neg n d).getLsbD 0 = false := by
    intro m hm htie
    rw [abs_div_sub_eq, abs_div_sub_eq, div_left_inj' (by norm_num)] at htie
    rw [getLsbD_zero_eq_false_iff, lowBits_rne32,
      min_eq_left ((f32IsFinite_rne32_iff neg n d).1 hfinite).le]
    exact hpattern.even_of_tie m (fun h => hm (by rw [h])) htie
  have hvalue := signFactor_mul_f32Value_rne32 hfinite
  have habs : |signFactor neg * f32Value p| = patternUnits (lowBits p) / 2 ^ 149 := by
    rw [abs_signFactor_mul, abs_f32Value, f32Magnitude_eq]
  rw [abs_sub_signFactor_mul, abs_sub_signFactor_mul, hvalue]
  obtain ⟨hle, htie⟩ := nearest_of_nearest_abs (z := signFactor neg * f32Value p)
    (by positivity : (0 : ℚ) ≤ n / d)
    (by positivity : (0 : ℚ) ≤ patternUnits (roundPattern n d) / 2 ^ 149) (by simpa using hnear 0)
    (by rw [habs]; exact hnear _) (by rw [habs]; exact heven _)
  refine ⟨hle, fun heq hne => htie heq fun h => hne ?_⟩
  rw [← signFactor_mul_self neg (f32Value p), h, ← hvalue, signFactor_mul_self]

/-- `rne32` rounds to nearest even (00_scope R13). -/
theorem rne32_isNearestEven {x : ℚ} {neg : Bool} {n d : ℕ} (hd : 0 < d)
    (hx : x = signFactor neg * (n / d)) : IsNearestEven x (rne32 neg n d) := by
  have hquot : (0 : ℚ) ≤ n / d := by positivity
  have habs : |x| = n / d := by rw [hx, abs_signFactor_mul, abs_of_nonneg hquot]
  have hfinite := f32IsFinite_rne32_iff_lt neg n hd
  unfold IsNearestEven
  rw [habs]
  by_cases hlt : (n : ℚ) / d < f32Overflow
  · rw [if_pos hlt, hx]
    exact ⟨hfinite.2 hlt, fun p _ => rne32_nearest hd (hfinite.2 hlt) p⟩
  · have hpos : (0 : ℚ) < n / d := (by norm_num [f32Overflow] : 0 < f32Overflow).trans_le (not_lt.1 hlt)
    rw [if_neg hlt, rne32_of_not_finite (mt hfinite.1 hlt), hx]
    cases neg
    case false => rw [signFactor_false, one_mul, if_pos hpos]; rfl
    case true => rw [signFactor_true, neg_one_mul, if_neg (by linarith)]; rfl

/-- The error of a finite result: a relative 2^-24, or 2^-150 for a subnormal (40_convert R122). -/
theorem rne32_error_le {x : ℚ} {neg : Bool} {n d : ℕ} (hd : 0 < d) (hx : x = signFactor neg * (n / d))
    (hfinite : f32IsFinite (rne32 neg n d) = true) :
    |f32Value (rne32 neg n d) - x| ≤ max (1 / 2 ^ 150) (|x| / 2 ^ 24) := by
  have hpos : (0 : ℚ) < 2 ^ 149 := by norm_num
  have habs : |x| = n / d := by
    rw [hx, abs_signFactor_mul, abs_of_nonneg (by positivity : (0 : ℚ) ≤ n / d)]
  have hmax : max (1 / 2 ^ 150) ((n : ℚ) / d / 2 ^ 24) * 2 ^ 149 = max (1 / 2) (unitsOf n d / 2 ^ 24) := by
    rw [max_mul_of_nonneg _ _ hpos.le, unitsOf_eq, div_mul_eq_mul_div _ ((2 : ℚ) ^ 24)]
    norm_num
  rw [habs, hx, abs_sub_signFactor_mul, signFactor_mul_f32Value_rne32 hfinite, abs_div_sub_eq,
    div_le_iff₀ hpos, hmax]
  exact roundPattern_error_le n hd

/-- A zero rounds to a zero. -/
theorem roundPattern_zero {d : ℕ} (hd : 0 < d) : roundPattern 0 d = 0 :=
  (roundPattern_isNearest 0 hd).eq_of_units_eq (by simp [unitsOf_eq])

theorem rne32_zero (neg : Bool) {d : ℕ} (hd : 0 < d) : rne32 neg 0 d = f32Pack neg 0 := by
  rw [rne32, f32RoundMagnitude_eq, roundPattern_zero hd, Nat.zero_min]

theorem f32Magnitude_f32Pack_zero (neg : Bool) : f32Magnitude (f32Pack neg 0) = 0 := by
  rw [f32Magnitude_eq, lowBits_f32Pack neg (by norm_num), patternUnits_zero]

theorem f32IsFinite_f32Pack_zero (neg : Bool) : f32IsFinite (f32Pack neg 0) = true := by
  rw [f32IsFinite_iff, lowBits_f32Pack neg (by norm_num)]
  norm_num

/-! ### A legal scale (10_state R39) -/

section
variable {s : Word} (h : scaleLegal s = true)
include h

theorem lowBits_of_scaleLegal : 1 ≤ lowBits s ∧ lowBits s ≤ 0x7F7FFFFF := by
  rw [scaleLegal, decide_eq_true_eq] at h
  rw [lowBits]
  omega

theorem f32Sign_of_scaleLegal : f32Sign s = false := by
  rw [scaleLegal, decide_eq_true_eq] at h
  exact Nat.testBit_lt_two_pow (by omega)

theorem f32Magnitude_pos_of_scaleLegal : 0 < f32Magnitude s := by
  rw [f32Magnitude_eq]
  exact patternUnits_strictMono (lowBits_of_scaleLegal h).1

theorem f32Value_of_scaleLegal : f32Value s = f32Magnitude s / 2 ^ 149 := by
  rw [f32Value_eq, f32Sign_of_scaleLegal h, signFactor_false, one_mul]

theorem f32Value_pos_of_scaleLegal : 0 < f32Value s := by
  have hmag := f32Magnitude_pos_of_scaleLegal h
  rw [f32Value_of_scaleLegal h]
  positivity

/-! ### Division, product, conversion -/

theorem f32Div_of_scaleLegal (x : Word) :
    f32Div x s = rne32 (f32Sign x) (f32Magnitude x) (f32Magnitude s) := by
  rw [f32Div, f32Sign_of_scaleLegal h, Bool.bne_false]

theorem f32Value_div_of_scaleLegal (x : Word) :
    f32Value x / f32Value s = signFactor (f32Sign x) * (f32Magnitude x / f32Magnitude s) := by
  rw [f32Value_eq, f32Value_of_scaleLegal h, mul_div_assoc, div_div_div_cancel_right₀ (by norm_num)]

theorem f32Div_isNearestEven (x : Word) : IsNearestEven (f32Value x / f32Value s) (f32Div x s) := by
  rw [f32Div_of_scaleLegal h]
  exact rne32_isNearestEven (f32Magnitude_pos_of_scaleLegal h) (f32Value_div_of_scaleLegal h x)

theorem f32Mul_of_scaleLegal (f : Word) :
    f32Mul f s = rne32 (f32Sign f) (f32Magnitude f * f32Magnitude s) (2 ^ 298) := by
  rw [f32Mul, f32Sign_of_scaleLegal h, Bool.bne_false]

theorem f32Value_mul_of_scaleLegal (f : Word) : f32Value f * f32Value s =
    signFactor (f32Sign f) * ((f32Magnitude f * f32Magnitude s : ℕ) / (2 ^ 298 : ℕ)) := by
  rw [f32Value_eq, f32Value_of_scaleLegal h, Nat.cast_mul, Nat.cast_pow, Nat.cast_ofNat,
    (pow_add 2 149 149 : (2 : ℚ) ^ 298 = _), mul_assoc, div_mul_div_comm]

theorem f32Mul_isNearestEven (f : Word) : IsNearestEven (f32Value f * f32Value s) (f32Mul f s) := by
  rw [f32Mul_of_scaleLegal h]
  exact rne32_isNearestEven (by positivity) (f32Value_mul_of_scaleLegal h f)

end

theorem intCast_eq_signFactor_mul (n : ℤ) :
    (n : ℚ) = signFactor (decide (n < 0)) * (n.natAbs / (1 : ℕ)) := by
  rw [Nat.cast_one, div_one, Nat.cast_natAbs]
  by_cases hn : n < 0
  · simp [hn, abs_of_neg hn]
  · simp [hn, abs_of_nonneg (not_lt.1 hn)]

theorem i2f32_isNearestEven (n : ℤ) : IsNearestEven n (i2f32 n) :=
  rne32_isNearestEven one_pos (intCast_eq_signFactor_mul n)

/-- An integer far below the overflow threshold converts to a finite pattern. -/
theorem f32IsFinite_i2f32 {n : ℤ} (hn : n.natAbs ≤ 2 ^ 32) : f32IsFinite (i2f32 n) = true := by
  have hn' : (n.natAbs : ℚ) ≤ 2 ^ 32 := by exact_mod_cast hn
  rw [i2f32, f32IsFinite_rne32_iff_lt _ _ one_pos, Nat.cast_one, div_one]
  exact hn'.trans_lt (by norm_num [f32Overflow])

end Sys2Proof.Machine
end

section
/-! `QCODE` (40_convert R102 to R111): the quotient, its code, and how both grow with the sample. -/

namespace Sys2Proof.Machine

/-! ### The kinds of patterns (00_scope R12) -/

theorem f32IsInf_eq_false_of_finite {b : Word} (h : f32IsFinite b = true) : f32IsInf b = false := by
  rw [f32IsFinite_iff] at h
  rw [← Bool.not_eq_true, f32IsInf_iff]
  omega

/-! ### The quotient (40_convert R103) -/

theorem quotient_of_inf {x : Word} (s : Word) (h : f32IsInf x = true) : quotient x s = x :=
  if_pos h

theorem quotient_of_finite {x : Word} (s : Word) (h : f32IsFinite x = true) : quotient x s = f32Div x s := by
  rw [quotient, f32IsInf_eq_false_of_finite h, if_neg Bool.false_ne_true]

/-- Settles O49: the division of a finite sample is one correct rounding. -/
theorem quotientIsCorrectlyRounded : Obligations.QuotientIsCorrectlyRounded := by
  intro x s hs
  refine ⟨fun hx => ?_, quotient_of_inf s⟩
  rw [quotient_of_finite s hx]
  exact f32Div_isNearestEven hs x

/-! ### The code (40_convert R104 to R109) -/

theorem qcode_of_not_nan {x : Word} (s : Word) (zp : ℤ) (w : ℕ) (h : f32IsNan x = false) :
    qcode x s zp w = some (codeOfQuotient (quotient x s) zp w) := by
  rw [qcode, h, if_neg Bool.false_ne_true]

theorem codeOfQuotient_posInf (zp : ℤ) (w : ℕ) : codeOfQuotient 0x7F800000 zp w = maxCode w := rfl

theorem codeOfQuotient_negInf (zp : ℤ) (w : ℕ) : codeOfQuotient 0xFF800000 zp w = 0 := rfl

theorem codeOfQuotient_of_finite {q : Word} (zp : ℤ) (w : ℕ) (h : f32IsFinite q = true) :
    codeOfQuotient q zp w = clampCode (roundHaz q + zp) w := by
  rw [codeOfQuotient, f32IsInf_eq_false_of_finite h, if_neg Bool.false_ne_true]

/-- Settles O51: by the sign of the infinity. -/
theorem infiniteQuotientSaturates : Obligations.InfiniteQuotientSaturates := by
  intro x s zp w hx
  rw [qcode_of_not_nan s zp w hx]
  exact ⟨fun hq => by rw [hq, codeOfQuotient_posInf, maxCode],
    fun hq => by rw [hq, codeOfQuotient_negInf]⟩

theorem clampCode_cast (x : ℤ) (w : ℕ) : (clampCode x w : ℤ) = min (max x 0) (2 ^ w - 1) := by
  have hmax : (maxCode w : ℤ) = 2 ^ w - 1 := by
    rw [maxCode, Nat.cast_sub Nat.one_le_two_pow]
    push_cast
    rfl
  rw [clampCode, Int.toNat_of_nonneg (le_min (le_max_right _ _) (Int.natCast_nonneg _)), hmax]

/-- Settles O52: the clamp is applied to the exact sum. -/
theorem codeIsClampedExactSum : Obligations.CodeIsClampedExactSum := by
  intro x s zp w hx hq
  refine ⟨_, qcode_of_not_nan s zp w hx, ?_⟩
  rw [codeOfQuotient_of_finite zp w hq, clampCode_cast]

/-- Settles O53: both the clamp and the saturated codes stay in range. -/
theorem codeIsInRange : Obligations.CodeIsInRange := by
  intro x s zp w _ _
  refine ⟨fun hx => ?_, fun hx => if_pos hx⟩
  have hcode := qcode_of_not_nan s zp w hx
  exact ⟨_, hcode, qcode_le_maxCode x s zp w _ hcode⟩

/-- Settles O55: a rounded quotient beyond `2^33` outweighs every zero point, so the sum keeps its side of
the range. -/
theorem boundedWidthGivesSameCode : Obligations.BoundedWidthGivesSameCode := by
  intro r zp w hw hzp hzp'
  have hpos : (0 : ℤ) ≤ 2 ^ w - 1 := by obtain rfl | rfl := hw <;> norm_num
  have hmax : (2 : ℤ) ^ w - 1 ≤ 15 := by obtain rfl | rfl := hw <;> norm_num
  rw [← Nat.cast_inj (R := ℤ), clampCode_cast, clampCode_cast]
  omega

/-! ### Monotonicity (40_convert R111) -/

theorem IsNearestEven.eq_posInf {x : ℚ} {b : Word} (h : IsNearestEven x b) (hx : f32Overflow ≤ x) :
    b = 0x7F800000 := by
  have hpos : 0 < x := (by norm_num [f32Overflow] : 0 < f32Overflow).trans_le hx
  rwa [IsNearestEven, abs_of_pos hpos, if_neg hx.not_gt, if_pos hpos] at h

theorem IsNearestEven.eq_negInf {x : ℚ} {b : Word} (h : IsNearestEven x b) (hx : x ≤ -f32Overflow) :
    b = 0xFF800000 := by
  have hneg : x < 0 := hx.trans_lt (by norm_num [f32Overflow])
  rwa [IsNearestEven, abs_of_neg hneg, if_neg (by linarith), if_neg hneg.le.not_gt] at h

theorem IsNearestEven.of_abs_lt {x : ℚ} {b : Word} (h : IsNearestEven x b) (hx : |x| < f32Overflow) :
    f32IsFinite b = true ∧ ∀ p, f32IsFinite p = true → |f32Value b - x| ≤ |f32Value p - x| := by
  rw [IsNearestEven, if_pos hx] at h
  exact ⟨h.1, fun p hp => (h.2 p hp).1⟩

/-- Correct rounding keeps the order of two different values: if it inverted it, each rounding would be
no farther from the other's value, so the values would be in the other order too. -/
theorem IsNearestEven.f32Le_of_lt {x y : ℚ} {b c : Word} (hb : IsNearestEven x b)
    (hc : IsNearestEven y c) (hlt : x < y) : f32Le b c := by
  obtain hx | hx := le_or_gt x (-f32Overflow)
  · exact .inl (hb.eq_negInf hx)
  obtain hy | hy := le_or_gt f32Overflow y
  · exact .inr (.inl (hc.eq_posInf hy))
  obtain ⟨hbfin, hbnear⟩ := hb.of_abs_lt (abs_lt.2 ⟨hx, hlt.trans hy⟩)
  obtain ⟨hcfin, hcnear⟩ := hc.of_abs_lt (abs_lt.2 ⟨hx.trans hlt, hy⟩)
  refine .inr (.inr ⟨hbfin, hcfin, ?_⟩)
  by_contra! hinv
  have hbsq := sq_le_sq.2 (hbnear c hcfin)
  have hcsq := sq_le_sq.2 (hcnear b hbfin)
  have hcross : 0 < (f32Value b - f32Value c) * (y - x) := mul_pos (by linarith) (by linarith)
  linarith

/-- The quotient does not decrease with the sample. -/
theorem f32Div_le_f32Div {x y s : Word} (hs : scaleLegal s = true) (h : f32Value x < f32Value y) :
    f32Le (f32Div x s) (f32Div y s) :=
  (f32Div_isNearestEven hs x).f32Le_of_lt (f32Div_isNearestEven hs y)
    (div_lt_div_of_pos_right h (f32Value_pos_of_scaleLegal hs))

theorem roundHaz_mono {p q : Word} (hp : f32IsFinite p = true) (hq : f32IsFinite q = true)
    (h : f32Value p ≤ f32Value q) : roundHaz p ≤ roundHaz q := by
  have hfloor : ∀ v : ℚ, 0 ≤ ⌊|v| + 1 / 2⌋ := fun v => Int.floor_nonneg.2 (by positivity)
  rw [roundHazIsTiesAway p hp, roundHazIsTiesAway q hq]
  obtain hp0 | hp0 := le_or_gt 0 (f32Value p)
  · rw [if_pos hp0, if_pos (hp0.trans h), one_mul, one_mul, abs_of_nonneg hp0, abs_of_nonneg (hp0.trans h)]
    exact Int.floor_le_floor (by linarith)
  obtain hq0 | hq0 := le_or_gt 0 (f32Value q)
  · rw [if_neg hp0.not_ge, if_pos hq0]
    linarith [hfloor (f32Value p), hfloor (f32Value q)]
  · rw [if_neg hp0.not_ge, if_neg hq0.not_ge, neg_one_mul, neg_one_mul, neg_le_neg_iff, abs_of_neg hp0,
      abs_of_neg hq0]
    exact Int.floor_le_floor (by linarith)

theorem clampCode_mono {x y : ℤ} (w : ℕ) (h : x ≤ y) : clampCode x w ≤ clampCode y w :=
  Int.toNat_le_toNat (min_le_min_right _ (max_le_max_right _ h))

theorem codeOfQuotient_le_maxCode (q : Word) (zp : ℤ) (w : ℕ) : codeOfQuotient q zp w ≤ maxCode w := by
  unfold codeOfQuotient
  split_ifs
  · exact Nat.zero_le _
  · exact le_rfl
  · exact Int.toNat_le.2 (min_le_right _ _)

/-- The code does not decrease with the quotient: the infinities saturate at the ends of the range. -/
theorem codeOfQuotient_mono {p q : Word} (zp : ℤ) (w : ℕ) (h : f32Le p q) :
    codeOfQuotient p zp w ≤ codeOfQuotient q zp w := by
  obtain rfl | rfl | ⟨hp, hq, hle⟩ := h
  · exact Nat.zero_le _
  · exact codeOfQuotient_le_maxCode p zp w
  · rw [codeOfQuotient_of_finite zp w hp, codeOfQuotient_of_finite zp w hq]
    exact clampCode_mono w (Int.add_le_add_right (roundHaz_mono hp hq hle) zp)

/-- Patterns of one value are the same pattern or the two zeros. -/
theorem sign_eq_or_magnitude_zero_of_value_eq {x y : Word} (h : f32Value x = f32Value y) :
    f32Magnitude x = f32Magnitude y ∧ (f32Sign x = f32Sign y ∨ f32Magnitude y = 0) := by
  have hmag : f32Magnitude x = f32Magnitude y := by
    have habs := congrArg abs h
    rw [abs_f32Value, abs_f32Value, div_left_inj' (by norm_num)] at habs
    exact_mod_cast habs
  refine ⟨hmag, or_iff_not_imp_left.2 fun hsign => ?_⟩
  have hzero : (f32Magnitude y : ℚ) / 2 ^ 149 = 0 := by
    rw [f32Value_eq, f32Value_eq, hmag, Bool.eq_not_of_ne hsign] at h
    cases hy : f32Sign y <;> simp only [hy, Bool.not_true, Bool.not_false, signFactor_true,
      signFactor_false] at h <;> linarith
  simpa using hzero

theorem codeOfQuotient_zero (neg : Bool) (zp : ℤ) (w : ℕ) :
    codeOfQuotient (f32Pack neg 0) zp w = clampCode zp w := by
  rw [codeOfQuotient_of_finite zp w (f32IsFinite_f32Pack_zero neg), roundHaz_eq_floor,
    floor_abs_f32Value_add_half_of_magnitude_zero (f32Magnitude_f32Pack_zero neg), mul_zero, zero_add]

/-- Samples of one value have one code, the two zeros among them. -/
theorem codeOfQuotient_f32Div_of_value_eq {x y s : Word} (zp : ℤ) (w : ℕ) (hs : scaleLegal s = true)
    (h : f32Value x = f32Value y) :
    codeOfQuotient (f32Div x s) zp w = codeOfQuotient (f32Div y s) zp w := by
  rw [f32Div_of_scaleLegal hs, f32Div_of_scaleLegal hs]
  obtain ⟨hmag, hsign | hzero⟩ := sign_eq_or_magnitude_zero_of_value_eq h
  · rw [hmag, hsign]
  · have hpos := f32Magnitude_pos_of_scaleLegal hs
    rw [hmag, hzero, rne32_zero _ hpos, rne32_zero _ hpos, codeOfQuotient_zero, codeOfQuotient_zero]

theorem codeOfQuotient_eq_of_qcode {x s : Word} {zp : ℤ} {w c : ℕ} (h : qcode x s zp w = some c) :
    codeOfQuotient (quotient x s) zp w = c := by
  rw [qcode] at h
  split_ifs at h
  exact Option.some.inj h

/-- Settles O54: an infinite sample is its own quotient, and finite samples have quotients in their
order. -/
theorem codeIsMonotone : Obligations.CodeIsMonotone := by
  intro x y s zp w c d hs hle hc hd
  rw [← codeOfQuotient_eq_of_qcode hc, ← codeOfQuotient_eq_of_qcode hd]
  obtain rfl | rfl | ⟨hx, hy, hle⟩ := hle
  · rw [quotient_of_inf s (x := 0xFF800000) rfl]
    exact codeOfQuotient_mono zp w (.inl rfl)
  · rw [quotient_of_inf s (x := 0x7F800000) rfl]
    exact codeOfQuotient_mono zp w (.inr (.inl rfl))
  · rw [quotient_of_finite s hx, quotient_of_finite s hy]
    obtain hlt | heq := hle.lt_or_eq
    · exact codeOfQuotient_mono zp w (f32Div_le_f32Div hs hlt)
    · exact (codeOfQuotient_f32Div_of_value_eq zp w hs heq).le

end Sys2Proof.Machine
end

section
/-! `DQVAL` (40_convert R115 to R119) and the round trip (R121, R122). -/

namespace Sys2Proof.Machine

/-! ### The conversion of an integer (40_convert R117) -/

/-- An integer of magnitude at most 2^24 is on the grid, so its conversion is exact. -/
theorem f32Value_i2f32 {n : ℤ} (hn : n.natAbs ≤ 2 ^ 24) : f32Value (i2f32 n) = n := by
  have hfinite := f32IsFinite_i2f32 (n := n) (hn.trans (by norm_num))
  obtain ⟨m, hm⟩ := exists_patternUnits_eq_mul_two_pow 149 hn
  have hunits : (patternUnits m : ℚ) = unitsOf n.natAbs 1 := by rw [unitsOf_eq, hm]; push_cast; ring
  rw [f32Value_eq, i2f32, f32Magnitude_rne32 hfinite, f32Sign_rne32,
    (roundPattern_isNearest n.natAbs one_pos).eq_of_units_eq hunits, hunits, unitsOf_eq,
    mul_div_cancel_right₀ _ (by norm_num), ← intCast_eq_signFactor_mul]

/-- Settles O57: the conversion is finite, and exact by the grid. -/
theorem smallIntegerConversionIsExact : Obligations.SmallIntegerConversionIsExact := by
  intro n hn
  have habs : n.natAbs ≤ 2 ^ 24 := by rw [Int.abs_eq_natAbs] at hn; exact_mod_cast hn
  exact ⟨f32IsFinite_i2f32 (habs.trans (by norm_num)), f32Value_i2f32 habs⟩

/-! ### `DQVAL` (40_convert R115, R116, R118, R119) -/

/-- The difference of a code and a zero point stays far below the overflow threshold. -/
theorem natAbs_difference_le {c : ℕ} {zp : ℤ} (hc : c ≤ 15) (hlow : -2 ^ 31 ≤ zp)
    (hhigh : zp ≤ 2 ^ 31 - 1) : ((c : ℤ) - zp).natAbs ≤ 2 ^ 32 := by
  omega

/-- Settles O56: one conversion and one product, each correctly rounded. -/
theorem valueIsTwiceRoundedProduct : Obligations.ValueIsTwiceRoundedProduct := by
  intro c s zp hc hs hlow hhigh
  refine ⟨i2f32 (c - zp), f32IsFinite_i2f32 (natAbs_difference_le hc hlow hhigh), ?_,
    f32Mul_isNearestEven hs _⟩
  exact_mod_cast i2f32_isNearestEven (c - zp)

/-- A conversion of an integer other than 0 has magnitude at least 1, which is on the grid. -/
theorem le_f32Magnitude_i2f32 {n : ℤ} (hn : n ≠ 0) (hle : n.natAbs ≤ 2 ^ 32) :
    2 ^ 149 ≤ f32Magnitude (i2f32 n) := by
  obtain ⟨m, hm⟩ := exists_patternUnits_eq_mul_two_pow (r := 1) 149 (by norm_num)
  have hone : (1 : ℚ) ≤ n.natAbs := by exact_mod_cast Int.natAbs_pos.2 hn
  have hunits : (patternUnits m : ℚ) ≤ unitsOf n.natAbs 1 := by
    rw [unitsOf_eq, hm, Nat.cast_one, div_one]
    push_cast
    linarith
  rw [i2f32, f32Magnitude_rne32 (f32IsFinite_i2f32 hle), ← one_mul (2 ^ 149), ← hm]
  exact patternUnits_strictMono.monotone
    ((roundPattern_isNearest n.natAbs one_pos).le_of_units_le hunits)

/-- A magnitude other than 0 of `rne32`: the exact value reaches the smallest subnormal. -/
theorem f32Magnitude_rne32_ne_zero (neg : Bool) {n d : ℕ} (hd : 0 < d) (h : 1 ≤ unitsOf n d) :
    f32Magnitude (rne32 neg n d) ≠ 0 := by
  have hone : 1 ≤ roundPattern n d :=
    (roundPattern_isNearest n hd).le_of_units_le (p := 1) (by simpa [patternUnits] using h)
  rw [f32Magnitude_eq, lowBits_rne32]
  exact (patternUnits_strictMono (a := 0) (by omega)).ne'

/-- The product of a magnitude of at least 1 and the scale is at least the smallest subnormal. -/
theorem f32Magnitude_f32Mul_ne_zero {f s : Word} (hs : scaleLegal s = true)
    (hf : 2 ^ 149 ≤ f32Magnitude f) : f32Magnitude (f32Mul f s) ≠ 0 := by
  rw [f32Mul_of_scaleLegal hs]
  refine f32Magnitude_rne32_ne_zero _ (by positivity) ?_
  have hprod : 2 ^ 298 ≤ f32Magnitude f * f32Magnitude s * 2 ^ 149 :=
    calc 2 ^ 298 = 2 ^ 149 * 2 ^ 149 := pow_add 2 149 149
      _ ≤ f32Magnitude f * f32Magnitude s * 2 ^ 149 := Nat.mul_le_mul_right _
        (hf.trans (Nat.le_mul_of_pos_right _ (f32Magnitude_pos_of_scaleLegal hs)))
  rw [le_div_iff₀ (by positivity), one_mul]
  exact Nat.cast_le.2 hprod

/-- The difference 0 converts to +0.0, whose product with the scale is +0.0. -/
theorem f32Mul_i2f32_zero {s : Word} (hs : scaleLegal s = true) : f32Mul (i2f32 0) s = 0x00000000 := by
  have hzero : i2f32 0 = f32Pack false 0 := rne32_zero false one_pos
  rw [hzero, f32Mul_of_scaleLegal hs, f32Magnitude_f32Pack_zero, zero_mul, rne32_zero _ (by positivity),
    f32Sign_f32Pack]
  rfl

/-- Settles O58: the sign is that of the difference throughout, and neither rounding reaches a zero. -/
theorem valueHasSignOfDifference : Obligations.ValueHasSignOfDifference := by
  intro c s zp hc hs hlow hhigh
  constructor
  · rintro rfl
    rw [dqval, sub_self, f32Mul_i2f32_zero hs]
  · intro hne
    have hmag := le_f32Magnitude_i2f32 (sub_ne_zero.2 hne) (natAbs_difference_le hc hlow hhigh)
    refine ⟨?_, f32Magnitude_f32Mul_ne_zero hs hmag, ?_⟩
    · rw [dqval, f32Mul_of_scaleLegal hs, f32IsNan_rne32]
    · rw [dqval, f32Mul_of_scaleLegal hs, f32Sign_rne32, i2f32, f32Sign_rne32]
      exact decide_eq_decide.2 sub_neg

/-! ### The round trip (40_convert R121, R122) -/

/-- Without saturation the code gives the rounded quotient back. -/
theorem code_sub_zeroPoint {x s : Word} {zp : ℤ} {w c : ℕ} (hq : f32IsFinite (quotient x s) = true)
    (hc : qcode x s zp w = some c) (hlow : 0 ≤ roundHaz (quotient x s) + zp)
    (hhigh : roundHaz (quotient x s) + zp ≤ 2 ^ w - 1) : (c : ℤ) - zp = roundHaz (quotient x s) := by
  rw [← codeOfQuotient_eq_of_qcode hc, codeOfQuotient_of_finite zp w hq, clampCode_cast,
    max_eq_left hlow, min_eq_left hhigh, add_sub_cancel_right]

/-- Settles O59: the conversion of the rounded quotient is exact, so the product is the one rounding. -/
theorem roundTripReproducesQuotientTimesScale : Obligations.RoundTripReproducesQuotientTimesScale := by
  intro x s zp w c hs _ hq hc r hlow hhigh hr
  have hvalue : dqval c s zp = f32Mul (i2f32 r) s := by rw [dqval, code_sub_zeroPoint hq hc hlow hhigh]
  have hexact : f32Value (i2f32 r) = r := (smallIntegerConversionIsExact r hr).2
  refine ⟨hvalue, ?_⟩
  rw [hvalue, ← hexact]
  exact f32Mul_isNearestEven hs _

/-- `round_haz` moves a value by at most one half. -/
theorem abs_roundHaz_sub_le (q : Word) : |(roundHaz q : ℚ) - f32Value q| ≤ 1 / 2 := by
  have hround : (roundHaz q : ℚ) = signFactor (f32Sign q) * ⌊|f32Value q| + 1 / 2⌋ := by
    rw [roundHaz_eq_floor]
    cases f32Sign q <;> simp
  have hvalue : f32Value q = signFactor (f32Sign q) * |f32Value q| := by
    rw [abs_f32Value, f32Value_eq]
  rw [hround, hvalue, abs_signFactor_mul, abs_abs, ← mul_sub, abs_signFactor_mul, abs_le]
  have hfloor := Int.floor_le (|f32Value q| + 1 / 2)
  have hlt := Int.lt_floor_add_one (|f32Value q| + 1 / 2)
  exact ⟨by linarith, by linarith⟩

theorem roundHaz_eq_zero_of_abs_lt {q : Word} (h : |f32Value q| < 1 / 2) : roundHaz q = 0 := by
  have hfloor : ⌊|f32Value q| + 1 / 2⌋ = 0 :=
    Int.floor_eq_zero_iff.2 ⟨by positivity, by linarith⟩
  rw [roundHaz_eq_floor, hfloor, mul_zero]

/-- The error of a finite quotient. -/
theorem f32Div_error_le {x s : Word} (hs : scaleLegal s = true) (hq : f32IsFinite (f32Div x s) = true) :
    |f32Value (f32Div x s) - f32Value x / f32Value s| ≤
      max (1 / 2 ^ 150) (|f32Value x / f32Value s| / 2 ^ 24) := by
  rw [f32Div_of_scaleLegal hs] at hq ⊢
  exact rne32_error_le (f32Magnitude_pos_of_scaleLegal hs) (f32Value_div_of_scaleLegal hs x) hq

/-- The error of a finite product. -/
theorem f32Mul_error_le {f s : Word} (hs : scaleLegal s = true) (hv : f32IsFinite (f32Mul f s) = true) :
    |f32Value (f32Mul f s) - f32Value f * f32Value s| ≤
      1 / 2 ^ 150 + |f32Value f| * f32Value s / 2 ^ 24 := by
  have hscale := f32Value_pos_of_scaleLegal hs
  rw [f32Mul_of_scaleLegal hs] at hv ⊢
  have herror := rne32_error_le (by positivity) (f32Value_mul_of_scaleLegal hs f) hv
  rw [abs_mul, abs_of_pos hscale] at herror
  exact herror.trans (max_le_add_of_nonneg (by positivity) (by positivity))

/-- Rounding the binary32 quotient: half a step, and the error of a normal quotient; a subnormal one
rounds to 0. -/
theorem abs_roundHaz_f32Div_sub_le {x s : Word} (hs : scaleLegal s = true)
    (hq : f32IsFinite (f32Div x s) = true) :
    |(roundHaz (f32Div x s) : ℚ) - f32Value x / f32Value s| ≤
      1 / 2 + |f32Value x / f32Value s| / 2 ^ 24 := by
  have herror := f32Div_error_le hs hq
  set q := f32Div x s
  set ratio := f32Value x / f32Value s
  obtain hsmall | hlarge := lt_or_ge |ratio| (1 / 2 ^ 126)
  · have hmax : max (1 / 2 ^ 150) (|ratio| / 2 ^ 24) ≤ 1 / 2 ^ 150 :=
      max_le le_rfl (by rw [div_le_iff₀ (by norm_num)]; linarith)
    have htri := abs_add_le (f32Value q - ratio) ratio
    rw [sub_add_cancel] at htri
    rw [roundHaz_eq_zero_of_abs_lt (by linarith), Int.cast_zero, zero_sub, abs_neg]
    linarith [abs_nonneg ratio]
  · rw [max_eq_right (by rw [le_div_iff₀ (by norm_num)]; linarith)] at herror
    exact (abs_sub_le _ (f32Value q) _).trans (add_le_add (abs_roundHaz_sub_le q) herror)

/-- The same in units of the sample. -/
theorem abs_roundHaz_f32Div_mul_sub_le {x s : Word} (hs : scaleLegal s = true)
    (hq : f32IsFinite (f32Div x s) = true) :
    |roundHaz (f32Div x s) * f32Value s - f32Value x| ≤ f32Value s / 2 + |f32Value x| / 2 ^ 24 := by
  have hscale := f32Value_pos_of_scaleLegal hs
  have hround := mul_le_mul_of_nonneg_right (abs_roundHaz_f32Div_sub_le hs hq) hscale.le
  calc |roundHaz (f32Div x s) * f32Value s - f32Value x|
      = |(roundHaz (f32Div x s) : ℚ) - f32Value x / f32Value s| * f32Value s := by
        rw [← abs_of_pos hscale, ← abs_mul, abs_of_pos hscale, sub_mul, div_mul_cancel₀ _ hscale.ne']
    _ ≤ (1 / 2 + |f32Value x| / f32Value s / 2 ^ 24) * f32Value s := by
        rwa [abs_div, abs_of_pos hscale] at hround
    _ = f32Value s / 2 + |f32Value x| / 2 ^ 24 := by field_simp

/-- Settles O60: the rounding of the quotient is off by half a step and the error of the division, and
the product by its own error. -/
theorem roundTripErrorIsBounded : Obligations.RoundTripErrorIsBounded := by
  intro x s zp w c hs hw hx hq hc r hlow hhigh hr hfinite
  have hvalue : dqval c s zp = f32Mul (i2f32 r) s :=
    (roundTripReproducesQuotientTimesScale x s zp w c hs hw hq hc hlow hhigh hr).1
  rw [hvalue] at hfinite ⊢
  have hproduct := f32Mul_error_le hs hfinite
  rw [(smallIntegerConversionIsExact r hr).2] at hproduct
  have hquotient : |r * f32Value s - f32Value x| ≤ f32Value s / 2 + |f32Value x| / 2 ^ 24 := by
    have hround := abs_roundHaz_f32Div_mul_sub_le hs (quotient_of_finite s hx ▸ hq)
    rwa [← quotient_of_finite s hx] at hround
  calc |f32Value (f32Mul (i2f32 r) s) - f32Value x|
      ≤ |f32Value (f32Mul (i2f32 r) s) - r * f32Value s| + |r * f32Value s - f32Value x| :=
        abs_sub_le _ _ _
    _ ≤ (1 / 2 ^ 150 + |(r : ℚ)| * f32Value s / 2 ^ 24) + (f32Value s / 2 + |f32Value x| / 2 ^ 24) :=
        add_le_add hproduct hquotient
    _ = _ := by ring

end Sys2Proof.Machine
end

section
/-! The fault of a NaN sample (40_convert R102, 41_quantize R133, 60_exceptions R175). -/

namespace Sys2Proof.Machine

/-- A NaN has no code (40_convert R102). -/
theorem qcode_of_nan {x : Word} (s : Word) (zp : ℤ) (w : ℕ) (h : f32IsNan x = true) :
    qcode x s zp w = none :=
  if_pos h

/-- The loop ends with a fault at the first sample that is a NaN. -/
theorem packSlots_of_nan {w j k : ℕ} {s : State} (acc : Byte) (hk : k < groupSize w)
    (hlen : j * groupSize w + k < s.engine.len.toNat)
    (hread : ∀ k', k' < k → SampleReadable s (j * groupSize w + k'))
    (hanswers : SampleAnswers s (j * groupSize w + k))
    (hnan : f32IsNan (sampleAt s (j * groupSize w + k)) = true) :
    packSlots w j s (List.range (groupSize w)) acc =
      .error ⟨.nanSample, BitVec.ofNat 32 (j * groupSize w + k)⟩ := by
  obtain ⟨acc', hacc⟩ := packSlots_append_of_readable w j s (List.range k)
    (k :: List.range' (k + 1) (groupSize w - k - 1)) acc fun k' hk' =>
      have hlt := List.mem_range.1 hk'
      ⟨hread k' hlt, by omega⟩
  have hsample : memRead4 s (s.engine.src.toNat + 4 * (j * groupSize w + k)) =
      some (sampleAt s (j * groupSize w + k)) := by
    rw [memRead4_sample, hanswers, if_neg Bool.false_ne_true]
  rw [range_eq_append_cons hk, hacc]
  simp only [packSlots, if_neg (Nat.not_le.2 hlen), hsample, qcode_of_nan _ _ _ hnan]

/-- Settles O15: the loop stops at the NaN with an execution fault, before anything is written. -/
theorem quantizeFaultsOnNanSample : Obligations.QuantizeFaultsOnNanSample := by
  intro s i k hi h hm hidx g n hk hlen hread hanswers hnan
  have hloop := packSlots_of_nan (s := consumeInput s) 0 hk hlen hread hanswers hnan
  exact ⟨_, (exec_of_quantize_unit hi h hidx).trans (congrArg _ (quantizeUnit_of_error hloop)),
    raiseFault_faultedInExecution (t := ⟨.nanSample, BitVec.ofNat 32 n⟩) rfl hm fun _ _ => rfl⟩

end Sys2Proof.Machine
end

section
/-! A quantize unit (41_quantize R133, R135, R136, R143): the packed byte is the weighted sum of its codes,
the loop of the unit packs that byte, and the unit writes it. -/

namespace Sys2Proof.Machine

/-! ### The packed byte is a weighted sum of its codes (41_quantize R135, R136) -/

/-- The code of slot `k` of unit `j`; a slot at or past the length holds 0 (41_quantize R136). -/
def slotCode (w : ℕ) (s : State) (j k : ℕ) : ℕ :=
  if j * (8 / w) + k < s.engine.len.toNat then codeAt w s (j * (8 / w) + k) else 0

theorem slotCode_lt (w : ℕ) (s : State) (j k : ℕ) : slotCode w s j k < 2 ^ w := by
  have hpos : 0 < 2 ^ w := Nat.two_pow_pos w
  have hcode := codeAt_le_maxCode w s (j * (8 / w) + k)
  rw [maxCode] at hcode
  rw [slotCode]
  split_ifs
  · omega
  · exact hpos

/-- Digits of `w` bits, the first the lowest. -/
def weightedSum (w : ℕ) (c : ℕ → ℕ) (n : ℕ) : ℕ :=
  ((List.range n).map fun k => c k * 2 ^ (w * k)).sum

@[simp] theorem weightedSum_zero (w : ℕ) (c : ℕ → ℕ) : weightedSum w c 0 = 0 := rfl

@[simp] theorem weightedSum_succ (w : ℕ) (c : ℕ → ℕ) (n : ℕ) :
    weightedSum w c (n + 1) = weightedSum w c n + c n * 2 ^ (w * n) := by
  simp [weightedSum, List.range_succ]

theorem weightedSum_lt {w : ℕ} {c : ℕ → ℕ} (hc : ∀ k, c k < 2 ^ w) (n : ℕ) :
    weightedSum w c n < 2 ^ (w * n) := by
  induction n with
  | zero => simp
  | succ n ih =>
    have hdigit : (c n + 1) * 2 ^ (w * n) ≤ 2 ^ w * 2 ^ (w * n) := Nat.mul_le_mul_right _ (hc n)
    rw [weightedSum_succ, Nat.mul_succ, pow_add, Nat.mul_comm (2 ^ (w * n))]
    rw [Nat.succ_mul] at hdigit
    omega

/-- Digits that are 0 add nothing. -/
theorem weightedSum_of_zero_from {w : ℕ} {c : ℕ → ℕ} {m n : ℕ} (hmn : m ≤ n)
    (h : ∀ k, m ≤ k → k < n → c k = 0) : weightedSum w c n = weightedSum w c m := by
  induction n, hmn using Nat.le_induction with
  | base => rfl
  | succ n hmn ih =>
    rw [weightedSum_succ, h n hmn n.lt_succ_self, Nat.zero_mul, Nat.add_zero,
      ih fun k hk hkn => h k hk (Nat.lt_succ_of_lt hkn)]

/-- The slots of a byte are whole. -/
theorem width_mul_slots {w : ℕ} (hw : w = 2 ∨ w = 4) : w * (8 / w) = 8 := by
  obtain rfl | rfl := hw <;> rfl

theorem packedByteAt_eq (w : ℕ) (s : State) (j : ℕ) :
    packedByteAt w s j = BitVec.ofNat 8 (weightedSum w (slotCode w s j) (8 / w)) := by
  simp only [packedByteAt, weightedSum, slotCode, ite_mul, Nat.zero_mul]

/-- The sum of the codes fits in the byte: nothing wraps. -/
theorem packedByteAt_toNat {w : ℕ} (hw : w = 2 ∨ w = 4) (s : State) (j : ℕ) :
    (packedByteAt w s j).toNat = weightedSum w (slotCode w s j) (8 / w) := by
  have hlt := weightedSum_lt (slotCode_lt w s j) (8 / w)
  rw [width_mul_slots hw] at hlt
  rw [packedByteAt_eq, BitVec.toNat_ofNat, Nat.mod_eq_of_lt hlt]

/-- Settles O14: every code is in range, so the weighted sum of `packedByteAt` stays below 256. -/
theorem packedByteIsWeightedSumOfCodes : Obligations.PackedByteIsWeightedSumOfCodes := by
  intro s j
  rw [packedByteAt_toNat (.inr rfl), packedByteAt_toNat (.inl rfl)]
  simp [slotCode, Nat.mul_comm]

/-! ### The loop of a unit packs that byte (41_quantize R133) -/

/-- A code packed above the slots already filled is added at its place. -/
theorem packSlot_toNat {acc : Byte} {k w c : ℕ} (hacc : acc.toNat < 2 ^ (w * k)) (hc : c < 2 ^ w)
    (hfit : w * (k + 1) ≤ 8) : (packSlot acc k w c).toNat = acc.toNat + c * 2 ^ (w * k) := by
  have hkeep : acc &&& ~~~(BitVec.ofNat 8 (maxCode w) <<< (k * w)) = acc := by
    ext n hn
    by_cases hlow : n < k * w
    · simp [hlow]
    · have hclear : acc[n] = false := by
        rw [← BitVec.getLsbD_eq_getElem]
        refine Nat.testBit_lt_two_pow (hacc.trans_le (Nat.pow_le_pow_right two_pos ?_))
        rw [Nat.mul_comm]
        exact Nat.not_lt.1 hlow
      simp [hclear]
  have hplace : c * 2 ^ (w * k) < 2 ^ 8 := calc
    c * 2 ^ (w * k) < 2 ^ w * 2 ^ (w * k) := Nat.mul_lt_mul_of_pos_right hc (Nat.two_pow_pos _)
    _ = 2 ^ (w * (k + 1)) := by rw [← pow_add, Nat.mul_succ, Nat.add_comm]
    _ ≤ 2 ^ 8 := Nat.pow_le_pow_right two_pos hfit
  have hshift : (BitVec.ofNat 8 c <<< (k * w)).toNat = c <<< (w * k) := by
    rw [BitVec.toNat_shiftLeft, BitVec.toNat_ofNat, Nat.mul_comm k w, Nat.shiftLeft_eq,
      Nat.shiftLeft_eq, Nat.mod_mul_mod, Nat.mod_eq_of_lt hplace]
  rw [packSlot, hkeep, BitVec.toNat_or, hshift, Nat.or_comm, ← Nat.shiftLeft_add_eq_or_of_lt hacc,
    Nat.shiftLeft_eq, Nat.add_comm]

/-- Filling the slots of an empty byte in their order gives the weighted sum of the codes. -/
theorem foldl_packSlot_toNat {w : ℕ} {c : ℕ → ℕ} (hc : ∀ k, c k < 2 ^ w) : ∀ n, w * n ≤ 8 →
    ((List.range n).foldl (fun acc k => packSlot acc k w (c k)) 0).toNat = weightedSum w c n := by
  intro n
  induction n with
  | zero => intro _; rfl
  | succ n ih =>
    intro hfit
    have hbefore := ih ((Nat.mul_le_mul_left w n.le_succ).trans hfit)
    have hlt := weightedSum_lt hc n
    rw [← hbefore] at hlt
    rw [List.range_succ, List.foldl_append, List.foldl_cons, List.foldl_nil,
      packSlot_toNat hlt (hc n) hfit, hbefore, weightedSum_succ]

/-- Every valid sample of unit `j` can be read and is no NaN. -/
abbrev UnitReadable (w : ℕ) (s : State) (j : ℕ) : Prop :=
  ∀ k, k < 8 / w → j * (8 / w) + k < s.engine.len.toNat → SampleReadable s (j * (8 / w) + k)

/-- The loop stops at the length, where the codes of the remaining slots count 0. -/
theorem packSlots_eq_packedByteAt {w j : ℕ} {s : State} (hw : w = 2 ∨ w = 4)
    (h : UnitReadable w s j) :
    packSlots w j s (List.range (groupSize w)) 0 = .ok (packedByteAt w s j) := by
  rw [List.range_eq_range', packSlots_range w j (groupSize w) s 0 0 fun k _ hk =>
    h k (by rwa [Nat.zero_add] at hk), ← List.range_eq_range', Nat.add_zero]
  set m := min (groupSize w) (s.engine.len.toNat - j * groupSize w) with hm
  have hmg : m ≤ 8 / w := Nat.min_le_left _ _
  have hcodes : (List.range m).foldl
      (fun acc k => packSlot acc k w (codeAt w s (j * groupSize w + k))) 0 =
      (List.range m).foldl (fun acc k => packSlot acc k w (slotCode w s j k)) 0 := by
    refine List.foldl_ext _ _ _ fun acc k hk => ?_
    have hlt := List.mem_range.1 hk
    rw [slotCode, ← groupSize, if_pos (by omega)]
  have hzero : ∀ k, m ≤ k → k < 8 / w → slotCode w s j k = 0 := fun k hk hkg =>
    if_neg (by rw [← groupSize] at hkg ⊢; omega)
  have hfit : w * m ≤ 8 := (Nat.mul_le_mul_left w hmg).trans (width_mul_slots hw).le
  rw [hcodes]
  refine congrArg Except.ok (BitVec.eq_of_toNat_eq ?_)
  rw [foldl_packSlot_toNat (slotCode_lt w s j) m hfit, packedByteAt_toNat hw,
    weightedSum_of_zero_from hmg hzero]

/-! ### The unit step -/

theorem width_of_quantize {i : Instr} (hi : i = .quantizeUint4 ∨ i = .quantizeUint2) :
    instrWidth i = 2 ∨ instrWidth i = 4 := by
  obtain rfl | rfl := hi
  · exact .inr rfl
  · exact .inl rfl

/-- A quantize unit whose accesses all answer and whose samples are no NaN. -/
theorem quantizeUnit_of_readable {w : ℕ} {s : State} (hw : w = 2 ∨ w = 4)
    (h : UnitReadable w s s.engine.idx.toNat)
    (hbus : busError s.platform (s.engine.dst.toNat + s.engine.idx.toNat) 1 .write = false) :
    quantizeUnit w s = endQuantizeUnit { s with
      mem := s.mem.writeByte (s.engine.dst.toNat + s.engine.idx.toNat)
        (packedByteAt w s s.engine.idx.toNat) } := by
  simp only [quantizeUnit, packSlots_eq_packedByteAt hw h, (memWrite1_eq _ _ _ _ _).2 ⟨hbus, rfl⟩]

/-- Settles O13: the loop's byte is `packedByteAt`, and the one write of the unit stores it whole. -/
theorem quantizeUnitWritesPackedByte : Obligations.QuantizeUnitWritesPackedByte := by
  intro s i hi h hm hidx w j a hread hbus
  have haddr : a < Config.memoryBytes := (busError_false _ _ _ _ hbus).1
  have hunit := quantizeUnit_of_readable (s := consumeInput s) (width_of_quantize hi) hread hbus
  refine ⟨_, (exec_of_quantize_unit hi h hidx).trans (congrArg _ hunit), ?_, fun a' ha' => ?_,
    rfl, rfl, rfl, rfl⟩
  · exact (Memory.readByte_writeByte _ _ _ _ hm haddr).trans (if_pos rfl)
  · exact Memory.readByte_writeByte_other _ _ _ _ ha'

end Sys2Proof.Machine
end

section
/-! The completion step and the accept of the four commands, and the command of length 0 between them
(41_quantize R134, R141; 42_dequantize R162; 60_exceptions R171, R172). -/

namespace Sys2Proof.Machine

/-! ### The completion step (41_quantize R134) -/

theorem completeCommand_of_not_raced {s : State} (h : commandRaced s = false) :
    completeCommand s = { forgetCommand s with regs.busy := false, regs.done := true } := by
  rw [completeCommand, h, if_neg Bool.false_ne_true]

/-- Settles O22: without a race the completion step draws no memory. -/
theorem completionStepSetsDone : Obligations.CompletionStepSetsDone := by
  intro s i h hrace hidx
  rw [exec_of_completion h (by rw [unitCount_of_engineRuns h, hidx])]
  exact congrArg _ (completeCommand_of_not_raced (s := consumeInput s) hrace)

/-! ### The accept, and a command of length 0 -/

/-- Checks 2 to 7 as the statements write them are those of the model (60_exceptions R172). -/
theorem validate_encode_eq_none_iff (i : Instr) (r : Regs) :
    validate (encode i) r = none ↔ ParametersPass i r := by
  rw [validate_encode, validateOperands_eq_none_iff, rangesMeet_eq_false_iff, and_assoc, scaleLegal,
    decide_eq_true_iff]
  rfl

/-- Each command whose parameters pass is accepted by an idle block without a fault. -/
theorem exec_of_parametersPass {s : State} {i : Instr} (hb : s.regs.busy = false)
    (hf : s.regs.fault = false) (h : ParametersPass i s.regs) :
    exec i s = .next (acceptCommand (encode i) (consumeInput s)) := by
  rw [exec_of_not_busy i s hb]
  obtain ⟨hno, -⟩ | ⟨-, -, t, ht, -⟩ | ⟨-, -, -, hw⟩ :=
    commandWrite_cases (encode i) (consumeInput s)
  · simp [hb, hf] at hno
  · rw [consumeInput_regs, (validate_encode_eq_none_iff i s.regs).2 h] at ht
    cases ht
  · rw [hw]

theorem commandDir_encode (i : Instr) : commandDir (encode i) = instrDir i := by cases i <;> rfl

theorem commandWidth_encode (i : Instr) : commandWidth (encode i) = instrWidth i := by
  cases i <;> rfl

/-- After its accept a command runs, as soon as the engine has the turn. -/
theorem engineRuns_acceptCommand {s : State} (i : Instr) (h : engineTurn s = true) :
    EngineRuns i (acceptCommand (encode i) s) := by
  refine ⟨h, rfl, commandDir_encode i, ?_⟩
  rw [acceptCommand_width, commandWidth_encode]
  cases i <;> rfl

theorem unitCount_acceptCommand_of_len_zero {s : State} (i : Instr) (h : s.regs.len = 0) :
    unitCount (acceptCommand (encode i) s).engine = 0 := by
  rw [unitCount, acceptCommand_dir, acceptCommand_ndst, acceptCommand_nsrc, h]
  cases i <;> rfl

/-- Settles O29: the accept latches 0 units, so the first step of the engine is the completion step. -/
theorem zeroLengthCompletesAtOnce : Obligations.ZeroLengthCompletesAtOnce := by
  intro s i hb hf hpass hlen hinputs
  have hturn : engineTurn (consumeInput s) = true := by simp [engineTurn, hinputs]
  have hruns := engineRuns_acceptCommand i hturn
  have hdone := exec_of_completion hruns (unitCount_acceptCommand_of_len_zero i hlen).symm
  refine ⟨_, _, exec_of_parametersPass hb hf hpass, rfl, rfl, (step_of_engineRuns hruns).trans hdone,
    ?_, ?_⟩
  · rw [completeCommand_regs, consumeInput_regs, acceptCommand_regs, consumeInput_regs, ← hb]
  · rw [completeCommand_mem]
    exact if_neg Bool.false_ne_true

end Sys2Proof.Machine
end

section
/-! A whole quantize command (41_quantize R134, R137 to R139): its units one after the other, each of which
packs the samples of the accept, then the completion step. -/

namespace Sys2Proof.Machine

/-! ### Runs of the machine -/

theorem run_succ_of_step {s t : State} (n : ℕ) (h : step s = .next t) :
    Host.Core.run Sys2Proof.core (n + 1) s = Host.Core.run Sys2Proof.core n t := by
  have hcore : Sys2Proof.core.step s = .next t := h
  simp only [Host.Core.run, hcore]

/-- A run of `k` steps, each of which advances `P` by one. -/
theorem run_of_progress {P : ℕ → State → Prop} {N : ℕ}
    (hstep : ∀ n t, n < N → P n t → ∃ u, step t = .next u ∧ P (n + 1) u) :
    ∀ k n t, n + k = N → P n t → ∃ u : State,
      Host.Core.run Sys2Proof.core k t = .next u ∧ P N u := by
  intro k
  induction k with
  | zero => exact fun n t hn h => ⟨t, rfl, by rwa [← hn]⟩
  | succ k ih =>
    intro n t hn h
    obtain ⟨u, hu, hP⟩ := hstep n t (by omega) h
    obtain ⟨v, hv, hend⟩ := ih (n + 1) u (by omega) hP
    exact ⟨v, (run_succ_of_step k hu).trans hv, hend⟩

/-- A run may be extended by a step at its end. -/
theorem run_succ_of_run {s t u : State} {n : ℕ} (h : Host.Core.run Sys2Proof.core n s = .next t)
    (hu : step t = .next u) : Host.Core.run Sys2Proof.core (n + 1) s = .next u := by
  induction n generalizing s with
  | zero =>
    cases h
    exact run_succ_of_step 0 hu
  | succ n ih =>
    cases hs : step s with
    | next r =>
      rw [run_succ_of_step n hs] at h
      rw [run_succ_of_step (n + 1) hs]
      exact ih h
    | fault r => simp [Host.Core.run, show Sys2Proof.core.step s = .fault r from hs] at h
    | refused r => simp [Host.Core.run, show Sys2Proof.core.step s = .refused r from hs] at h

/-! ### The accepted command -/

/-- The destination lies in the address space and not at 0, so the number of units fits in `IDX`. -/
theorem Engine.Running.ndst_lt {e : Engine} (h : e.Running) : e.ndst.toNat < 2 ^ 32 := by
  obtain ⟨-, -, -, -, hdst, -, -, -, hfits, -⟩ := h
  have hpos : e.dst.toNat ≠ 0 := fun h0 => hdst (BitVec.eq_of_toNat_eq h0)
  omega

/-- An accepted quantize command `i` whose accesses answer no bus error and whose samples are no NaN; its
source bytes are those in memory. -/
structure QuantizeAnswers (i : Instr) (s : State) : Prop where
  quantize : i = .quantizeUint4 ∨ i = .quantizeUint2
  runs : EngineRuns i s
  inv : s.Inv
  notDrawn : sourceDraw s = none
  reads : ∀ m, m < s.engine.len.toNat → SampleReadable s m
  writes : ∀ j, j < s.engine.ndst.toNat →
    busError s.platform (s.engine.dst.toNat + j) 1 .write = false

theorem QuantizeAnswers.dir {i : Instr} {s : State} (hs : QuantizeAnswers i s) : s.engine.dir = 0 := by
  obtain ⟨-, -, hdir, -⟩ := hs.runs
  rw [hdir]
  obtain rfl | rfl := hs.quantize <;> rfl

theorem QuantizeAnswers.running {i : Instr} {s : State} (hs : QuantizeAnswers i s) :
    s.engine.Running := by
  obtain ⟨-, hbusy, -⟩ := hs.runs
  exact (hs.inv.running hbusy).1

/-- The source of a quantize command is its samples, and its destination lies elsewhere
(20_memory R60; 60_exceptions R172). -/
theorem QuantizeAnswers.source_disjoint {i : Instr} {s : State} (hs : QuantizeAnswers i s) {a : ℕ}
    (hlo : s.engine.src.toNat ≤ a) (hhi : a < s.engine.src.toNat + 4 * s.engine.len.toNat) :
    ¬ InDestination s a := by
  obtain ⟨-, hnsrc, -, -, -, -, -, -, -, hmeet, -⟩ := hs.running
  rw [srcBytes, if_pos hs.dir] at hnsrc
  rw [rangesMeet_eq_false_iff] at hmeet
  omega

/-- Packing a unit depends only on the codes below the length. -/
theorem packedByteAt_congr {w : ℕ} {s t : State} (hlen : t.engine.len = s.engine.len)
    (hcode : ∀ n, n < s.engine.len.toNat → codeAt w t n = codeAt w s n) (j : ℕ) :
    packedByteAt w t j = packedByteAt w s j := by
  have hslot : slotCode w t j = slotCode w s j := by
    funext k
    rw [slotCode, slotCode, hlen]
    split_ifs with hk
    · exact hcode _ hk
    · rfl
  rw [packedByteAt_eq, packedByteAt_eq, hslot]

/-! ### The units done so far -/

/-- `t` is reached from the accepted quantize command `s` of width `w` by its first `n` unit steps, with
no input handled: its packed bytes stand in the destination, and the latched command is that of `s`. -/
structure UnitsPacked (w : ℕ) (s : State) (n : ℕ) (t : State) : Prop where
  inv : t.Inv
  regs : t.regs = s.regs
  platform : t.platform = s.platform
  inputs : t.port.inputs = []
  current : t.port.current = s.port.current
  engine : t.engine = { s.engine with acc := t.engine.acc, idx := t.engine.idx }
  idx : t.engine.idx.toNat = n
  packed : ∀ j, j < n → t.mem.readByte (s.engine.dst.toNat + j) = packedByteAt w s j
  other : ∀ a, ¬ (s.engine.dst.toNat ≤ a ∧ a < s.engine.dst.toNat + n) →
    t.mem.readByte a = s.mem.readByte a

theorem UnitsPacked.zero {w : ℕ} {s : State} (hinv : s.Inv) (hinputs : s.port.inputs = [])
    (hidx : s.engine.idx = 0) : UnitsPacked w s 0 s :=
  ⟨hinv, rfl, rfl, hinputs, rfl, rfl, by rw [hidx]; rfl, nofun, fun _ _ => rfl⟩

section
variable {s t : State} {i : Instr} {w n : ℕ}

theorem UnitsPacked.engineRuns (h : UnitsPacked w s n t) (hruns : EngineRuns i s) :
    EngineRuns i t := by
  obtain ⟨-, hbusy, hdir, hwidth⟩ := hruns
  rw [EngineRuns, engineTurn, h.inputs, h.regs, h.engine]
  exact ⟨rfl, hbusy, hdir, hwidth⟩

theorem UnitsPacked.src_eq (h : UnitsPacked w s n t) : t.engine.src = s.engine.src := by rw [h.engine]

theorem UnitsPacked.len_eq (h : UnitsPacked w s n t) : t.engine.len = s.engine.len := by rw [h.engine]

theorem UnitsPacked.dst_eq (h : UnitsPacked w s n t) : t.engine.dst = s.engine.dst := by rw [h.engine]

theorem UnitsPacked.ndst_eq (h : UnitsPacked w s n t) : t.engine.ndst = s.engine.ndst := by rw [h.engine]

/-- Only the destination has been written, so the engine reads what it would have read at the accept. -/
theorem UnitsPacked.sampleAt_eq (h : UnitsPacked w s n t) (hs : QuantizeAnswers i s)
    (hn : n ≤ s.engine.ndst.toNat) {m : ℕ} (hm : m < s.engine.len.toNat) :
    sampleAt t m = sampleAt s m := by
  have hdraw : sourceDraw t = none := by
    rw [sourceDraw, h.current]
    exact hs.notDrawn
  have hbyte : ∀ a, s.engine.src.toNat + 4 * m ≤ a → a < s.engine.src.toNat + 4 * m + 4 →
      engineByte t a = engineByte s a := fun a hlo hhi => by
    have hout := hs.source_disjoint (a := a) (by omega) (by omega)
    rw [engineByte_of_no_draw hdraw, engineByte_of_no_draw hs.notDrawn, h.other a (by omega)]
  rw [sampleAt, sampleAt, h.src_eq, hbyte _ (by omega) (by omega), hbyte _ (by omega) (by omega),
    hbyte _ (by omega) (by omega), hbyte _ (by omega) (by omega)]

/-- Every unit packs, in the state it is reached in, the samples of the accept. -/
theorem UnitsPacked.packedByteAt_eq (h : UnitsPacked w s n t) (hs : QuantizeAnswers i s)
    (hn : n ≤ s.engine.ndst.toNat) (j : ℕ) : packedByteAt w t j = packedByteAt w s j := by
  refine packedByteAt_congr h.len_eq (fun m hm => ?_) j
  rw [codeAt, codeAt, h.sampleAt_eq hs hn hm, h.engine]

theorem UnitsPacked.unitReadable (h : UnitsPacked w s n t) (hs : QuantizeAnswers i s)
    (hn : n ≤ s.engine.ndst.toNat) (j : ℕ) : UnitReadable w t j := by
  intro k _ hk
  rw [h.len_eq] at hk
  rw [SampleReadable, SampleAnswers, h.platform, h.src_eq, h.sampleAt_eq hs hn hk]
  exact hs.reads _ hk

/-- One more unit step, as O13 gives it: it writes the next packed byte. -/
theorem UnitsPacked.next (h : UnitsPacked (instrWidth i) s n t) (hs : QuantizeAnswers i s)
    (hn : n < s.engine.ndst.toNat) :
    ∃ u, step t = .next u ∧ UnitsPacked (instrWidth i) s (n + 1) u := by
  have hruns := h.engineRuns hs.runs
  obtain ⟨u, hu, hwritten, hother, hregs, hplatform, hport, hengine⟩ :=
    quantizeUnitWritesPackedByte t i hs.quantize hruns h.inv.canonical (by rwa [h.idx, h.ndst_eq])
      (h.unitReadable hs hn.le _) (by rw [h.platform, h.dst_eq, h.idx]; exact hs.writes n hn)
  have hstep : step t = .next u := (step_of_engineRuns hruns).trans hu
  rw [h.dst_eq, h.idx] at hwritten hother
  rw [h.packedByteAt_eq hs hn.le] at hwritten
  refine ⟨u, hstep, everyStepKeepsSoundness t u h.inv hstep, hregs.trans h.regs,
    hplatform.trans h.platform, ?_, ?_, ?_, ?_, fun j hj => ?_, fun a ha => ?_⟩
  · rw [hport, consumeInput_inputs, h.inputs, List.tail_nil]
  · rw [hport, consumeInput_current, h.current]
  · rw [hengine, h.engine]
  · rw [hengine, BitVec.toNat_add, h.idx]
    exact Nat.mod_eq_of_lt (Nat.lt_of_le_of_lt hn hs.running.ndst_lt)
  · obtain hlt | rfl := Nat.lt_succ_iff_lt_or_eq.1 hj
    · rw [hother _ (by omega), h.packed j hlt]
    · exact hwritten
  · rw [hother a (by omega), h.other a (by omega)]

/-- The completion step after the last unit. -/
theorem UnitsPacked.step_eq_complete (h : UnitsPacked w s n t) (hs : QuantizeAnswers i s)
    (hn : n = s.engine.ndst.toNat) : step t = .next (completeCommand (consumeInput t)) := by
  have hruns := h.engineRuns hs.runs
  rw [step_of_engineRuns hruns]
  refine exec_of_completion hruns ?_
  rw [h.idx, unitCount, h.engine, if_pos hs.dir, hn]

end

/-- Settles O17: the unit steps one by one, then the completion step, which draws nothing. -/
theorem quantizeCommandPacksAllSamples : Obligations.QuantizeCommandPacksAllSamples := by
  intro s i hi hruns hinv hinputs hidx hrace hread hbus
  obtain ⟨hraced, hdraw⟩ := hrace
  have hs : QuantizeAnswers i s := ⟨hi, hruns, hinv, hdraw, hread, hbus⟩
  obtain ⟨t, ht, hend⟩ := run_of_progress (P := UnitsPacked (instrWidth i) s)
    (fun _ _ hn h => h.next hs hn) s.engine.ndst.toNat 0 s (Nat.zero_add _)
    (.zero hinv hinputs hidx)
  have hraced' : commandRaced (consumeInput t) = false := by
    rwa [commandRaced, consumeInput_current, hend.current]
  have hmem : (completeCommand (consumeInput t)).mem = t.mem :=
    (completeCommand_mem _).trans (if_neg (by simp [hraced']))
  refine ⟨_, run_succ_of_run ht (hend.step_eq_complete hs rfl), ?_, ?_, ?_⟩
  · rw [completeCommand_regs, consumeInput_regs, hend.regs]
  · rw [hmem]
    exact hend.packed
  · rw [hmem]
    exact hend.other

end Sys2Proof.Machine
end

section
/-! The slots of a packed byte (42_dequantize R152, R155, R160): the code of a slot is a digit of the byte, so
unpacking gives back what was packed, and no other bit counts. -/

namespace Sys2Proof.Machine

/-! ### The code of a slot is a digit of the byte (42_dequantize R152) -/

theorem unpackSlot_eq (b : Byte) (k : ℕ) {w : ℕ} (hw : w ≤ 8) :
    unpackSlot b k w = b.toNat / 2 ^ (w * k) % 2 ^ w := by
  have hmask : (BitVec.ofNat 8 (maxCode w)).toNat = 2 ^ w - 1 := by
    have hpow : 2 ^ w ≤ 2 ^ 8 := Nat.pow_le_pow_right two_pos hw
    rw [BitVec.toNat_ofNat, maxCode, Nat.mod_eq_of_lt (by omega)]
  rw [unpackSlot, BitVec.toNat_and, BitVec.toNat_ushiftRight, hmask, Nat.and_two_pow_sub_one_eq_mod,
    Nat.shiftRight_eq_div_pow, Nat.mul_comm k w]

theorem width_le_eight {w : ℕ} (hw : w = 2 ∨ w = 4) : w ≤ 8 := by omega

/-- A weighted sum of digits of `w` bits has those digits. -/
theorem weightedSum_digit {w : ℕ} {c : ℕ → ℕ} (hc : ∀ k, c k < 2 ^ w) {k n : ℕ} (hk : k < n) :
    weightedSum w c n / 2 ^ (w * k) % 2 ^ w = c k := by
  induction n, hk using Nat.le_induction with
  | base =>
    rw [weightedSum_succ, Nat.add_mul_div_right _ _ (Nat.two_pow_pos _),
      Nat.div_eq_of_lt (weightedSum_lt hc k), Nat.zero_add, Nat.mod_eq_of_lt (hc k)]
  | succ n hkn ih =>
    obtain ⟨d, rfl⟩ := Nat.exists_eq_add_of_le hkn
    have hplace : 2 ^ (w * (k.succ + d)) = 2 ^ (w * k) * (2 ^ w * 2 ^ (w * d)) := by
      rw [Nat.succ_eq_add_one]
      ring
    rw [weightedSum_succ, hplace, Nat.mul_left_comm, Nat.add_mul_div_left _ _ (Nat.two_pow_pos _),
      Nat.mul_left_comm, Nat.add_mul_mod_self_left, ih]

/-! ### The round trip of one byte (42_dequantize R160) -/

theorem zipIdx_eq_map_range {α : Type} (cs : List α) (d : α) :
    cs.zipIdx = (List.range cs.length).map fun k => (cs.getD k d, k) := by
  refine List.ext_getElem (by simp) fun k h _ => ?_
  rw [List.length_zipIdx] at h
  simp [List.getElem?_eq_getElem h]

/-- Packing a list of codes gives their weighted sum. -/
theorem foldl_zipIdx_packSlot_toNat {w : ℕ} {cs : List ℕ} (hc : ∀ k, cs.getD k 0 < 2 ^ w)
    (hfit : w * cs.length ≤ 8) :
    (cs.zipIdx.foldl (fun acc ck => packSlot acc ck.2 w ck.1) 0).toNat =
      weightedSum w (cs.getD · 0) cs.length := by
  rw [zipIdx_eq_map_range cs 0, List.foldl_map]
  exact foldl_packSlot_toNat hc cs.length hfit

/-- Settles O5: the packed byte is the weighted sum of the codes, an absent one counting 0, and its digits
are the codes. -/
theorem packThenUnpackGivesCodes : Obligations.PackThenUnpackGivesCodes := by
  intro w cs hw hlen hcodes b k hk
  have hc : ∀ k, cs.getD k 0 < 2 ^ w := fun k => by
    have hpos : 0 < 2 ^ w := Nat.two_pow_pos w
    obtain hin | hout := Nat.lt_or_ge k cs.length
    · have hle := hcodes _ (List.getElem_mem hin)
      rw [List.getD_eq_getElem _ _ hin]
      omega
    · rwa [List.getD_eq_default _ _ hout]
  have hfit : w * cs.length ≤ 8 := (Nat.mul_le_mul_left w hlen).trans (width_mul_slots hw).le
  have hb : b.toNat = weightedSum w (cs.getD · 0) (8 / w) := by
    rw [weightedSum_of_zero_from hlen fun k hk _ => List.getD_eq_default _ _ hk]
    exact foldl_zipIdx_packSlot_toNat hc hfit
  rw [unpackSlot_eq b k (width_le_eight hw), hb, weightedSum_digit hc hk]

/-! ### The bits of unused slots (42_dequantize R155) -/

/-- The loop depends on its byte only through the codes of the slots below the length. -/
theorem unpackSlots_congr {w j : ℕ} {b b' : Byte} {e : Engine} (p : Platform) {ks : List ℕ}
    (h : ∀ k ∈ ks, j * groupSize w + k < e.len.toNat → unpackSlot b k w = unpackSlot b' k w) :
    ∀ m, unpackSlots w j b e p ks m = unpackSlots w j b' e p ks m := by
  induction ks with
  | nil => exact fun _ => rfl
  | cons k ks ih =>
    intro m
    have hrest := ih fun k' hk' => h k' (List.mem_cons_of_mem _ hk')
    by_cases hlen : e.len.toNat ≤ j * groupSize w + k
    · simp only [unpackSlots, if_pos hlen]
    · have hcode := h k List.mem_cons_self (Nat.lt_of_not_le hlen)
      simp only [unpackSlots, if_neg hlen, hcode, hrest]

/-- Settles O20: the loop ends at the length, and the code of a slot is a digit of the byte. -/
theorem unusedSlotBitsAreIgnored : Obligations.UnusedSlotBitsAreIgnored := by
  intro w j b b' e p m hw h
  refine unpackSlots_congr p (fun k hk hlen => ?_) m
  rw [unpackSlot_eq b k (width_le_eight hw), unpackSlot_eq b' k (width_le_eight hw)]
  exact h k (List.mem_range.1 hk) hlen

end Sys2Proof.Machine
end

section
/-! A dequantize unit (42_dequantize R153, R155 to R158): its loop writes the value of each valid slot in
turn and stops with a fault at the first write that answers a bus error. -/

namespace Sys2Proof.Machine

/-! ### The loop of a unit (42_dequantize R153) -/

/-- Where unit `j` writes the value of slot `k` (42_dequantize R153). -/
def slotAddress (w j : ℕ) (e : Engine) (k : ℕ) : ℕ :=
  e.dst.toNat + 4 * (j * groupSize w + k)

/-- Slot `k` of unit `j` holds a code (42_dequantize R155). -/
abbrev ValidSlot (w j : ℕ) (e : Engine) (k : ℕ) : Prop :=
  j * groupSize w + k < e.len.toNat

/-- The value of slot `k` of the packed byte `b` (42_dequantize R153). -/
def slotValue (w : ℕ) (b : Byte) (e : Engine) (k : ℕ) : Word :=
  dqval (unpackSlot b k w) e.scale (zeroPointOf e.zp)

/-- The write of the value of a slot answers no bus error. -/
abbrev SlotAnswers (w j : ℕ) (e : Engine) (p : Platform) (k : ℕ) : Prop :=
  busError p (slotAddress w j e k) 4 .write = false

section
variable {w j k : ℕ} {b : Byte} {e : Engine} {p : Platform} {ks : List ℕ} {m : Memory}

/-- The loop ends at the length. -/
theorem unpackSlots_at_length (h : ¬ ValidSlot w j e k) :
    unpackSlots w j b e p (k :: ks) m = (m, none) := by
  simp only [unpackSlots, if_pos (Nat.le_of_not_lt h)]

/-- A valid slot whose write answers takes its value, little-endian. -/
theorem unpackSlots_of_answers (h : ValidSlot w j e k) (hbus : SlotAnswers w j e p k) :
    unpackSlots w j b e p (k :: ks) m = unpackSlots w j b e p ks
      (m.writeBytes (slotAddress w j e k) (littleEndianBytes 4 ((slotValue w b e k).setWidth 64))) := by
  have hwrite := (memWrite4_eq p m _ _ (slotValue w b e k)).2 ⟨hbus, rfl⟩
  rw [slotAddress, slotValue] at hwrite
  simp only [unpackSlots, if_neg (Nat.not_le.2 h), hwrite, slotAddress, slotValue]

/-- A valid slot whose write answers a bus error ends the loop. -/
theorem unpackSlots_of_busError (h : ValidSlot w j e k) (hbus : ¬ SlotAnswers w j e p k) :
    unpackSlots w j b e p (k :: ks) m = (m, some ⟨.busError, BitVec.ofNat 32 (slotAddress w j e k)⟩) := by
  have hwrite := (memWrite4_none p m _ (slotValue w b e k)).2 (Bool.eq_true_of_not_eq_false hbus)
  rw [slotAddress, slotValue] at hwrite
  simp only [unpackSlots, if_neg (Nat.not_le.2 h), hwrite, slotAddress]

/-- Valid slots whose writes all answer are written, and the loop goes on after them. -/
theorem unpackSlots_append_of_answers (ks' : List ℕ) : ∀ (ks : List ℕ) (m : Memory),
    (∀ k ∈ ks, ValidSlot w j e k ∧ SlotAnswers w j e p k) →
    ∃ m', unpackSlots w j b e p (ks ++ ks') m = unpackSlots w j b e p ks' m'
  | [], m, _ => ⟨m, rfl⟩
  | k :: ks, m, h => by
    obtain ⟨hvalid, hbus⟩ := h k List.mem_cons_self
    rw [List.cons_append, unpackSlots_of_answers hvalid hbus]
    exact unpackSlots_append_of_answers ks' ks _ fun k' hk' => h k' (List.mem_cons_of_mem _ hk')

/-- The loop ends with a fault at the first value whose write answers a bus error. -/
theorem unpackSlots_range_of_busError (hk : k < groupSize w) (hvalid : ValidSlot w j e k)
    (hbefore : ∀ k', k' < k → SlotAnswers w j e p k') (hbus : ¬ SlotAnswers w j e p k) :
    ∃ m', unpackSlots w j b e p (List.range (groupSize w)) m =
      (m', some ⟨.busError, BitVec.ofNat 32 (slotAddress w j e k)⟩) := by
  obtain ⟨m', hm'⟩ := unpackSlots_append_of_answers (b := b)
    (k :: List.range' (k + 1) (groupSize w - k - 1)) (List.range k) m fun k' hk' =>
      have hlt := List.mem_range.1 hk'
      ⟨(Nat.add_lt_add_left hlt _).trans hvalid, hbefore k' hlt⟩
  exact ⟨m', by rw [range_eq_append_cons hk, hm', unpackSlots_of_busError hvalid hbus]⟩

/-- Different slots are written to different words. -/
theorem slotAddress_disjoint {k' x : ℕ} (h : k ≠ k') (hx : x < 4) :
    slotAddress w j e k + x < slotAddress w j e k' ∨
      slotAddress w j e k' + 4 ≤ slotAddress w j e k + x := by
  rw [slotAddress, slotAddress]
  omega

/-- When every write answers, the loop over rising slots writes the value of each valid one. -/
theorem unpackSlots_of_all_answer : ∀ (ks : List ℕ) (m : Memory), m.wf → ks.Pairwise (· < ·) →
    (∀ k ∈ ks, ValidSlot w j e k → SlotAnswers w j e p k) →
    ∃ m', unpackSlots w j b e p ks m = (m', none) ∧
      ∀ k ∈ ks, ValidSlot w j e k → ∀ x, x < 4 →
        m'.readByte (slotAddress w j e k + x) = (slotValue w b e k).extractLsb' (8 * x) 8
  | [], m, _, _, _ => ⟨m, rfl, nofun⟩
  | k :: ks, m, hm, hsorted, hbus => by
    obtain ⟨hlt, hsorted'⟩ := List.pairwise_cons.1 hsorted
    by_cases hvalid : ValidSlot w j e k
    case neg =>
      refine ⟨m, unpackSlots_at_length hvalid, fun k' hk' hvalid' => absurd ?_ hvalid⟩
      obtain rfl | hk' := List.mem_cons.1 hk'
      · exact hvalid'
      · exact (Nat.add_lt_add_left (hlt k' hk') _).trans hvalid'
    case pos =>
      have hanswers := hbus k List.mem_cons_self hvalid
      obtain ⟨hfits, -⟩ := busError_false _ _ _ _ hanswers
      rw [unpackSlots_of_answers hvalid hanswers]
      set m₁ := m.writeBytes (slotAddress w j e k)
        (littleEndianBytes 4 ((slotValue w b e k).setWidth 64)) with hm₁
      obtain ⟨m', hloop, hread⟩ := unpackSlots_of_all_answer ks m₁
        (Memory.writeBytes_wf _ _ _ hm) hsorted' fun k' hk' => hbus k' (List.mem_cons_of_mem _ hk')
      refine ⟨m', hloop, fun k' hk' hvalid' x hx => ?_⟩
      obtain rfl | hk' := List.mem_cons.1 hk'
      · obtain ⟨-, hother, -⟩ := unpackSlots_spec w j b e p ks m₁
        rw [hloop] at hother
        rw [hother _ fun k'' hk'' _ => slotAddress_disjoint (hlt k'' hk'').ne hx, hm₁,
          Memory.readByte_writeBytes_littleEndian _ hm hfits hx,
          BitVec.extractLsb'_setWidth_of_le (by omega)]
      · exact hread k' hk' hvalid' x hx

end

/-! ### The unit step -/

section
variable {w : ℕ} {s : State}

/-- A unit whose read answers a bus error. -/
theorem dequantizeUnit_of_read_busError
    (h : busError s.platform (s.engine.src.toNat + s.engine.idx.toNat) 1 .read = true) :
    dequantizeUnit w s =
      raiseFault ⟨.busError, BitVec.ofNat 32 (s.engine.src.toNat + s.engine.idx.toNat)⟩ s := by
  simp only [dequantizeUnit, (memRead1_none _ _).2 h]

/-- The packed byte of the next unit. -/
def packedSource (s : State) : Byte :=
  engineByte s (s.engine.src.toNat + s.engine.idx.toNat)

/-- The loop of the next unit. -/
abbrev unitLoop (w : ℕ) (s : State) : Memory × Option Trap :=
  unpackSlots w s.engine.idx.toNat (packedSource s) s.engine s.platform (List.range (groupSize w)) s.mem

/-- A unit whose read answers does what its loop does. -/
theorem dequantizeUnit_of_read
    (h : busError s.platform (s.engine.src.toNat + s.engine.idx.toNat) 1 .read = false) :
    (∀ m t, unitLoop w s = (m, some t) → dequantizeUnit w s = raiseFault t { s with mem := m }) ∧
    (∀ m, unitLoop w s = (m, none) → dequantizeUnit w s = endDequantizeUnit { s with mem := m }) := by
  have hread := (memRead1_eq s _ (packedSource s)).2 ⟨h, rfl⟩
  refine ⟨fun m t hloop => ?_, fun m hloop => ?_⟩ <;> simp only [dequantizeUnit, hread, hloop]

/-- The value the loop writes for a slot is the one the claims name (42_dequantize R157, R158). -/
theorem slotValue_packedSource (hw : w = 2 ∨ w = 4) {k : ℕ} (hk : k < 8 / w) :
    slotValue w (packedSource s) s.engine k = valueAt w s (s.engine.idx.toNat * (8 / w) + k) := by
  have hpos : 0 < 8 / w := Nat.zero_lt_of_lt hk
  have hdiv : (s.engine.idx.toNat * (8 / w) + k) / (8 / w) = s.engine.idx.toNat := by
    rw [Nat.mul_comm, Nat.mul_add_div hpos, Nat.div_eq_of_lt hk, Nat.add_zero]
  have hmod : (s.engine.idx.toNat * (8 / w) + k) % (8 / w) = k := by
    rw [Nat.mul_comm, Nat.mul_add_mod, Nat.mod_eq_of_lt hk]
  rw [slotValue, unpackSlot_eq _ _ (width_le_eight hw), packedSource, valueAt, hdiv, hmod, zeroPointOf]

end

theorem instrDir_of_dequantize {i : Instr} (hi : i = .dequantizeUint4 ∨ i = .dequantizeUint2) :
    instrDir i ≠ 0 := by
  obtain rfl | rfl := hi <;> decide

theorem dir_of_dequantize {s : State} {i : Instr} (hi : i = .dequantizeUint4 ∨ i = .dequantizeUint2)
    (h : EngineRuns i s) : s.engine.dir ≠ 0 := by
  obtain ⟨-, -, hdir, -⟩ := h
  rw [hdir]
  exact instrDir_of_dequantize hi

/-- A dequantize command with a unit left takes a dequantize unit. -/
theorem exec_of_dequantize_unit {s : State} {i : Instr}
    (hi : i = .dequantizeUint4 ∨ i = .dequantizeUint2) (h : EngineRuns i s)
    (hidx : s.engine.idx.toNat < s.engine.nsrc.toNat) :
    exec i s = .next (dequantizeUnit (instrWidth i) (consumeInput s)) := by
  rw [exec_of_unit h (by rwa [unitCount, if_neg (dir_of_dequantize hi h)]), unitOf_eq,
    if_neg (instrDir_of_dequantize hi)]

/-- The destination of a dequantize command is its values (20_memory R60). -/
theorem Engine.Running.ndst_of_dequantize {e : Engine} (h : e.Running) (hdir : e.dir ≠ 0) :
    e.ndst.toNat = 4 * e.len.toNat := by
  obtain ⟨-, -, hndst, -⟩ := h
  rw [hndst, dstBytes, if_neg hdir]

theorem width_of_dequantize {i : Instr} (hi : i = .dequantizeUint4 ∨ i = .dequantizeUint2) :
    instrWidth i = 2 ∨ instrWidth i = 4 := by
  obtain rfl | rfl := hi
  · exact .inr rfl
  · exact .inl rfl

/-- Settles O18: the loop writes the value of each valid slot and leaves every other byte alone. -/
theorem dequantizeUnitWritesValues : Obligations.DequantizeUnitWritesValues := by
  intro s i hi h hm hidx w j slot valid hread hbus
  obtain ⟨m, hloop, hvalues⟩ := unpackSlots_of_all_answer (w := w) (j := j)
    (b := packedSource (consumeInput s)) (e := s.engine) (p := s.platform) (List.range (groupSize w))
    s.mem hm List.pairwise_lt_range fun k hk hvalid => hbus k ⟨List.mem_range.1 hk, hvalid⟩
  obtain ⟨-, hother, -⟩ := unpackSlots_spec w j (packedSource (consumeInput s)) s.engine s.platform
    (List.range (groupSize w)) s.mem
  rw [hloop] at hother
  obtain ⟨-, hwritten⟩ := dequantizeUnit_of_read (w := w) (s := consumeInput s) hread
  refine ⟨_, (exec_of_dequantize_unit hi h hidx).trans (congrArg _ (hwritten m hloop)),
    fun k ⟨hk, hlen⟩ x hx => ?_, fun a ha => ?_, rfl, rfl, rfl, rfl⟩
  · exact (hvalues k (List.mem_range.2 hk) hlen x hx).trans (congrArg _
      (slotValue_packedSource (s := consumeInput s) (width_of_dequantize hi) hk))
  · exact hother a fun k hk hlen => ha k ⟨List.mem_range.1 hk, hlen⟩

/-- Settles O19: the read comes first, and the loop stops at the first write that fails; what it has
written by then lies in the destination range. -/
theorem dequantizeFaultsOnBusError : Obligations.DequantizeFaultsOnBusError := by
  intro s i hi h hinv hidx g j
  have hexec := exec_of_dequantize_unit hi h hidx
  have hdir := dir_of_dequantize hi h
  refine ⟨fun hread => ?_, fun hread k hk hlen hbefore hbus => ?_⟩
  · have hunit := dequantizeUnit_of_read_busError (w := instrWidth i) (s := consumeInput s) hread
    exact ⟨_, hexec.trans (congrArg _ hunit), raiseFault_faultedInExecution
      (t := ⟨.busError, BitVec.ofNat 32 (s.engine.src.toNat + j)⟩) rfl hinv.canonical fun _ _ => rfl⟩
  · obtain ⟨m, hloop⟩ := unpackSlots_range_of_busError (w := instrWidth i) (j := j) (k := k)
      (b := packedSource (consumeInput s)) (e := s.engine) (p := s.platform) (m := s.mem)
      hk hlen hbefore (Bool.ne_false_iff.2 hbus)
    obtain ⟨hwf, hother, -⟩ := unpackSlots_spec (instrWidth i) j (packedSource (consumeInput s)) s.engine
      s.platform (List.range (groupSize (instrWidth i))) s.mem
    rw [hloop] at hwf hother
    obtain ⟨hfault, -⟩ := dequantizeUnit_of_read (w := instrWidth i) (s := consumeInput s) hread
    obtain ⟨-, hbusy, -⟩ := h
    have hndst := (hinv.running hbusy).1.ndst_of_dequantize hdir
    exact ⟨_, hexec.trans (congrArg _ (hfault m _ hloop)), raiseFault_faultedInExecution
      (t := ⟨.busError, BitVec.ofNat 32 (slotAddress (instrWidth i) j s.engine k)⟩) rfl
      (hwf hinv.canonical) fun a ha => hother a fun k _ hk => by omega⟩

end Sys2Proof.Machine
end

section
/-! A whole dequantize command (42_dequantize R154, R156 to R158; 41_quantize R134): its units one after the
other, each of which unpacks a source byte of the accept, then the completion step. -/

namespace Sys2Proof.Machine

/-! ### The accepted command -/

/-- The source lies in the address space and not at 0, so a count of its bytes fits in `IDX`. -/
theorem Engine.Running.nsrc_lt {e : Engine} (h : e.Running) : e.nsrc.toNat < 2 ^ 32 := by
  obtain ⟨-, -, -, hsrc, -, -, -, hfits, -⟩ := h
  have hpos : e.src.toNat ≠ 0 := fun h0 => hsrc (BitVec.eq_of_toNat_eq h0)
  omega

/-- The ranges of a running command share no byte (60_exceptions R172). -/
theorem Engine.Running.source_not_in_destination {s : State} (h : s.engine.Running) {k : ℕ}
    (hk : k < s.engine.nsrc.toNat) : ¬ InDestination s (s.engine.src.toNat + k) := by
  obtain ⟨-, -, -, -, -, -, -, -, -, hmeet, -⟩ := h
  rw [rangesMeet_eq_false_iff] at hmeet
  omega

/-- An accepted dequantize command `i` whose accesses answer no bus error; its source bytes are those in
memory. -/
structure DequantizeAnswers (i : Instr) (s : State) : Prop where
  dequantize : i = .dequantizeUint4 ∨ i = .dequantizeUint2
  runs : EngineRuns i s
  inv : s.Inv
  notDrawn : sourceDraw s = none
  reads : ∀ j, j < s.engine.nsrc.toNat →
    busError s.platform (s.engine.src.toNat + j) 1 .read = false
  writes : ∀ m, m < s.engine.len.toNat →
    busError s.platform (s.engine.dst.toNat + 4 * m) 4 .write = false

section
variable {s t : State} {i : Instr} {n : ℕ}

theorem DequantizeAnswers.running (hs : DequantizeAnswers i s) : s.engine.Running := by
  obtain ⟨-, hbusy, -⟩ := hs.runs
  exact (hs.inv.running hbusy).1

theorem DequantizeAnswers.ndst_eq (hs : DequantizeAnswers i s) :
    s.engine.ndst.toNat = 4 * s.engine.len.toNat :=
  hs.running.ndst_of_dequantize (dir_of_dequantize hs.dequantize hs.runs)

theorem DequantizeAnswers.slots_pos (hs : DequantizeAnswers i s) : 0 < 8 / instrWidth i := by
  obtain hw | hw := width_of_dequantize hs.dequantize <;> rw [hw] <;> decide

/-- Unit `j` holds a code exactly when it is one of the `NSRC` units (42_dequantize R154). -/
theorem DequantizeAnswers.lt_nsrc_iff (hs : DequantizeAnswers i s) (j : ℕ) :
    j < s.engine.nsrc.toNat ↔ j * (8 / instrWidth i) < s.engine.len.toNat := by
  obtain ⟨-, -, -, hwidth⟩ := hs.runs
  obtain ⟨-, hnsrc, -⟩ := hs.running
  have hpos := hs.slots_pos
  rw [hnsrc, srcBytes, if_neg (dir_of_dequantize hs.dequantize hs.runs), packedBytes, hwidth,
    Nat.lt_iff_add_one_le, Nat.le_div_iff_mul_le hpos, Nat.add_mul]
  omega

/-- The units together hold every code (42_dequantize R154). -/
theorem DequantizeAnswers.len_le (hs : DequantizeAnswers i s) :
    s.engine.len.toNat ≤ s.engine.nsrc.toNat * (8 / instrWidth i) :=
  Nat.not_lt.1 fun hlt => Nat.lt_irrefl _ ((hs.lt_nsrc_iff _).2 hlt)

/-! ### The units done so far -/

/-- `t` is reached from the accepted dequantize command `s` by its first `n` unit steps, with no input
handled: the values of their slots stand in the destination, and the latched command is that of `s`. -/
structure UnitsUnpacked (i : Instr) (s : State) (n : ℕ) (t : State) : Prop where
  inv : t.Inv
  regs : t.regs = s.regs
  platform : t.platform = s.platform
  inputs : t.port.inputs = []
  current : t.port.current = s.port.current
  engine : t.engine = { s.engine with packed := t.engine.packed, idx := t.engine.idx }
  idx : t.engine.idx.toNat = n
  values : ∀ m, m < n * (8 / instrWidth i) → m < s.engine.len.toNat → ∀ b, b < 4 →
    t.mem.readByte (s.engine.dst.toNat + 4 * m + b) = (valueAt (instrWidth i) s m).extractLsb' (8 * b) 8
  other : ∀ a, ¬ InDestination s a → t.mem.readByte a = s.mem.readByte a

theorem UnitsUnpacked.zero (hinv : s.Inv) (hinputs : s.port.inputs = []) (hidx : s.engine.idx = 0) :
    UnitsUnpacked i s 0 s :=
  ⟨hinv, rfl, rfl, hinputs, rfl, rfl, by rw [hidx]; rfl,
    fun m hm => absurd hm (by rw [Nat.zero_mul]; exact Nat.not_lt_zero m), fun _ _ => rfl⟩

theorem UnitsUnpacked.engineRuns (h : UnitsUnpacked i s n t) (hruns : EngineRuns i s) :
    EngineRuns i t := by
  obtain ⟨-, hbusy, hdir, hwidth⟩ := hruns
  rw [EngineRuns, engineTurn, h.inputs, h.regs, h.engine]
  exact ⟨rfl, hbusy, hdir, hwidth⟩

theorem UnitsUnpacked.src_eq (h : UnitsUnpacked i s n t) : t.engine.src = s.engine.src := by rw [h.engine]

theorem UnitsUnpacked.len_eq (h : UnitsUnpacked i s n t) : t.engine.len = s.engine.len := by rw [h.engine]

theorem UnitsUnpacked.dst_eq (h : UnitsUnpacked i s n t) : t.engine.dst = s.engine.dst := by rw [h.engine]

theorem UnitsUnpacked.nsrc_eq (h : UnitsUnpacked i s n t) : t.engine.nsrc = s.engine.nsrc := by
  rw [h.engine]

/-- Only the destination has been written, so the engine reads the packed bytes of the accept. -/
theorem UnitsUnpacked.valueAt_eq (h : UnitsUnpacked i s n t) (hs : DequantizeAnswers i s) {m : ℕ}
    (hm : m < s.engine.len.toNat) : valueAt (instrWidth i) t m = valueAt (instrWidth i) s m := by
  have hdraw : sourceDraw t = none := by
    rw [sourceDraw, h.current]
    exact hs.notDrawn
  have hunit : m / (8 / instrWidth i) < s.engine.nsrc.toNat :=
    (hs.lt_nsrc_iff _).2 (Nat.lt_of_le_of_lt (Nat.div_mul_le_self _ _) hm)
  have hbyte : engineByte t (s.engine.src.toNat + m / (8 / instrWidth i)) =
      engineByte s (s.engine.src.toNat + m / (8 / instrWidth i)) := by
    rw [engineByte_of_no_draw hdraw, engineByte_of_no_draw hs.notDrawn,
      h.other _ (hs.running.source_not_in_destination hunit)]
  rw [valueAt, valueAt, h.src_eq, hbyte, h.engine]

/-- One more unit step, as O18 gives it: it writes the values of the next packed byte. -/
theorem UnitsUnpacked.next (h : UnitsUnpacked i s n t) (hs : DequantizeAnswers i s)
    (hn : n < s.engine.nsrc.toNat) : ∃ u, step t = .next u ∧ UnitsUnpacked i s (n + 1) u := by
  have hruns := h.engineRuns hs.runs
  obtain ⟨u, hu, hwritten, hother, hregs, hplatform, hport, hengine⟩ :=
    dequantizeUnitWritesValues t i hs.dequantize hruns h.inv.canonical (by rwa [h.idx, h.nsrc_eq])
      (by rw [h.platform, h.src_eq, h.idx]; exact hs.reads n hn)
      (fun k ⟨_, hk⟩ => by
        rw [h.len_eq] at hk
        rw [h.platform, h.dst_eq]
        exact hs.writes _ hk)
  have hstep : step t = .next u := (step_of_engineRuns hruns).trans hu
  have hndst := hs.ndst_eq
  rw [h.dst_eq, h.len_eq, h.idx] at hwritten hother
  beta_reduce at hwritten hother
  refine ⟨u, hstep, everyStepKeepsSoundness t u h.inv hstep, hregs.trans h.regs,
    hplatform.trans h.platform, ?_, ?_, ?_, ?_, fun m hm hlen b hb => ?_, fun a ha => ?_⟩
  · rw [hport, consumeInput_inputs, h.inputs, List.tail_nil]
  · rw [hport, consumeInput_current, h.current]
  · rw [hengine, h.engine]
  · rw [hengine, BitVec.toNat_add, h.idx]
    exact Nat.mod_eq_of_lt (Nat.lt_of_le_of_lt hn hs.running.nsrc_lt)
  · obtain hlt | hge := Nat.lt_or_ge m (n * (8 / instrWidth i))
    · rw [hother _ fun k _ => by omega, h.values m hlt hlen b hb]
    · rw [Nat.succ_mul] at hm
      obtain ⟨k, rfl⟩ := Nat.exists_eq_add_of_le hge
      rw [hwritten k ⟨by omega, hlen⟩ b hb, h.valueAt_eq hs hlen]
  · rw [hother a fun k ⟨_, hk⟩ => by omega, h.other a ha]

/-- The completion step after the last unit. -/
theorem UnitsUnpacked.step_eq_complete (h : UnitsUnpacked i s n t) (hs : DequantizeAnswers i s)
    (hn : n = s.engine.nsrc.toNat) : step t = .next (completeCommand (consumeInput t)) := by
  have hruns := h.engineRuns hs.runs
  rw [step_of_engineRuns hruns]
  refine exec_of_completion hruns ?_
  rw [h.idx, unitCount, h.engine, if_neg (dir_of_dequantize hs.dequantize hs.runs), hn]

end

/-- Settles O21: the unit steps one by one, then the completion step, which draws nothing. -/
theorem dequantizeCommandUnpacksAllCodes : Obligations.DequantizeCommandUnpacksAllCodes := by
  intro s i hi hruns hinv hinputs hidx hrace hread hbus
  obtain ⟨hraced, hdraw⟩ := hrace
  have hs : DequantizeAnswers i s := ⟨hi, hruns, hinv, hdraw, hread, hbus⟩
  obtain ⟨t, ht, hend⟩ := run_of_progress (P := UnitsUnpacked i s)
    (fun _ _ hn h => h.next hs hn) s.engine.nsrc.toNat 0 s (Nat.zero_add _)
    (.zero hinv hinputs hidx)
  have hraced' : commandRaced (consumeInput t) = false := by
    rwa [commandRaced, consumeInput_current, hend.current]
  have hmem : (completeCommand (consumeInput t)).mem = t.mem := by
    rw [completeCommand_of_not_raced hraced']
    rfl
  refine ⟨_, run_succ_of_run ht (hend.step_eq_complete hs rfl), ?_, ?_, ?_⟩
  · rw [completeCommand_regs, consumeInput_regs, hend.regs]
  · rw [hmem]
    exact fun m hm => hend.values m (Nat.lt_of_lt_of_le hm hs.len_le) hm
  · rw [hmem]
    exact hend.other

end Sys2Proof.Machine
end

section
/-! Exceptions: the reject and the validation of a `CMD` write, its accept, the exit from a fault, the idle
block and the interrupt output (60_exceptions R170 to R172, R182, R184, R195). -/

namespace Sys2Proof.Machine

/-! ### The reject of a `CMD` write (60_exceptions R170) -/

theorem commandWrite_of_rejected {s : State} (c : Word)
    (h : s.regs.busy = true ∨ s.regs.fault = true) :
    commandWrite c s = { s with regs.rej := true } := by
  rw [commandWrite, if_pos (by simpa using h)]

/-- The arrival of a command word at `CMD` is no turn of the engine, so its command is the `CMD` write. -/
theorem exec_of_commandArrives {s : State} {c : Word} (i : Instr) (h : CommandArrives c s) :
    exec i s = .next (commandWrite (encode i) (consumeInput s)) := by
  obtain ⟨hturn, -⟩ := commandArrives_spec s c h
  rw [exec_eq, runCommand_of_not_engineRuns]
  rintro ⟨hruns, -⟩
  exact Bool.false_ne_true (hturn.symm.trans hruns)

/-- Settles O7: a legal word comes to the reject through its command, an illegal one through the port. -/
theorem commandWriteRejectedWhileBusyOrFaulted :
    Obligations.CommandWriteRejectedWhileBusyOrFaulted := by
  intro s c h hrej
  cases hd : decodeWord c with
  | command i =>
    rw [step_of_commandArrives h hd, exec_of_commandArrives i h,
      commandWrite_of_rejected (s := consumeInput s) _ hrej]
  | illegal why =>
    rw [step_of_illegal_word h hd, commandWrite_of_rejected c hrej]
    rfl

/-! ### Validation (60_exceptions R172) -/

/-- Check 1 passes exactly the words of the table of 30_encoding R82. -/
theorem not_tableWord_iff (c : Word) :
    (c ≠ 0x40 ∧ c ≠ 0x41 ∧ c ≠ 0x20 ∧ c ≠ 0x21) ↔ ∀ i, c ≠ encode i := by
  refine ⟨fun ⟨hq4, hd4, hq2, hd2⟩ => ?_, fun h =>
    ⟨h .quantizeUint4, h .dequantizeUint4, h .quantizeUint2, h .dequantizeUint2⟩⟩
  rintro (_ | _ | _ | _)
  exacts [hq4, hd4, hq2, hd2]

/-- `DIR = CMD[0]` (30_encoding R81). -/
theorem encode_getLsbD_zero (i : Instr) : (encode i).getLsbD 0 = false ↔ instrDir i = 0 := by
  cases i <;> decide

/-- `W = CMD[7:4]` (30_encoding R86). -/
theorem encode_div_mod (i : Instr) : (encode i).toNat / 2 ^ 4 % 2 ^ 4 = instrWidth i := by
  cases i <;> rfl

/-- Check 2 on the registers as unsigned integers. -/
theorem word_eq_zero_iff (x : Word) : x = 0 ↔ x.toNat = 0 := BitVec.toNat_eq

/-- Check 3 on the register as an unsigned integer. -/
theorem scaleLegal_iff (x : Word) :
    scaleLegal x = true ↔ 0x00000001 ≤ x.toNat ∧ x.toNat ≤ 0x7F7FFFFF := by
  rw [scaleLegal, decide_eq_true_iff]

/-- Settles O10: check 1 is the table of R82, and the operands of a table word are checked one by one. -/
theorem validateAppliesChecksInOrder : Obligations.ValidateAppliesChecksInOrder := by
  intro c r
  dsimp only
  by_cases h : ∀ i, c ≠ encode i
  · obtain ⟨why, hd⟩ := exists_illegal_of_forall_ne_encode h
    rw [if_pos ((not_tableWord_iff c).2 h), validate_of_illegal r hd]
  · rw [if_neg (mt (not_tableWord_iff c).1 h)]
    obtain ⟨i, rfl⟩ := not_forall_not.1 h
    simp only [encode_getLsbD_zero, encode_div_mod, validate_encode, validateOperands,
      word_eq_zero_iff, scaleLegal_iff, rangesMeet_iff]
    rfl

/-- A validation fault of a command changes the registers that record it, and nothing else. -/
theorem exec_of_validate_some {s : State} {i : Instr} {t : Trap} (hb : s.regs.busy = false)
    (hf : s.regs.fault = false) (h : validate (encode i) s.regs = some t) :
    exec i s = .next { consumeInput s with
      regs := faultedRegs s.regs (causeCode t.cause) t.info } := by
  obtain ⟨hcause, -⟩ := validate_cause _ _ _ h
  rw [exec_of_not_busy i s hb, commandWrite, consumeInput_regs, hb, hf, h]
  simp only [Bool.or_self, Bool.false_eq_true, if_false, raiseFault, hcause]
  rfl

/-- Settles O9: the checks of O10 for the command's own word, which passes check 1. -/
theorem validationReportsFirstFailure : Obligations.ValidationReportsFirstFailure := by
  intro s i hb hf r g packed nsrc ndst src dst null badScale misaligned wraps small overlap faults
  have hv := validateAppliesChecksInOrder (encode i) r
  simp only [encode_getLsbD_zero, encode_div_mod] at hv
  rw [if_neg fun h => (not_tableWord_iff _).1 h i rfl] at hv
  have fault_of {cause : Cause} (h : validate (encode i) r = some ⟨cause, 0⟩) :
      faults (causeCode cause) := exec_of_validate_some hb hf h
  refine ⟨fun h2 => fault_of (cause := .nullPtr) ?_,
    fun h2 h3 => fault_of (cause := .badScale) ?_,
    fun h2 h3 h4 => fault_of (cause := .misaligned) ?_,
    fun h2 h3 h4 h5 => fault_of (cause := .addrWrap) ?_,
    fun h2 h3 h4 h5 h6 => fault_of (cause := .bufTooSmall) ?_,
    fun h2 h3 h4 h5 h6 h7 => fault_of (cause := .overlap) ?_,
    fun h2 h3 h4 h5 h6 h7 => ?_⟩
  · rw [hv, if_pos h2]
  · rw [hv, if_neg h2, if_pos h3]
  · rw [hv, if_neg h2, if_neg h3, if_pos h4]
  · rw [hv, if_neg h2, if_neg h3, if_neg h4, if_pos h5]
  · rw [hv, if_neg h2, if_neg h3, if_neg h4, if_neg h5, if_pos h6]
  · rw [hv, if_neg h2, if_neg h3, if_neg h4, if_neg h5, if_neg h6, if_pos h7]
  · rw [if_neg h2, if_neg h3, if_neg h4, if_neg h5, if_neg h6, if_neg h7] at hv
    have hpass := (validate_encode_eq_none_iff i r).1 hv
    exact ⟨_, exec_of_parametersPass hb hf hpass, hf, rfl⟩

/-! ### The accept, and the exit from a fault (60_exceptions R171, R182) -/

/-- Settles O11: the accept of the command's own word, whose direction and width are the command's. -/
theorem acceptLatchesParameters : Obligations.AcceptLatchesParameters := by
  intro s i hb hf hpass r g packed
  refine ⟨acceptClaim (instrDir i) (instrWidth i) r, ?_⟩
  rw [exec_of_parametersPass hb hf hpass, acceptCommand, commandDir_encode, commandWidth_encode]
  rfl

/-- Settles O43: the write of O38 clears the fault and leaves `BUSY` and the parameters alone, so the
command is accepted. -/
theorem clearedFaultAdmitsNextCommand : Obligations.ClearedFaultAdmitsNextCommand := by
  intro s addr data rest i hi ha hbit hb hpass
  have hclear := statusWriteClearsBits s addr data rest hi ha
  simp only [hbit, Bool.not_true, Bool.and_false, if_true] at hclear
  exact ⟨_, _, hclear, rfl, rfl, rfl, exec_of_parametersPass hb rfl hpass, rfl, rfl⟩

/-! ### The idle block and the interrupt output (60_exceptions R184, R195) -/

theorem nextAction_of_engineTurn {s : State} (h : engineTurn s = true) :
    nextAction s = engineAction s := by
  unfold engineTurn at h
  unfold nextAction
  split at h <;> simp_all

/-- Settles O34: the engine's turn of an idle block is settled without a command. -/
theorem idleBlockTakesNoStep : Obligations.IdleBlockTakesNoStep := by
  intro s hb hturn
  have hnext : nextAction s = .settled (.next (consumeInput s)) := by
    rw [nextAction_of_engineTurn hturn, engineAction, if_neg (by simp [hb])]
  rw [step, hnext]

/-- Settles O42: the gates of the output are those of R184. -/
theorem irqFollowsStatusAndEnables : Obligations.IrqFollowsStatusAndEnables := by
  intro r
  simp only [irqOutput, Bool.or_eq_true, Bool.and_eq_true]

end Sys2Proof.Machine
end

section
/-! Reset (70_reset R210, R211, R215): a command offered to the unprogrammed block, and the reset input. -/

namespace Sys2Proof.Machine

/-- Check 2 is the first that the parameters of the reset state fail (60_exceptions R172). -/
theorem validate_encode_reset (i : Instr) : validate (encode i) Regs.reset = some ⟨.nullPtr, 0⟩ := by
  rw [validate_encode, validateOperands]
  exact if_pos (Or.inl rfl)

/-- Settles O12: the command arrives in the reset state, where its validation ends at check 2. -/
theorem unprogrammedCommandFaultsNull : Obligations.UnprogrammedCommandFaultsNull := by
  intro i
  have harrive := commandArrives_withFetchWord State.reset (encode i)
  have hstep := (step_of_commandArrives harrive (decodeWord_encode i)).trans
    (exec_of_validate_some rfl rfl (validate_encode_reset i))
  have hstatus : statusWord (faultedRegs .reset (causeCode .nullPtr) 0) = 0x00000204 := by decide
  exact ⟨_, hstep, hstatus, rfl, rfl⟩

theorem step_of_reset {s : State} {rest : List Input} (hi : s.port.inputs = .reset :: rest) :
    step s = .next (consumeInput (resetBlock s)) := by
  simp only [step, nextAction, hi]

/-- Settles O36: of memory the reset only draws the destination range of a command it abandons. -/
theorem resetInputResetsBlock : Obligations.ResetInputResetsBlock := by
  intro s rest hm hi
  refine ⟨_, step_of_reset hi, resetBlock_regs s, resetBlock_engine s, resetBlock_platform s, ?_,
    resetBlock_current s, resetBlock_unobserved s, fun hb => ?_, fun hb => ?_⟩
  · rw [consumeInput_inputs, resetBlock_inputs, hi, List.tail_cons]
  · rw [consumeInput_mem, resetBlock_mem, hb, if_neg Bool.false_ne_true]
  · rw [consumeInput_mem, resetBlock_mem, hb, if_pos rfl]
    exact drawDestination_mem_spec s hm

end Sys2Proof.Machine
end

section
/-! The parameter registers and the running command (70_reset R218; 10_state R35, R43): each operation of the
engine does the same whatever they hold. -/

namespace Sys2Proof.Machine

/-- The state with the parameter registers of `q`. -/
def State.setParameters (q : Regs) (s : State) : State :=
  { s with regs := withParameters s.regs q }

@[simp] theorem State.setParameters_engine (q : Regs) (s : State) :
    (s.setParameters q).engine = s.engine := rfl
@[simp] theorem State.setParameters_mem (q : Regs) (s : State) :
    (s.setParameters q).mem = s.mem := rfl
@[simp] theorem State.setParameters_platform (q : Regs) (s : State) :
    (s.setParameters q).platform = s.platform := rfl

/-- An operation that neither reads nor writes the parameter registers. -/
def IgnoresParameters (f : State → State) : Prop :=
  ∀ (q : Regs) (s : State), f (s.setParameters q) = (f s).setParameters q

theorem consumeInput_ignoresParameters : IgnoresParameters consumeInput := fun _ _ => rfl

theorem raiseFault_ignoresParameters (t : Trap) : IgnoresParameters (raiseFault t) := by
  intro q s
  unfold raiseFault
  cases causeIsExecution t.cause <;> rfl

/-- Whether the command was raced is told by its claim. -/
theorem completeCommand_ignoresParameters : IgnoresParameters completeCommand := by
  intro q s
  have hraced : commandRaced (s.setParameters q) = commandRaced s := rfl
  unfold completeCommand
  rw [hraced]
  cases commandRaced s <;> rfl

/-- The loop of a quantize unit reads memory, the claim and the latched parameters. -/
theorem packSlots_setParameters (w j : Nat) (q : Regs) (s : State) (ks : List Nat) : ∀ acc,
    packSlots w j (s.setParameters q) ks acc = packSlots w j s ks acc := by
  have hread : ∀ a, memRead4 (s.setParameters q) a = memRead4 s a := fun _ => rfl
  induction ks with
  | nil => exact fun _ => rfl
  | cons k ks ih =>
    intro acc
    simp only [packSlots, hread, State.setParameters_engine, ih]

theorem quantizeUnit_ignoresParameters (w : Nat) : IgnoresParameters (quantizeUnit w) := by
  intro q s
  simp only [quantizeUnit, packSlots_setParameters, State.setParameters_engine,
    State.setParameters_mem, State.setParameters_platform]
  split
  · exact raiseFault_ignoresParameters _ q s
  · split
    · exact raiseFault_ignoresParameters _ q s
    · rfl

theorem dequantizeUnit_ignoresParameters (w : Nat) : IgnoresParameters (dequantizeUnit w) := by
  intro q s
  have hread : ∀ a, memRead1 (s.setParameters q) a = memRead1 s a := fun _ => rfl
  simp only [dequantizeUnit, hread, State.setParameters_engine, State.setParameters_mem,
    State.setParameters_platform]
  split
  · exact raiseFault_ignoresParameters _ q s
  · split
    · next m t _ => exact raiseFault_ignoresParameters t q { s with mem := m }
    · rfl

theorem unitOf_ignoresParameters (i : Instr) : IgnoresParameters (unitOf i) := by
  rw [unitOf_eq]
  split
  · exact quantizeUnit_ignoresParameters _
  · exact dequantizeUnit_ignoresParameters _

/-- Which engine step is enabled depends on the engine alone. -/
theorem engineStep_setParameters {u : State → State} (hu : IgnoresParameters u) (q : Regs) {s t : State}
    (h : engineStep u s = .next t) :
    engineStep u (s.setParameters q) = .next (t.setParameters q) := by
  obtain ⟨hidx, rfl⟩ | ⟨hidx, rfl⟩ := engineStep_cases u s t h
  · rw [engineStep, State.setParameters_engine, if_pos hidx, hu]
  · rw [engineStep, State.setParameters_engine, if_neg (by omega), if_pos hidx,
      completeCommand_ignoresParameters]

/-- Settles O28: the engine step of the command ignores the parameters, and so does its turn. -/
theorem parameterWritesDoNotDisturbCommand : Obligations.ParameterWritesDoNotDisturbCommand := by
  intro s t i q hruns hexec
  have hruns' : EngineRuns i (s.setParameters q) := hruns
  rw [exec_of_engineRuns i s hruns] at hexec
  calc exec i (s.setParameters q)
      = engineStep (unitOf i) (consumeInput (s.setParameters q)) := exec_of_engineRuns i _ hruns'
    _ = engineStep (unitOf i) ((consumeInput s).setParameters q) := by
        rw [consumeInput_ignoresParameters]
    _ = .next (t.setParameters q) := engineStep_setParameters (unitOf_ignoresParameters i) q hexec

end Sys2Proof.Machine
end

section
/-! An accepted command ends (70_reset R224): its units are bounded, each turn of the engine does one of them
or ends the command, and no host transaction touches the engine. -/

namespace Sys2Proof.Machine

/-! ### The number of units (10_state R44; 20_memory R60) -/

/-- The units of either direction are the packed bytes. -/
theorem Engine.Running.unitCount_eq {e : Engine} (h : e.Running) :
    unitCount e = packedBytes e.width.toNat e.len.toNat := by
  obtain ⟨-, hnsrc, hndst, -⟩ := h
  rw [unitCount, hnsrc, hndst, srcBytes, dstBytes]
  split <;> rfl

/-- The binary32 buffer of either direction lies in the address space. -/
theorem Engine.Running.len_le {e : Engine} (h : e.Running) : e.len.toNat ≤ 2 ^ 30 := by
  obtain ⟨-, hnsrc, hndst, -, -, -, -, hsrc, hdst, -⟩ := h
  rw [srcBytes] at hnsrc
  rw [dstBytes] at hndst
  split at hnsrc
  · omega
  · rw [if_neg ‹_›] at hndst
    omega

/-- A count of units fits in `IDX`. -/
theorem Engine.Running.unitCount_lt {e : Engine} (h : e.Running) : unitCount e < 2 ^ 32 := by
  rw [unitCount]
  split
  · exact h.ndst_lt
  · exact h.nsrc_lt

theorem Engine.Running.unitCount_le_of_width_four {e : Engine} (h : e.Running) (hw : e.width = 4) :
    unitCount e ≤ 2 ^ 29 := by
  have hwidth : e.width.toNat = 4 := congrArg BitVec.toNat hw
  have hlen := h.len_le
  rw [h.unitCount_eq, hwidth, packedBytes]
  omega

theorem Engine.Running.unitCount_le_of_width_two {e : Engine} (h : e.Running) (hw : e.width = 2) :
    unitCount e ≤ 2 ^ 28 := by
  have hwidth : e.width.toNat = 2 := congrArg BitVec.toNat hw
  have hlen := h.len_le
  rw [h.unitCount_eq, hwidth, packedBytes]
  omega

/-! ### A turn of the engine -/

/-- The block shows the end of its command, by completion or fault. -/
def CommandEnded (t : State) : Prop :=
  t.regs.busy = false ∧ (t.regs.done = true ∨ t.regs.fault = true)

/-- From `s` to `t` the running command has done one more unit. -/
def UnitDone (s t : State) : Prop :=
  t.regs.busy = true ∧ unitCount t.engine = unitCount s.engine ∧
    t.engine.idx.toNat = s.engine.idx.toNat + 1

theorem raiseFault_ended (t : Trap) (s : State) : CommandEnded (raiseFault t s) := by
  rw [CommandEnded, raiseFault_regs]
  exact ⟨rfl, .inr rfl⟩

theorem completeCommand_ended (s : State) : CommandEnded (completeCommand s) := by
  rw [CommandEnded, completeCommand_regs]
  exact ⟨rfl, .inl rfl⟩

/-- Everything a unit of either direction can do, but for the values it writes: it faults, or `IDX` goes on
and the two held bytes are free. -/
theorem unitOf_cases (i : Instr) (s : State) :
    (∃ t m, unitOf i s = raiseFault t { s with mem := m }) ∨
    (∃ m acc packed, unitOf i s = { s with
      mem := m
      engine := { s.engine with idx := s.engine.idx + 1, acc := acc, packed := packed }
      port.draws := s.port.draws + 1 }) := by
  rw [unitOf_eq]
  split
  · obtain ⟨t, -, hu⟩ | ⟨acc, -, -, hu⟩ := quantizeUnit_cases (instrWidth i) s
    · exact .inl ⟨t, s.mem, hu⟩
    · exact .inr ⟨_, _, s.engine.packed, hu⟩
  · obtain ⟨t, -, -, hu⟩ | ⟨t, m, -, -, -, hu⟩ | ⟨m, -, -, -, hu⟩ :=
      dequantizeUnit_cases (instrWidth i) s
    · exact .inl ⟨t, s.mem, hu⟩
    · exact .inl ⟨t, m, hu⟩
    · exact .inr ⟨m, s.engine.acc, _, hu⟩

theorem unitOf_inputs (i : Instr) (s : State) : (unitOf i s).port.inputs = s.port.inputs := by
  obtain ⟨t, m, hu⟩ | ⟨m, acc, packed, hu⟩ := unitOf_cases i s <;> rw [hu]
  exact raiseFault_inputs t _

theorem unitOf_ended_or_unitDone (i : Instr) {s : State} (hb : s.regs.busy = true)
    (hidx : s.engine.idx.toNat < unitCount s.engine) (hlt : unitCount s.engine < 2 ^ 32) :
    CommandEnded (unitOf i s) ∨ UnitDone s (unitOf i s) := by
  obtain ⟨t, m, hu⟩ | ⟨m, acc, packed, hu⟩ := unitOf_cases i s <;> rw [hu]
  · exact .inl (raiseFault_ended t _)
  · refine .inr ⟨hb, rfl, ?_⟩
    rw [BitVec.toNat_add]
    exact Nat.mod_eq_of_lt (Nat.lt_of_le_of_lt hidx hlt)

/-- A turn of the engine in a sound busy state does one more unit or ends the command. -/
theorem step_ended_or_unitDone {s : State} (h : s.Inv) (hb : s.regs.busy = true)
    (hturn : engineTurn s = true) : ∃ t, step s = .next t ∧ t.port.inputs = s.port.inputs.tail ∧
      (CommandEnded t ∨ UnitDone s t) := by
  obtain ⟨hrunning, -⟩ := h.running hb
  obtain ⟨i, hdir, hwidth⟩ := hrunning.exists_instr
  have hruns : EngineRuns i s := ⟨hturn, hb, hdir, hwidth⟩
  rw [step_of_engineRuns hruns]
  obtain hidx | hidx := Nat.lt_or_eq_of_le hrunning.idx_le
  · exact ⟨_, exec_of_unit hruns hidx, unitOf_inputs i _,
      unitOf_ended_or_unitDone i (s := consumeInput s) hb hidx hrunning.unitCount_lt⟩
  · exact ⟨_, exec_of_completion hruns hidx, completeCommand_inputs _, .inl (completeCommand_ended _)⟩

/-! ### A host transaction -/

/-- From `s` to `t` the running command is left alone. -/
def CommandKept (s t : State) : Prop :=
  t.regs.busy = true ∧ t.engine = s.engine

theorem commandWrite_kept (c : Word) {s : State} (hb : s.regs.busy = true) :
    CommandKept s (commandWrite c s) := by
  rw [commandWrite_of_rejected c (.inl hb)]
  exact ⟨hb, rfl⟩

theorem hostReadRegister_kept (reg : Register) {s : State} (hb : s.regs.busy = true) :
    CommandKept s (hostReadRegister reg s) := by
  rw [CommandKept, hostReadRegister_regs]
  exact ⟨hb, hostReadRegister_engine reg s⟩

theorem hostWriteRegister_kept (reg : Register) (w : Word) {s : State} (hb : s.regs.busy = true) :
    CommandKept s (hostWriteRegister reg w s) := by
  unfold hostWriteRegister
  split
  · exact commandWrite_kept w hb
  · exact ⟨(writeRegister_busy w _ reg).trans hb, rfl⟩

theorem noteHostAccess_kept (kind : AccessKind) (a n : Nat) {s : State} (hb : s.regs.busy = true) :
    CommandKept s (noteHostAccess kind a n s) := by
  rw [CommandKept, noteHostAccess_regs]
  exact ⟨hb, noteHostAccess_engine kind a n s⟩

theorem hostLoad_kept {addr : Word} {size : Size} {s t : State} (hb : s.regs.busy = true)
    (ht : consumeAfter (hostLoad addr size s) = .next t) : CommandKept s t := by
  obtain ho | ho | ho | ho := hostLoad_cases addr size s <;> rw [ho] at ht <;> cases ht
  · exact hostReadRegister_kept _ hb
  · exact noteHostAccess_kept .read _ _ hb

theorem hostStore_kept {addr : Word} {size : Size} {data : BitVec 64} {s t : State}
    (hb : s.regs.busy = true) (ht : consumeAfter (hostStore addr size data s) = .next t) :
    CommandKept s t := by
  obtain ho | ho | ho | ho := hostStore_cases addr size data s <;> rw [ho] at ht <;> cases ht
  · exact hostWriteRegister_kept _ _ hb
  · exact noteHostAccess_kept .write _ _ (s := { s with mem := _ }) hb

/-- A step that handles a host transaction leaves the running command alone. -/
theorem step_kept {s t : State} (hb : s.regs.busy = true) (hturn : engineTurn s = false)
    (hreset : s.port.inputs.head? ≠ some .reset) (hs : step s = .next t) : CommandKept s t := by
  obtain ⟨hengine, -, -⟩ | ⟨hengine, -, -⟩ | ⟨hengine, -, -⟩ | ⟨addr, size, -, -, hstep⟩ |
    ⟨addr, size, data, -, -, ⟨i, -, -, hstep⟩ | hstep⟩ | ⟨-, -, hstep⟩ | ⟨rest, hi, -⟩ := step_cases s
  · exact absurd (hturn.symm.trans hengine) Bool.false_ne_true
  · exact absurd (hturn.symm.trans hengine) Bool.false_ne_true
  · exact absurd (hturn.symm.trans hengine) Bool.false_ne_true
  · exact hostLoad_kept hb (hstep.symm.trans hs)
  · cases hstep.symm.trans hs
    exact commandWrite_kept (encode i) (s := consumeInput s) hb
  · exact hostStore_kept hb (hstep.symm.trans hs)
  · cases hstep.symm.trans hs
    exact ⟨by rwa [pollStatus_regs], pollStatus_engine s⟩
  · exact absurd (by rw [hi]; rfl) hreset

/-! ### The bounded end -/

/-- With no input queued, a command ends within any number of steps that exceeds its units left. -/
theorem run_ended : ∀ (k : ℕ) (s : State), s.Inv → s.regs.busy = true → s.port.inputs = [] →
    unitCount s.engine < s.engine.idx.toNat + k →
    ∃ n t, n ≤ k ∧ Host.Core.run Sys2Proof.core n s = .next t ∧ CommandEnded t := by
  intro k
  induction k with
  | zero =>
    intro s hinv hb _ hk
    obtain ⟨hrunning, -⟩ := hinv.running hb
    exact absurd hrunning.idx_le (Nat.not_le.2 hk)
  | succ k ih =>
    intro s hinv hb hinputs hk
    obtain ⟨t, hstep, htail, hend | ⟨hbusy, hcount, hidx⟩⟩ :=
      step_ended_or_unitDone hinv hb (by simp [engineTurn, hinputs])
    · exact ⟨1, t, by omega, run_succ_of_step 0 hstep, hend⟩
    · obtain ⟨n, u, hn, hrun, hend⟩ := ih t (everyStepKeepsSoundness s t hinv hstep) hbusy
        (by rw [htail, hinputs, List.tail_nil]) (by omega)
      exact ⟨n + 1, u, by omega, (run_succ_of_step n hstep).trans hrun, hend⟩

/-- Settles O33: each turn of the engine takes one off the units left, which the address space bounds. -/
theorem acceptedCommandEnds : Obligations.AcceptedCommandEnds := by
  intro s hinv hb ended
  obtain ⟨hrunning, -⟩ := hinv.running hb
  refine ⟨hrunning.unitCount_le_of_width_four, hrunning.unitCount_le_of_width_two, fun hturn => ?_,
    fun t hturn hreset hs => step_kept hb hturn hreset hs,
    fun hinputs => run_ended _ s hinv hb hinputs (by omega)⟩
  obtain ⟨t, hs, -, hprogress⟩ := step_ended_or_unitDone hinv hb hturn
  exact ⟨t, hs, hprogress⟩

end Sys2Proof.Machine
end
